-- ==== Sys2Proof/Word.lean ====
section
/-! DEFINITION. The words of the machine: bytes, instruction words, addresses, nibbles and register indices (00_scope.md R8, R11, R12). -/

namespace Sys2Proof

/-- An 8-bit value: a general register, a timer or a byte of memory (R20, R29, R50). -/
abbrev Byte := BitVec 8

/-- A 16-bit instruction word (R70). -/
abbrev Word := BitVec 16

/-- A 12-bit address: `PC`, `I` and the field `nnn` (R8, R71). -/
abbrev Addr := BitVec 12

/-- A 4-bit field (R11, R71). -/
abbrev Nibble := BitVec 4

/-- The index of a general register `V0`..`VF` (R12, R20). -/
abbrev Reg := Fin 16

/-- The index of a key `0x0`..`0xF` (R32). -/
abbrev Key := Fin 16

/-- `VF`, the register that is also the flag output (R21). -/
abbrev VF : Reg := 15

end Sys2Proof
end

