-- ==== Sys2Proof/Syntax.lean ====
section
/-! DEFINITION. The instructions: one constructor for each row of spec/opcode_table.json (30_encoding.md R80). -/

namespace Sys2Proof

/-- The admitted instruction set, in the order of R80; the fields are those of R71. -/
inductive Instr where
  | cls
  | ret
  | low
  | high
  | jpNnn (nnn : Addr)
  | callNnn (nnn : Addr)
  | seVxKk (x : Reg) (kk : Byte)
  | sneVxKk (x : Reg) (kk : Byte)
  | seVxVy (x y : Reg)
  | ldVxKk (x : Reg) (kk : Byte)
  | addVxKk (x : Reg) (kk : Byte)
  | ldVxVy (x y : Reg)
  | orVxVy (x y : Reg)
  | andVxVy (x y : Reg)
  | xorVxVy (x y : Reg)
  | addVxVy (x y : Reg)
  | subVxVy (x y : Reg)
  | shrVxVy (x y : Reg)
  | subnVxVy (x y : Reg)
  | shlVxVy (x y : Reg)
  | sneVxVy (x y : Reg)
  | ldINnn (nnn : Addr)
  | jpV0Nnn (nnn : Addr)
  | rndVxKk (x : Reg) (kk : Byte)
  | drwVxVyN (x y : Reg) (n : Nibble)
  | skpVx (x : Reg)
  | sknpVx (x : Reg)
  | ldVxDt (x : Reg)
  | ldVxK (x : Reg)
  | ldDtVx (x : Reg)
  | ldStVx (x : Reg)
  | addIVx (x : Reg)
  | ldFVx (x : Reg)
  | ldBVx (x : Reg)
  | ldMemVx (x : Reg)
  | ldVxMem (x : Reg)
  deriving DecidableEq, Repr

end Sys2Proof
end

