-- ==== Sys2Proof/Decode.lean ====
section
/-! DEFINITION. Decoding by mask and match (30_encoding.md R71, R74, R80), total on any bytes, and the encoder. -/

namespace Sys2Proof

/-- Why bytes are no instruction. -/
inductive DecodeError where
  /-- No row of R80 matches the word (R81). -/
  | unknownInstruction (w : Word)
  /-- Fewer than the two bytes of an instruction (R70). -/
  | truncated (length : Nat)
  deriving DecidableEq, Repr

/-- `x = w[11:8]` (R71). -/
def fieldX (w : Word) : Reg := (w.extractLsb' 8 4).toFin

/-- `y = w[7:4]` (R71). -/
def fieldY (w : Word) : Reg := (w.extractLsb' 4 4).toFin

/-- `n = w[3:0]` (R71). -/
def fieldN (w : Word) : Nibble := w.extractLsb' 0 4

/-- `kk = w[7:0]` (R71). -/
def fieldKK (w : Word) : Byte := w.extractLsb' 0 8

/-- `nnn = w[11:0]` (R71). -/
def fieldNNN (w : Word) : Addr := w.extractLsb' 0 12

/-- One row of the opcode table: a word matches when `w & mask = pattern` (R74). -/
structure Row where
  mask    : Word
  pattern : Word
  build   : Word → Instr

/-- The test of R74. -/
def Row.admits (r : Row) (w : Word) : Bool := w &&& r.mask == r.pattern

/-- The rows of format `F0`. -/
def rowsFixed : List Row :=
  [⟨0xFFFF, 0x00E0, fun _ => .cls⟩, ⟨0xFFFF, 0x00EE, fun _ => .ret⟩,
   ⟨0xFFFF, 0x00FE, fun _ => .low⟩, ⟨0xFFFF, 0x00FF, fun _ => .high⟩]

/-- The rows of format `FA`. -/
def rowsAddress : List Row :=
  [⟨0xF000, 0x1000, fun w => .jpNnn (fieldNNN w)⟩, ⟨0xF000, 0x2000, fun w => .callNnn (fieldNNN w)⟩,
   ⟨0xF000, 0xA000, fun w => .ldINnn (fieldNNN w)⟩, ⟨0xF000, 0xB000, fun w => .jpV0Nnn (fieldNNN w)⟩]

/-- The rows of format `FXK`. -/
def rowsByte : List Row :=
  [⟨0xF000, 0x3000, fun w => .seVxKk (fieldX w) (fieldKK w)⟩,
   ⟨0xF000, 0x4000, fun w => .sneVxKk (fieldX w) (fieldKK w)⟩,
   ⟨0xF000, 0x6000, fun w => .ldVxKk (fieldX w) (fieldKK w)⟩,
   ⟨0xF000, 0x7000, fun w => .addVxKk (fieldX w) (fieldKK w)⟩,
   ⟨0xF000, 0xC000, fun w => .rndVxKk (fieldX w) (fieldKK w)⟩]

/-- The rows of format `FXY`. -/
def rowsRegister : List Row :=
  [⟨0xF00F, 0x5000, fun w => .seVxVy (fieldX w) (fieldY w)⟩,
   ⟨0xF00F, 0x8000, fun w => .ldVxVy (fieldX w) (fieldY w)⟩,
   ⟨0xF00F, 0x8001, fun w => .orVxVy (fieldX w) (fieldY w)⟩,
   ⟨0xF00F, 0x8002, fun w => .andVxVy (fieldX w) (fieldY w)⟩,
   ⟨0xF00F, 0x8003, fun w => .xorVxVy (fieldX w) (fieldY w)⟩,
   ⟨0xF00F, 0x8004, fun w => .addVxVy (fieldX w) (fieldY w)⟩,
   ⟨0xF00F, 0x8005, fun w => .subVxVy (fieldX w) (fieldY w)⟩,
   ⟨0xF00F, 0x8006, fun w => .shrVxVy (fieldX w) (fieldY w)⟩,
   ⟨0xF00F, 0x8007, fun w => .subnVxVy (fieldX w) (fieldY w)⟩,
   ⟨0xF00F, 0x800E, fun w => .shlVxVy (fieldX w) (fieldY w)⟩,
   ⟨0xF00F, 0x9000, fun w => .sneVxVy (fieldX w) (fieldY w)⟩]

/-- The row of format `FXYN`. -/
def rowsDraw : List Row :=
  [⟨0xF000, 0xD000, fun w => .drwVxVyN (fieldX w) (fieldY w) (fieldN w)⟩]

/-- The rows of format `FX`. -/
def rowsSub : List Row :=
  [⟨0xF0FF, 0xE09E, fun w => .skpVx (fieldX w)⟩, ⟨0xF0FF, 0xE0A1, fun w => .sknpVx (fieldX w)⟩,
   ⟨0xF0FF, 0xF007, fun w => .ldVxDt (fieldX w)⟩, ⟨0xF0FF, 0xF00A, fun w => .ldVxK (fieldX w)⟩,
   ⟨0xF0FF, 0xF015, fun w => .ldDtVx (fieldX w)⟩, ⟨0xF0FF, 0xF018, fun w => .ldStVx (fieldX w)⟩,
   ⟨0xF0FF, 0xF01E, fun w => .addIVx (fieldX w)⟩, ⟨0xF0FF, 0xF029, fun w => .ldFVx (fieldX w)⟩,
   ⟨0xF0FF, 0xF033, fun w => .ldBVx (fieldX w)⟩, ⟨0xF0FF, 0xF055, fun w => .ldMemVx (fieldX w)⟩,
   ⟨0xF0FF, 0xF065, fun w => .ldVxMem (fieldX w)⟩]

/-- The opcode table of R80. -/
def opcodeTable : List Row :=
  rowsFixed ++ rowsAddress ++ rowsByte ++ rowsRegister ++ rowsDraw ++ rowsSub

/-- Decoding is total: one row of R80, or the word is unknown (R74, R81). -/
def decodeWord (w : Word) : Except DecodeError Instr :=
  match opcodeTable.find? fun r => r.admits w with
  | some r => .ok (r.build w)
  | none => .error (.unknownInstruction w)

/-- Decoding the two big-endian bytes at the head of a list (R53, R70), with the bytes that follow them. -/
def decodeBytes : List Byte → Except DecodeError (Instr × List Byte)
  | hi :: lo :: rest =>
    match decodeWord (hi ++ lo) with
    | .ok i => .ok (i, rest)
    | .error e => .error e
  | short => .error (.truncated short.length)

/-- The register index as the four bits of a field. -/
def regBits (r : Reg) : Nibble := BitVec.ofFin r

/-- Format `FA`: `oooo nnnn nnnn nnnn` (R72). -/
def wordAddress (op : Nibble) (nnn : Addr) : Word := op ++ nnn

/-- Format `FXK`: `oooo xxxx kkkk kkkk` (R72); also format `FX`, whose low byte is a fixed sub-opcode. -/
def wordByte (op : Nibble) (x : Reg) (kk : Byte) : Word := op ++ regBits x ++ kk

/-- Format `FXY`: `oooo xxxx yyyy ssss` (R72); also `FXYN`, whose low nibble is an operand. -/
def wordRegister (op : Nibble) (x y : Reg) (low : Nibble) : Word := op ++ regBits x ++ regBits y ++ low

/-- The word of an instruction, from the patterns of R80. -/
def encode : Instr → Word
  | .cls => 0x00E0
  | .ret => 0x00EE
  | .low => 0x00FE
  | .high => 0x00FF
  | .jpNnn nnn => wordAddress 0x1 nnn
  | .callNnn nnn => wordAddress 0x2 nnn
  | .seVxKk x kk => wordByte 0x3 x kk
  | .sneVxKk x kk => wordByte 0x4 x kk
  | .seVxVy x y => wordRegister 0x5 x y 0x0
  | .ldVxKk x kk => wordByte 0x6 x kk
  | .addVxKk x kk => wordByte 0x7 x kk
  | .ldVxVy x y => wordRegister 0x8 x y 0x0
  | .orVxVy x y => wordRegister 0x8 x y 0x1
  | .andVxVy x y => wordRegister 0x8 x y 0x2
  | .xorVxVy x y => wordRegister 0x8 x y 0x3
  | .addVxVy x y => wordRegister 0x8 x y 0x4
  | .subVxVy x y => wordRegister 0x8 x y 0x5
  | .shrVxVy x y => wordRegister 0x8 x y 0x6
  | .subnVxVy x y => wordRegister 0x8 x y 0x7
  | .shlVxVy x y => wordRegister 0x8 x y 0xE
  | .sneVxVy x y => wordRegister 0x9 x y 0x0
  | .ldINnn nnn => wordAddress 0xA nnn
  | .jpV0Nnn nnn => wordAddress 0xB nnn
  | .rndVxKk x kk => wordByte 0xC x kk
  | .drwVxVyN x y n => wordRegister 0xD x y n
  | .skpVx x => wordByte 0xE x 0x9E
  | .sknpVx x => wordByte 0xE x 0xA1
  | .ldVxDt x => wordByte 0xF x 0x07
  | .ldVxK x => wordByte 0xF x 0x0A
  | .ldDtVx x => wordByte 0xF x 0x15
  | .ldStVx x => wordByte 0xF x 0x18
  | .addIVx x => wordByte 0xF x 0x1E
  | .ldFVx x => wordByte 0xF x 0x29
  | .ldBVx x => wordByte 0xF x 0x33
  | .ldMemVx x => wordByte 0xF x 0x55
  | .ldVxMem x => wordByte 0xF x 0x65

/-- The byte of a word at the lower address (R53). -/
def highByte (w : Word) : Byte := w.extractLsb' 8 8

/-- The byte of a word at the higher address (R53). -/
def lowByte (w : Word) : Byte := w.extractLsb' 0 8

/-- The bytes of a word as memory holds them, the lower address first (R53). -/
def wordBytes (w : Word) : List Byte := [highByte w, lowByte w]

/-- The word of `nbits` bits whose value is `w`, the bits above `nbits` being zero. -/
def tableWord (nbits w : Nat) : Word := BitVec.ofNat 16 (w % 2 ^ nbits)

/-- The instruction this decoder reads from a word numbered as spec/opcode_table.json numbers it. -/
def decodeTableWord (nbits w : Nat) : Option Instr :=
  match decodeBytes (wordBytes (tableWord nbits w)) with
  | .ok (i, _) => some i
  | .error _ => none

end Sys2Proof
end

