-- ==== Sys2Proof/Config.lean ====
section
/-! DEFINITION. What an implementation fixes (00_scope.md R9) and the one free value of the machine (R15). -/

namespace Sys2Proof

/-- `SHIFT_SRC` of R9: the register that `SHR` and `SHL` read. -/
inductive ShiftSrc where
  | x
  | y
  deriving DecidableEq, Repr

/-- The parameters the source leaves open (R9), the arguments of `State.construct`.
The running machine reads `shiftSrc` and `fontBase` only, and State holds those two. -/
structure Params where
  shiftSrc  : ShiftSrc
  fontBase  : Addr
  /-- 80 bytes, or empty: "an empty or caller-provided font table" (R280). -/
  font      : List Byte
  xfontBase : Addr
  /-- 160 bytes, or empty: absent (R9). -/
  xfont     : List Byte
  deriving DecidableEq, Repr

/-- FREE VALUE (log 1): the byte that the oracle of R15 supplies for draw number `n`.
It has no body, so whatever is proved holds for every oracle (R152). -/
opaque Config.rng : Nat → Byte

end Sys2Proof
end

