-- ==== Sys2Proof/Machine/State.lean ====
section
/-! DEFINITION. The state of the core (10_state.md), its fault kinds, its events and its reset state (70_reset_and_hazards.md R280). -/

namespace Sys2Proof.Machine

/-- `MODE` (R34). -/
inductive Mode where
  | normal
  | extended
  deriving DecidableEq, Repr

/-- The reasons of the spec's model-only fault `Unmodelled` (R245). -/
inductive UnmodelledReason where
  /-- `updatePC` met an odd target. -/
  | oddPC
  /-- `LD F,Vx` met `V[x] > 0xF`. -/
  | fontDigit
  /-- `SKP` or `SKNP` met `V[x] > 0xF`. -/
  | keyIndex
  deriving DecidableEq, Repr

/-- The fault kinds the core records, with their information (R240). -/
inductive FaultKind where
  | outOfBoundsAddress (a : Nat)
  | stackOverflow
  | stackUnderflow
  | unknownInstruction (w : Word)
  | unmodelled (reason : UnmodelledReason)
  deriving DecidableEq, Repr

/-- How a run can stop. No instruction's meaning answers one of these: a meaning that raises takes the fault entry of
R246, a next state (log 3). -/
inductive Fault where
  /-- Raised by the CPU step of a core whose fault state is `k`: no CPU step is enabled there (R36, R247).
  Safe: the run ends where the core takes no step. -/
  | stopped (k : FaultKind)
  /-- Raised by the teardown event: no state survives and no event is enabled (R267). Safe: nothing can follow. -/
  | tornDown
  deriving DecidableEq, Repr

/-- The refusals. -/
inductive Refusal where
  /-- Raised by an arm of exec whose instruction has no meaning yet; there is none. Safe. -/
  | notModelled (mnemonic : String)
  deriving DecidableEq, Repr

/-- The atomic events of R252 that change state. Host reads change none (R262) and are functions of the state
(Machine/Interface.lean). -/
inductive Event where
  | cpu
  | tickDT
  | tickST
  | setKey (k : Key)
  | clearKey (k : Key)
  | loadProgram (bytes : List Byte)
  | teardown
  deriving DecidableEq, Repr

/-- The pixel grid: 64 rows of 128 bits, bit `x` of row `y` being `P[x][y]` (R33, R35). -/
abbrev Display := Vector (BitVec 128) 64

/-- The state of the core: everything 10_state.md names, the two parameters of R9 that the running machine reads, and
two fields of the model's own (`draws`, `schedule`). -/
structure State where
  /-- `V[0]`..`V[15]` (R20). -/
  v        : Vector Byte 16
  /-- `I` (R26). -/
  i        : Addr
  /-- `PC` (R24). -/
  pc       : Addr
  /-- `SP` (R27). -/
  sp       : Fin 17
  /-- `S[0]`..`S[15]`, each 0..0x1000 (R27). -/
  stack    : Vector (BitVec 13) 16
  /-- `DT` (R29). -/
  dt       : Byte
  /-- `ST` (R29). -/
  st       : Byte
  /-- `K[0]`..`K[15]`, true meaning pressed (R32). -/
  keys     : Vector Bool 16
  /-- `P` (R33). -/
  display  : Display
  /-- `MODE` (R34). -/
  mode     : Mode
  /-- `M` (R50), as the cells that differ from the reset contents. -/
  mem      : List Host.Cell
  /-- The fault state (R36). -/
  fault    : Option FaultKind
  /-- `SHIFT_SRC` (R9); no step changes it. -/
  shiftSrc : ShiftSrc
  /-- `FONT_BASE` (R9); no step changes it. -/
  fontBase : Addr
  /-- The model's own: how many bytes the oracle of R15 has supplied (log 1). -/
  draws    : Nat
  /-- The model's own: the events that come next, the CPU's when there is none (R253; log 2). -/
  schedule : List Event
  deriving DecidableEq, Repr

/-- The construction state (R280) with the default parameters (R9): memory lists nothing. -/
def State.reset : State :=
  { v := Vector.replicate 16 0
    i := 0
    pc := 0x200
    sp := 0
    stack := Vector.replicate 16 0
    dt := 0
    st := 0
    keys := Vector.replicate 16 false
    display := Vector.replicate 64 0
    mode := .normal
    mem := []
    fault := none
    shiftSrc := .x
    fontBase := 0x000
    draws := 0
    schedule := [] }

end Sys2Proof.Machine
end

