-- ==== Sys2Proof/Machine/Flags.lean ====
section
/-! DEFINITION. The values instructions write to VF (10_state.md R21), and the results they go with (41_register_ops.md R153). -/

namespace Sys2Proof.Machine

/-- A flag as a byte: 1 or 0 (R147 to R151, R221). -/
def flagByte (b : Bool) : Byte := if b then 1 else 0

/-- The carry of `ADD Vx,Vy`: the true sum exceeds 255 (R147). -/
def carryOut (a b : Byte) : Byte := flagByte (decide (255 < a.toNat + b.toNat))

/-- The no-borrow flag of `a - b`: 1 iff `a ≥ b` (R148, R150). -/
def noBorrow (a b : Byte) : Byte := flagByte (decide (b.toNat ≤ a.toNat))

/-- The low bit a right shift drops (R149). -/
def droppedLow (a : Byte) : Byte := flagByte (a.toNat.testBit 0)

/-- The high bit a left shift drops, taken before the shift (R151). -/
def droppedHigh (a : Byte) : Byte := flagByte (a.toNat.testBit 7)

/-- The sum modulo 256 (R142, R147). -/
def sumByte (a b : Byte) : Byte := BitVec.ofNat 8 ((a.toNat + b.toNat) % 256)

/-- The difference modulo 256 (R148, R150). -/
def diffByte (a b : Byte) : Byte := BitVec.ofNat 8 ((a.toNat + 256 - b.toNat) % 256)

/-- The logical right shift by one (R149). -/
def shiftRight1 (a : Byte) : Byte := BitVec.ofNat 8 (a.toNat >>> 1)

/-- The left shift by one modulo 256 (R151). -/
def shiftLeft1 (a : Byte) : Byte := BitVec.ofNat 8 ((a.toNat <<< 1) % 256)

end Sys2Proof.Machine
end

