-- ==== Sys2Proof/Machine/Font.lean ====
section
/-! DEFINITION. The default font table (70_reset_and_hazards.md R284) and the default parameters (00_scope.md R9). -/

namespace Sys2Proof.Machine

/-- The glyphs of the digits 0 to 7, five bytes each (R284). -/
def glyphsLow : List Byte :=
  [0xF0, 0x90, 0x90, 0x90, 0xF0] ++ [0x20, 0x60, 0x20, 0x20, 0x70] ++
  [0xF0, 0x10, 0xF0, 0x80, 0xF0] ++ [0xF0, 0x10, 0xF0, 0x10, 0xF0] ++
  [0x90, 0x90, 0xF0, 0x10, 0x10] ++ [0xF0, 0x80, 0xF0, 0x10, 0xF0] ++
  [0xF0, 0x80, 0xF0, 0x90, 0xF0] ++ [0xF0, 0x10, 0x20, 0x40, 0x40]

/-- The glyphs of the digits 8 to F, five bytes each (R284). -/
def glyphsHigh : List Byte :=
  [0xF0, 0x90, 0xF0, 0x90, 0xF0] ++ [0xF0, 0x90, 0xF0, 0x10, 0xF0] ++
  [0xF0, 0x90, 0xF0, 0x90, 0x90] ++ [0xE0, 0x90, 0xE0, 0x90, 0xE0] ++
  [0xF0, 0x80, 0x80, 0x80, 0xF0] ++ [0xE0, 0x90, 0x90, 0x90, 0xE0] ++
  [0xF0, 0x80, 0xF0, 0x80, 0xF0] ++ [0xF0, 0x80, 0xF0, 0x80, 0x80]

/-- `FONT` of R9 at its default, the table of R284. -/
def defaultFont : List Byte := glyphsLow ++ glyphsHigh

/-- The defaults of R9 (log 5). -/
def defaultParams : Params :=
  { shiftSrc := .x, fontBase := 0x000, font := defaultFont, xfontBase := 0x050, xfont := [] }

end Sys2Proof.Machine
end

