-- ==== Sys2Proof/Machine/Memory.lean ====
section
/-! DEFINITION. Memory as a list of cells in one canonical form (20_memory.md R50). -/

namespace Sys2Proof.Machine

/-- The cells that differ from the reset contents, addresses strictly rising (`Memory.wf`). -/
abbrev Memory := List Host.Cell

/-- `MEM_SIZE` (R8): the addresses 0x000..0xFFF exist. -/
def Memory.size : Nat := 0x1000

/-- What an unlisted address reads as: the reset contents with the default parameters, the font at 0x000 and zero
elsewhere (R280, R281, R284; log 6). -/
def Memory.unlisted (a : Nat) : Byte := defaultFont.getD a 0

/-- The byte at an address. -/
def Memory.read : Memory → Nat → Byte
  | [], a => Memory.unlisted a
  | (k, b) :: m, a => if k = a then b else Memory.read m a

/-- Put a cell in front, unless it says what an unlisted address says anyway. -/
def Memory.consCell (a : Nat) (b : Byte) (m : Memory) : Memory :=
  if b = Memory.unlisted a then m else (a, b) :: m

/-- Store a byte, keeping the canonical form. -/
def Memory.write : Memory → Nat → Byte → Memory
  | [], a, b => Memory.consCell a b []
  | (k, c) :: m, a, b =>
    if k < a then (k, c) :: Memory.write m a b
    else if k = a then Memory.consCell a b m
    else Memory.consCell a b ((k, c) :: m)

/-- The canonical form from an address on: addresses rise strictly, exist, and no cell repeats the reset contents. -/
def Memory.wfFrom : Nat → Memory → Bool
  | _, [] => true
  | lo, (k, b) :: m => decide (lo ≤ k) && decide (k < Memory.size) && decide (b ≠ Memory.unlisted k) && Memory.wfFrom (k + 1) m

/-- The canonical form. -/
def Memory.wf (m : Memory) : Bool := Memory.wfFrom 0 m

/-- Store bytes at ascending addresses, dropping those that fall outside memory; used by the loader, which stays
inside (R282). -/
def Memory.writeBytes : Memory → Nat → List Byte → Memory
  | m, _, [] => m
  | m, a, b :: bs => Memory.writeBytes (if a < Memory.size then Memory.write m a b else m) (a + 1) bs

end Sys2Proof.Machine
end

