-- ==== Sys2Proof/Machine/Ops.lean ====
section
/-! DEFINITION. The shared operations: register access, memory primitives (00_scope.md R13), the call stack (10_state.md R28),
taking a fault (60_exceptions.md R246), the PC update (40_cycle_and_control.md R104) and the fetch (20_memory.md R53). -/

namespace Sys2Proof.Machine

/-- What one step answers. -/
abbrev Result := Host.Outcome State Fault Refusal

/-- The outcome of a part of a step that may raise; either way the writes made so far stand in the state (R14). -/
inductive Res (α : Type) where
  | done (a : α) (s : State)
  | raised (k : FaultKind) (s : State)

/-! ### Single registers -/

/-- `V[x]` (R12). -/
def State.reg (s : State) (x : Reg) : Byte := s.v[x.val]

/-- `V[x] <- b` (R12). -/
def State.setReg (s : State) (x : Reg) (b : Byte) : State := { s with v := s.v.set x.val b }

/-- `I <- a`, for a value known to fit. -/
def State.setI (s : State) (a : Addr) : State := { s with i := a }

/-- `PC <- a`; only `updatePC` and the loader use it (R24). -/
def State.setPC (s : State) (a : Addr) : State := { s with pc := a }

/-- The call stack and its pointer. -/
def State.setStack (s : State) (stack : Vector (BitVec 13) 16) (sp : Fin 17) : State :=
  { s with stack := stack, sp := sp }

/-- `DT <- b` (R29). -/
def State.setDT (s : State) (b : Byte) : State := { s with dt := b }

/-- `ST <- b` (R29). -/
def State.setST (s : State) (b : Byte) : State := { s with st := b }

/-- `K[k]` (R32). -/
def State.key (s : State) (k : Key) : Bool := s.keys[k.val]

/-- `K[k] <- b`, by the host only (R260). -/
def State.putKey (s : State) (k : Key) (b : Bool) : State := { s with keys := s.keys.set k.val b }

/-- The pixel grid (R33). -/
def State.setDisplay (s : State) (d : Display) : State := { s with display := d }

/-- `MODE <- m` (R34). -/
def State.setMode (s : State) (m : Mode) : State := { s with mode := m }

/-- The memory. -/
def State.setMem (s : State) (m : Memory) : State := { s with mem := m }

/-- The fault state (R36). -/
def State.setFault (s : State) (f : Option FaultKind) : State := { s with fault := f }

/-- One byte of the oracle is used up (log 1). -/
def State.countDraw (s : State) : State := { s with draws := s.draws + 1 }

/-- The events still to come (log 2). -/
def State.setSchedule (s : State) (es : List Event) : State := { s with schedule := es }

/-! ### Taking a fault, and what returns from one -/

/-- `raise` (R14, R246): the writes made so far stand, `PC` keeps the instruction's address, the fault state becomes the
fault with its information, and nothing else changes. The core goes on from there as R247 says. -/
def raise (k : FaultKind) (s : State) : Result := .next (s.setFault (some k))

/-- There is no return-from-fault instruction: the fault state is cleared by `loadProgram` alone (R247, R282). -/
def State.clearFault (s : State) : State := s.setFault none

/-! ### The PC update -/

/-- `updatePC(t)` (R104): the bound is tested before oddness (R248). -/
def updatePC (t : Nat) (s : State) : Result :=
  if 0x1000 ≤ t then raise (.outOfBoundsAddress t) s
  else if t % 2 = 1 then raise (.unmodelled .oddPC) s
  else .next (s.setPC (BitVec.ofNat 12 t))

/-- The default `next <- PC + 2` (R103). -/
def advance (s : State) : Result := updatePC (s.pc.toNat + 2) s

/-- End a step after a part that may have raised, falling through to the next instruction. -/
def Res.thenAdvance : Res Unit → Result
  | .done _ s => advance s
  | .raised k s => raise k s

/-! ### The address register -/

/-- A write of `I`: a value beyond 0xFFF raises and `I` keeps its old value (R26). -/
def writeI (t : Nat) (s : State) : Res Unit :=
  if 0x1000 ≤ t then .raised (.outOfBoundsAddress t) s else .done () (s.setI (BitVec.ofNat 12 t))

/-! ### Memory -/

/-- `MemRead(a, 1)` (R13, R51). -/
def memRead (a : Nat) (s : State) : Except FaultKind Byte :=
  if a < Memory.size then .ok (Memory.read s.mem a) else .error (.outOfBoundsAddress a)

/-- `MemWrite(a, 1, b)` (R13, R51). -/
def memWrite (a : Nat) (b : Byte) (s : State) : Res Unit :=
  if a < Memory.size then .done () (s.setMem (Memory.write s.mem a b)) else .raised (.outOfBoundsAddress a) s

/-- Stores at ascending addresses, one byte at a time (R170). -/
def storeBytes : Nat → List Byte → State → Res Unit
  | _, [], s => .done () s
  | a, b :: bs, s =>
    match memWrite a b s with
    | .done _ s' => storeBytes (a + 1) bs s'
    | .raised k s' => .raised k s'

/-- Loads from ascending addresses into the listed registers, one byte at a time (R170, R176). -/
def loadRegs : Nat → List Reg → State → Res Unit
  | _, [], s => .done () s
  | a, r :: rs, s =>
    match memRead a s with
    | .ok b => loadRegs (a + 1) rs (s.setReg r b)
    | .error k => .raised k s

/-- `fetch()` (R53): the bytes at `PC` and `PC + 1`, big-endian. -/
def fetch (s : State) : Except FaultKind Word :=
  match memRead s.pc.toNat s, memRead (s.pc.toNat + 1) s with
  | .ok hi, .ok lo => .ok (hi ++ lo)
  | .error k, _ => .error k
  | .ok _, .error k => .error k

/-- Put a byte where it exists. -/
def placeByte (a : Nat) (b : Byte) (s : State) : State :=
  if a < Memory.size then s.setMem (Memory.write s.mem a b) else s

/-- Put an instruction word where the next fetch reads it, and let the CPU be the next to step: what stands for a load
from outside when one instruction is to be run (log 9). -/
def placeWord (hi lo : Byte) (s : State) : State :=
  ((placeByte (s.pc.toNat + 1) lo (placeByte s.pc.toNat hi s)).clearFault).setSchedule []

/-! ### The call stack -/

/-- `push(v)` (R28). -/
def push (v : BitVec 13) (s : State) : Res Unit :=
  if h : s.sp.val < 16 then
    .done () (s.setStack (s.stack.set s.sp.val v) ⟨s.sp.val + 1, by omega⟩)
  else .raised .stackOverflow s

/-- `pop()` (R28). -/
def pop (s : State) : Res (BitVec 13) :=
  if h : 0 < s.sp.val then
    .done (s.stack[s.sp.val - 1]) (s.setStack s.stack ⟨s.sp.val - 1, by omega⟩)
  else .raised .stackUnderflow s

end Sys2Proof.Machine
end

