-- ==== Sys2Proof/Machine/Operands.lean ====
section
/-! DEFINITION. The operand forms: register lists, the shift operand, skips, key operands, and results with a flag. -/

namespace Sys2Proof.Machine

/-- The registers `V0..Vx` in order, inclusive of `Vx` (R175, R176). -/
def regsUpTo (x : Reg) : List Reg := (List.finRange 16).take (x.val + 1)

/-- The operand of `SHR` and `SHL`: `V[x]`, or `V[y]` when `SHIFT_SRC = Y` (R149, R151). -/
def shiftOperand (x y : Reg) (s : State) : Byte :=
  match s.shiftSrc with
  | .x => s.reg x
  | .y => s.reg y

/-- Write a result to `V[x]` and then a flag to VF, so that VF ends holding the flag (R154), and fall through. -/
def resultThenFlag (x : Reg) (result flag : Byte) (s : State) : Result :=
  advance ((s.setReg x result).setReg VF flag)

/-- Write a result to `V[x]` and fall through (R140). -/
def resultOnly (x : Reg) (result : Byte) (s : State) : Result := advance (s.setReg x result)

/-- A skip: `next <- PC + 4` when taken, `PC + 2` when not (R113 to R116, R119). -/
def skipIf (taken : Bool) (s : State) : Result := updatePC (s.pc.toNat + if taken then 4 else 2) s

/-- The key a register names: `V[x] > 0xF` raises `Unmodelled(KeyIndex)` (R201, R202). -/
def keyOperand (x : Reg) (s : State) : Except FaultKind Key :=
  if h : (s.reg x).toNat < 16 then .ok ⟨(s.reg x).toNat, h⟩ else .error (.unmodelled .keyIndex)

/-- `lowestPressed()` (R32, R261). -/
def lowestPressed (s : State) : Option Key := (List.finRange 16).find? fun k => s.key k

end Sys2Proof.Machine
end

