-- ==== Sys2Proof/Machine/Alu.lean ====
section
/-! DEFINITION. Register and ALU instructions (41_register_ops.md R141 to R152). -/

namespace Sys2Proof.Machine

/-- `LD Vx,kk` (R141). -/
def execLdVxKk (x : Reg) (kk : Byte) (s : State) : Result := resultOnly x kk s

/-- `ADD Vx,kk` (R142): no flag. -/
def execAddVxKk (x : Reg) (kk : Byte) (s : State) : Result := resultOnly x (sumByte (s.reg x) kk) s

/-- `LD Vx,Vy` (R143). -/
def execLdVxVy (x y : Reg) (s : State) : Result := resultOnly x (s.reg y) s

/-- `OR Vx,Vy` (R144). -/
def execOrVxVy (x y : Reg) (s : State) : Result := resultOnly x (s.reg x ||| s.reg y) s

/-- `AND Vx,Vy` (R145). -/
def execAndVxVy (x y : Reg) (s : State) : Result := resultOnly x (s.reg x &&& s.reg y) s

/-- `XOR Vx,Vy` (R146). -/
def execXorVxVy (x y : Reg) (s : State) : Result := resultOnly x (s.reg x ^^^ s.reg y) s

/-- `ADD Vx,Vy` (R147). -/
def execAddVxVy (x y : Reg) (s : State) : Result :=
  resultThenFlag x (sumByte (s.reg x) (s.reg y)) (carryOut (s.reg x) (s.reg y)) s

/-- `SUB Vx,Vy` (R148). -/
def execSubVxVy (x y : Reg) (s : State) : Result :=
  resultThenFlag x (diffByte (s.reg x) (s.reg y)) (noBorrow (s.reg x) (s.reg y)) s

/-- `SHR Vx{,Vy}` (R149). -/
def execShrVxVy (x y : Reg) (s : State) : Result :=
  resultThenFlag x (shiftRight1 (shiftOperand x y s)) (droppedLow (shiftOperand x y s)) s

/-- `SUBN Vx,Vy` (R150). -/
def execSubnVxVy (x y : Reg) (s : State) : Result :=
  resultThenFlag x (diffByte (s.reg y) (s.reg x)) (noBorrow (s.reg y) (s.reg x)) s

/-- `SHL Vx{,Vy}` (R151). -/
def execShlVxVy (x y : Reg) (s : State) : Result :=
  resultThenFlag x (shiftLeft1 (shiftOperand x y s)) (droppedHigh (shiftOperand x y s)) s

/-- `RND Vx,kk` (R152): the draw is the free value of log 1. -/
def execRndVxKk (x : Reg) (kk : Byte) (s : State) : Result :=
  resultOnly x (Config.rng s.draws &&& kk) s.countDraw

end Sys2Proof.Machine
end

