-- ==== Sys2Proof/Machine/Control.lean ====
section
/-! DEFINITION. Control transfer (40_cycle_and_control.md R110 to R117). -/

namespace Sys2Proof.Machine

/-- `RET` (R110): the pop stands if the PC update raises. -/
def execRet (s : State) : Result :=
  match pop s with
  | .done t s' => updatePC t.toNat s'
  | .raised k s' => raise k s'

/-- `JP nnn` (R111). -/
def execJpNnn (nnn : Addr) (s : State) : Result := updatePC nnn.toNat s

/-- `CALL nnn` (R112): pushes the address after itself; the push stands if the PC update raises. -/
def execCallNnn (nnn : Addr) (s : State) : Result :=
  match push (BitVec.ofNat 13 (s.pc.toNat + 2)) s with
  | .done _ s' => updatePC nnn.toNat s'
  | .raised k s' => raise k s'

/-- `SE Vx,kk` (R113). -/
def execSeVxKk (x : Reg) (kk : Byte) (s : State) : Result := skipIf (decide (s.reg x = kk)) s

/-- `SNE Vx,kk` (R114). -/
def execSneVxKk (x : Reg) (kk : Byte) (s : State) : Result := skipIf (decide (s.reg x ≠ kk)) s

/-- `SE Vx,Vy` (R115). -/
def execSeVxVy (x y : Reg) (s : State) : Result := skipIf (decide (s.reg x = s.reg y)) s

/-- `SNE Vx,Vy` (R116). -/
def execSneVxVy (x y : Reg) (s : State) : Result := skipIf (decide (s.reg x ≠ s.reg y)) s

/-- `JP V0,nnn` (R117): the sum is not reduced. -/
def execJpV0Nnn (nnn : Addr) (s : State) : Result := updatePC (nnn.toNat + (s.reg 0).toNat) s

end Sys2Proof.Machine
end

