-- ==== Sys2Proof/Machine/Index.lean ====
section
/-! DEFINITION. The address register and memory instructions (42_memory_index.md R171 to R176). -/

namespace Sys2Proof.Machine

/-- `LD I,nnn` (R171). -/
def execLdINnn (nnn : Addr) (s : State) : Result := (writeI nnn.toNat s).thenAdvance

/-- `ADD I,Vx` (R172): no flag; a sum beyond 0xFFF raises and `I` keeps its value. -/
def execAddIVx (x : Reg) (s : State) : Result := (writeI (s.i.toNat + (s.reg x).toNat) s).thenAdvance

/-- `LD F,Vx` (R173). -/
def execLdFVx (x : Reg) (s : State) : Result :=
  if 0xF < (s.reg x).toNat then raise (.unmodelled .fontDigit) s
  else (writeI (s.fontBase.toNat + 5 * (s.reg x).toNat) s).thenAdvance

/-- The decimal digits of a byte, the hundreds first (R174). -/
def bcdDigits (b : Byte) : List Byte :=
  [BitVec.ofNat 8 (b.toNat / 100), BitVec.ofNat 8 (b.toNat / 10 % 10), BitVec.ofNat 8 (b.toNat % 10)]

/-- `LD B,Vx` (R174). -/
def execLdBVx (x : Reg) (s : State) : Result := (storeBytes s.i.toNat (bcdDigits (s.reg x)) s).thenAdvance

/-- `LD [I],Vx` (R175): the registers are read before any write; `I` is unchanged. -/
def execLdMemVx (x : Reg) (s : State) : Result :=
  (storeBytes s.i.toNat ((regsUpTo x).map s.reg) s).thenAdvance

/-- `LD Vx,[I]` (R176): `I` is unchanged. -/
def execLdVxMem (x : Reg) (s : State) : Result := (loadRegs s.i.toNat (regsUpTo x) s).thenAdvance

end Sys2Proof.Machine
end

