-- ==== Sys2Proof/Machine/Keypad.lean ====
section
/-! DEFINITION. The keypad instructions (44_input.md R201 to R203). -/

namespace Sys2Proof.Machine

/-- `SKP Vx` (R201). -/
def execSkpVx (x : Reg) (s : State) : Result :=
  match keyOperand x s with
  | .ok k => skipIf (s.key k) s
  | .error e => raise e s

/-- `SKNP Vx` (R202). -/
def execSknpVx (x : Reg) (s : State) : Result :=
  match keyOperand x s with
  | .ok k => skipIf (!s.key k) s
  | .error e => raise e s

/-- `LD Vx,K` (R203): with no key pressed `next <- PC`, and the same instruction runs again (R205). -/
def execLdVxK (x : Reg) (s : State) : Result :=
  match lowestPressed s with
  | some k => resultOnly x (BitVec.ofNat 8 k.val) s
  | none => updatePC s.pc.toNat s

end Sys2Proof.Machine
end

