-- ==== Sys2Proof/Machine/Vram.lean ====
section
/-! DEFINITION. The display-memory engine (45_display.md R210 to R214, R219, R223). -/

namespace Sys2Proof.Machine

/-- The active width `W` (R34). -/
def Mode.width : Mode → Nat
  | .normal => 64
  | .extended => 128

/-- The active height `H` (R34). -/
def Mode.height : Mode → Nat
  | .normal => 32
  | .extended => 64

/-- `P[x][y]`, false outside the grid (R33). -/
def Display.pixel (d : Display) (x y : Nat) : Bool := if h : y < 64 then d[y].getLsbD x else false

/-- `P[x][y] <- P[x][y] ^ 1` (R212). -/
def Display.flip (d : Display) (x y : Nat) : Display :=
  if h : y < 64 then d.set y (d[y] ^^^ BitVec.twoPow 128 x) else d

/-- `clear()`: every pixel of the whole grid, in either mode (R211). -/
def Display.blank : Display := Vector.replicate 64 0

/-- The pixels of a row of `w` bits from left to right, the most significant bit first (R212, R223). -/
def rowPixels (w bits : Nat) : List Bool := (List.range w).map fun c => bits.testBit (w - 1 - c)

/-- The loop of `drawRow` from column `x` on in the row `yy`, with the collisions met so far (R212). -/
def drawPixels (width yy : Nat) : Nat → List Bool → Display → Bool → Display × Bool
  | _, [], d, hit => (d, hit)
  | x, b :: bs, d, hit =>
    if b then drawPixels width yy (x + 1) bs (d.flip (x % width) yy) (hit || d.pixel (x % width) yy)
    else drawPixels width yy (x + 1) bs d hit

/-- `drawRow(x0, y0, bits, wide)` (R212): the grid after it, and whether a pixel went from 1 to 0 (R214). -/
def drawRow (m : Mode) (x0 y0 : Nat) (row : List Bool) (d : Display) : Display × Bool :=
  drawPixels m.width (y0 % m.height) x0 row d false

/-- Row `r` of a sprite at `base`: one byte, or for a 16-pixel row the two bytes at `base + 2r`, left byte first, both
read before the row is drawn (R218, R219, R222). -/
def spriteRow (wide : Bool) (base r : Nat) (s : State) : Except FaultKind (List Bool) :=
  if wide then
    match memRead (base + 2 * r) s, memRead (base + 2 * r + 1) s with
    | .ok hi, .ok lo => .ok (rowPixels 16 (hi.toNat * 256 + lo.toNat))
    | .error k, _ => .error k
    | .ok _, .error k => .error k
  else
    match memRead (base + r) s with
    | .ok b => .ok (rowPixels 8 b.toNat)
    | .error k => .error k

/-- Rows `r, r + 1, ...`, `count` of them, each read and then drawn (R218, R222), with the collisions met so far. -/
def drawRows (wide : Bool) (base x0 y0 : Nat) : (count r : Nat) → Bool → State → Res Bool
  | 0, _, hit, s => .done hit s
  | count + 1, r, hit, s =>
    match spriteRow wide base r s with
    | .error k => .raised k s
    | .ok row =>
      drawRows wide base x0 y0 count (r + 1) (hit || (drawRow s.mode x0 (y0 + r) row s.display).2)
        (s.setDisplay (drawRow s.mode x0 (y0 + r) row s.display).1)

/-- `wide` of R218: 16-pixel rows, in extended mode with `n = 0` (R219, R220). -/
def isWide (m : Mode) (n : Nibble) : Bool := decide (m = .extended) && decide (n = 0)

/-- `rows` of R218. -/
def spriteRows (m : Mode) (n : Nibble) : Nat := if isWide m n then 16 else n.toNat

end Sys2Proof.Machine
end

