-- ==== Sys2Proof/Machine/Screen.lean ====
section
/-! DEFINITION. The display instructions (45_display.md R217, R218, R225, R226). -/

namespace Sys2Proof.Machine

/-- `CLS` (R217): the whole grid, in either mode. -/
def execCls (s : State) : Result := advance (s.setDisplay Display.blank)

/-- `DRW Vx,Vy,n` (R218 to R222): the coordinates are read before the VF write; a fault leaves VF unwritten. -/
def execDrwVxVyN (x y : Reg) (n : Nibble) (s : State) : Result :=
  match drawRows (isWide s.mode n) s.i.toNat (s.reg x).toNat (s.reg y).toNat (spriteRows s.mode n) 0 false s with
  | .done hit s' => resultOnly VF (flagByte hit) s'
  | .raised k s' => raise k s'

/-- `LOW` (R225): the grid is not cleared. -/
def execLow (s : State) : Result := advance (s.setMode .normal)

/-- `HIGH` (R226): the grid is not cleared. -/
def execHigh (s : State) : Result := advance (s.setMode .extended)

end Sys2Proof.Machine
end

