-- ==== Sys2Proof/Machine/Timers.lean ====
section
/-! DEFINITION. The timer instructions (43_timers.md R191 to R193). -/

namespace Sys2Proof.Machine

/-- `LD DT,Vx` (R191). -/
def execLdDtVx (x : Reg) (s : State) : Result := advance (s.setDT (s.reg x))

/-- `LD ST,Vx` (R192). -/
def execLdStVx (x : Reg) (s : State) : Result := advance (s.setST (s.reg x))

/-- `LD Vx,DT` (R193). -/
def execLdVxDt (x : Reg) (s : State) : Result := resultOnly x s.dt s

end Sys2Proof.Machine
end

