-- ==== Sys2Proof/Machine/Load.lean ====
section
/-! DEFINITION. Construction with any parameters and the program load (70_reset_and_hazards.md R280 to R283). -/

namespace Sys2Proof.Machine

/-- `PROG_BASE` (R8). -/
def progBase : Nat := 0x200

/-- `MAX_IMAGE` (R8). -/
def maxImage : Nat := 0xE00

/-- The memory after construction: zero everywhere, then the font tables (R280, R281). -/
def constructMemory (p : Params) : Memory :=
  Memory.writeBytes
    (Memory.writeBytes (Memory.writeBytes [] 0 (List.replicate 80 0)) p.fontBase.toNat p.font)
    p.xfontBase.toNat p.xfont

/-- `construct(font, xfont)` (R262, R280, R281), with the parameters of R9 as arguments. -/
def State.construct (p : Params) : State :=
  { State.reset with mem := constructMemory p, shiftSrc := p.shiftSrc, fontBase := p.fontBase }

/-- `loadProgram(bytes)` (R282): a longer image is truncated silently (R283). The stack slots, the pixels, `MODE`, the
keypad and the memory outside the image keep what they hold. -/
def State.loadProgram (bytes : List Byte) (s : State) : State :=
  { s with
    mem := Memory.writeBytes s.mem progBase (bytes.take maxImage)
    pc := BitVec.ofNat 12 progBase
    sp := 0
    v := Vector.replicate 16 0
    i := 0
    dt := 0
    st := 0 }.clearFault

end Sys2Proof.Machine
end

