-- ==== Sys2Proof/Machine/Cycle.lean ====
section
/-! DEFINITION. The CPU step (40_cycle_and_control.md R100) and the other events (60_exceptions.md R252). -/

namespace Sys2Proof.Machine

/-- The event `tickDT`: enabled when `DT ≠ 0` (R255); a tick of a stopped cadence changes nothing (log 8). -/
def State.tickDT (s : State) : State := if s.dt = 0 then s else s.setDT (s.dt - 1)

/-- The event `tickST`: enabled when `ST ≠ 0` (R256); a tick of a stopped cadence changes nothing (log 8). -/
def State.tickST (s : State) : State := if s.st = 0 then s else s.setST (s.st - 1)

/-- Decode and execute a fetched word; a word that is no instruction raises at decode, with nothing written (R107). -/
def runWord (w : Word) (s : State) : Result :=
  match decodeWord w with
  | .ok i => exec i s
  | .error _ => raise (.unknownInstruction w) s

/-- One CPU step (R100): enabled when no fault is recorded (R36, R247); a faulted core stops the run (log 3). -/
def cpuStep (s : State) : Result :=
  match s.fault with
  | some k => .fault (.stopped k)
  | none =>
    match fetch s with
    | .ok w => runWord w s
    | .error k => raise k s

/-- One event of R252, applied atomically (R253); after teardown no state survives (R267). -/
def fire (e : Event) (s : State) : Result :=
  match e with
  | .cpu => cpuStep s
  | .tickDT => .next s.tickDT
  | .tickST => .next s.tickST
  | .setKey k => .next (s.putKey k true)
  | .clearKey k => .next (s.putKey k false)
  | .loadProgram bytes => .next (s.loadProgram bytes)
  | .teardown => .fault .tornDown

end Sys2Proof.Machine
end

