-- ==== Sys2Proof/Machine/Step.lean ====
section
/-! DEFINITION. One step of the machine: the next event of the schedule, or the CPU's when there is none (60_exceptions.md R253; log 2). -/

namespace Sys2Proof.Machine

/-- One event of a run (R253). -/
def step (s : State) : Host.Outcome State Fault Refusal :=
  match s.schedule with
  | [] => cpuStep s
  | e :: es => fire e (s.setSchedule es)

/-- `s` with the word stored where the next step fetches it, no fault recorded and the CPU next to step (log 9). -/
def State.withFetchWord (s : State) (nbits w : Nat) : State :=
  placeWord (highByte (tableWord nbits w)) (lowByte (tableWord nbits w)) s

end Sys2Proof.Machine
end

