-- ==== Sys2Proof/Machine/Interface.lean ====
section
/-! DEFINITION. What the host reads; no read changes state (60_exceptions.md R252, R262). -/

namespace Sys2Proof.Machine

/-- `tone = (ST ≠ 0)` (R31, R259). -/
def State.tone (s : State) : Bool := decide (s.st ≠ 0)

/-- The resolution `(W, H)` of the active mode (R34, R262). -/
def State.resolution (s : State) : Nat × Nat := (s.mode.width, s.mode.height)

/-- `getPixel(x, y)` (R216); none outside the active region, where the query is not part of the interface. -/
def State.getPixel (s : State) (x y : Nat) : Option Bool :=
  if x < s.mode.width ∧ y < s.mode.height then some (s.display.pixel x y) else none

/-- The set-pixel iteration (R216): every set pixel of the active region. -/
def State.setPixels (s : State) : List (Nat × Nat) :=
  (List.range s.mode.height).flatMap fun y =>
    ((List.range s.mode.width).filter fun x => s.display.pixel x y).map fun x => (x, y)

/-- The fault the host reads (R246, R262). -/
def State.surfacedFault (s : State) : Option FaultKind := s.fault

end Sys2Proof.Machine
end

