-- ==== Sys2Proof/Machine/Runs.lean ====
section
/-! DEFINITION. Which events are enabled (60_exceptions.md R252), the runs of the core (R253) and weak fairness (R257). -/

namespace Sys2Proof.Machine

/-- When an event of R252 is enabled. -/
def Event.enabled (e : Event) (s : State) : Bool :=
  match e with
  | .cpu => s.fault.isNone
  | .tickDT => decide (s.dt ≠ 0)
  | .tickST => decide (s.st ≠ 0)
  | .setKey _ => true
  | .clearKey _ => true
  | .loadProgram _ => true
  | .teardown => true

/-- A run that goes on for ever (R253): each event is enabled where it happens, and any enabled event may come next, so
`events` is any such sequence. A torn-down core leaves no state, so no infinite run contains the teardown. -/
def IsRun (states : Nat → State) (events : Nat → Event) : Prop :=
  ∀ n, (events n).enabled (states n) = true ∧ fire (events n) (states n) = .next (states (n + 1))

/-- An event that stays enabled from some point on happens after it. -/
def FairTo (e : Event) (states : Nat → State) (events : Nat → Event) : Prop :=
  ∀ n, (∀ m, n ≤ m → e.enabled (states m) = true) → ∃ m, n ≤ m ∧ events m = e

/-- Weak fairness (R257), of the three agents that have one event each: the CPU and the two cadences. Of the host it asks
nothing, since the host may always take a read, which changes no state (log 13). -/
def WeaklyFair (states : Nat → State) (events : Nat → Event) : Prop :=
  FairTo .cpu states events ∧ FairTo .tickDT states events ∧ FairTo .tickST states events

end Sys2Proof.Machine
end

