-- ==== Sys2Proof/WellFormed.lean ====
section
/-! DEFINITION. Well-formedness: the widths of operand fields (30_encoding.md R71, R73) and the domains of the parameters (00_scope.md R9). -/

namespace Sys2Proof

/-- The operand fields of R71. -/
inductive Field where
  | x
  | y
  | n
  | kk
  | nnn
  deriving DecidableEq, Repr

/-- The width of a field in bits, the third column of R71. -/
def Field.width : Field → Nat
  | .x => 4
  | .y => 4
  | .n => 4
  | .kk => 8
  | .nnn => 12

/-- A number may stand in a field when the field's bits can hold it (R73: every operand is unsigned and used as is). -/
def Field.fits (f : Field) (v : Nat) : Bool := decide (v < 2 ^ f.width)

/-- The operand fields an instruction has, with their values, from the table of R80. -/
def Instr.fields : Instr → List (Field × Nat)
  | .cls => []
  | .ret => []
  | .low => []
  | .high => []
  | .jpNnn nnn => [(.nnn, nnn.toNat)]
  | .callNnn nnn => [(.nnn, nnn.toNat)]
  | .seVxKk x kk => [(.x, x.val), (.kk, kk.toNat)]
  | .sneVxKk x kk => [(.x, x.val), (.kk, kk.toNat)]
  | .seVxVy x y => [(.x, x.val), (.y, y.val)]
  | .ldVxKk x kk => [(.x, x.val), (.kk, kk.toNat)]
  | .addVxKk x kk => [(.x, x.val), (.kk, kk.toNat)]
  | .ldVxVy x y => [(.x, x.val), (.y, y.val)]
  | .orVxVy x y => [(.x, x.val), (.y, y.val)]
  | .andVxVy x y => [(.x, x.val), (.y, y.val)]
  | .xorVxVy x y => [(.x, x.val), (.y, y.val)]
  | .addVxVy x y => [(.x, x.val), (.y, y.val)]
  | .subVxVy x y => [(.x, x.val), (.y, y.val)]
  | .shrVxVy x y => [(.x, x.val), (.y, y.val)]
  | .subnVxVy x y => [(.x, x.val), (.y, y.val)]
  | .shlVxVy x y => [(.x, x.val), (.y, y.val)]
  | .sneVxVy x y => [(.x, x.val), (.y, y.val)]
  | .ldINnn nnn => [(.nnn, nnn.toNat)]
  | .jpV0Nnn nnn => [(.nnn, nnn.toNat)]
  | .rndVxKk x kk => [(.x, x.val), (.kk, kk.toNat)]
  | .drwVxVyN x y n => [(.x, x.val), (.y, y.val), (.n, n.toNat)]
  | .skpVx x => [(.x, x.val)]
  | .sknpVx x => [(.x, x.val)]
  | .ldVxDt x => [(.x, x.val)]
  | .ldVxK x => [(.x, x.val)]
  | .ldDtVx x => [(.x, x.val)]
  | .ldStVx x => [(.x, x.val)]
  | .addIVx x => [(.x, x.val)]
  | .ldFVx x => [(.x, x.val)]
  | .ldBVx x => [(.x, x.val)]
  | .ldMemVx x => [(.x, x.val)]
  | .ldVxMem x => [(.x, x.val)]

/-- Every operand fits its field. The types of Syntax.lean already carry this, so it holds of every instruction
(Laws/PerInstr.lean); `Field.fits` is the check on plain numbers. -/
def Instr.wellFormed (i : Instr) : Bool := i.fields.all fun f => f.1.fits f.2

/-- The font has 80 bytes or is empty (R8, R280). -/
def Params.fontSize (p : Params) : Bool := p.font.length == 80 || p.font.isEmpty

/-- `FONT_BASE + 80 ≤ 0x200` (R9). -/
def Params.fontPlace (p : Params) : Bool := decide (p.fontBase.toNat + 80 ≤ 0x200)

/-- The extended font has 160 bytes or is absent (R8, R9). -/
def Params.xfontSize (p : Params) : Bool := p.xfont.length == 160 || p.xfont.isEmpty

/-- `XFONT_BASE + 160 ≤ 0x200` (R9). -/
def Params.xfontPlace (p : Params) : Bool := decide (p.xfontBase.toNat + 160 ≤ 0x200)

/-- The extended font does not overlap the font (R9). -/
def Params.fontsApart (p : Params) : Bool :=
  decide (p.fontBase.toNat + 80 ≤ p.xfontBase.toNat) || decide (p.xfontBase.toNat + 160 ≤ p.fontBase.toNat)

/-- The domains of R9. -/
def Params.wellFormed (p : Params) : Bool :=
  p.fontSize && p.fontPlace && p.xfontSize && p.xfontPlace && p.fontsApart

end Sys2Proof
end

