-- ==== Sys2Proof/Safety.lean ====
section
/-! DEFINITION. What claims about the core are stated in terms of: the invariant, what construction leaves besides memory (70_reset_and_hazards.md R280),
the ends of a run (60_exceptions.md R268), how far `PC` goes (40_cycle_and_control.md R103), and what a sprite is (45_display.md R218, R219). -/

namespace Sys2Proof.Machine

/-- What every state between two events satisfies: `PC` is even (R24, R25), hence at most 0xFFE; every stack slot is in
0..0x1000 (R27) and even, since `CALL` stores `PC + 2` (R112); memory is in canonical form; the font lies below 0x200 (R9). -/
abbrev State.Inv (s : State) : Prop :=
  s.pc.toNat % 2 = 0 ∧
  (∀ k : Fin 16, (s.stack[k.val]).toNat ≤ 0x1000 ∧ (s.stack[k.val]).toNat % 2 = 0) ∧
  Memory.wf s.mem = true ∧
  s.fontBase.toNat + 80 ≤ 0x200

/-- The values of R280 for everything but memory. -/
abbrev State.asConstructed (s : State) : Prop :=
  (∀ r : Reg, s.reg r = 0) ∧ s.i = 0 ∧ s.pc = 0x200 ∧ s.sp = 0 ∧ (∀ k : Fin 16, s.stack[k.val] = 0) ∧
  s.dt = 0 ∧ s.st = 0 ∧ (∀ px py, s.display.pixel px py = false) ∧ s.mode = .normal ∧
  (∀ k : Key, s.key k = false) ∧ s.fault = none

/-- The run has faulted: never a successful end (R268 item 1). -/
abbrev State.faulted (s : State) : Prop := s.fault ≠ none

/-- The run is halted at `a`: a jump to itself stands at `PC = a` (R268 item 2). -/
abbrev State.haltedAt (s : State) (a : Addr) : Prop :=
  s.pc = a ∧ s.fault = none ∧
  Memory.read s.mem a.toNat = BitVec.ofNat 8 (0x10 + a.toNat / 256) ∧
  Memory.read s.mem (a.toNat + 1) = BitVec.ofNat 8 (a.toNat % 256)

/-- `PC` is where an instruction may stand (R24) and the address after it exists, so that falling through does not raise (R104, R105). -/
abbrev State.canFallThrough (s : State) : Prop := s.pc.toNat % 2 = 0 ∧ s.pc.toNat + 2 < 0x1000

/-- How far beyond `PC` an instruction that does not jump, call or return proposes to go on, when it gets that far: 2 to fall through,
4 for a taken skip, 0 for a key wait with no key (R103, R113 to R116, R201 to R203). -/
def State.stride (s : State) : Instr → Option Nat
  | .ret => none
  | .jpNnn _ => none
  | .callNnn _ => none
  | .jpV0Nnn _ => none
  | .seVxKk x kk => some (if s.reg x = kk then 4 else 2)
  | .sneVxKk x kk => some (if s.reg x = kk then 2 else 4)
  | .seVxVy x y => some (if s.reg x = s.reg y then 4 else 2)
  | .sneVxVy x y => some (if s.reg x = s.reg y then 2 else 4)
  | .skpVx x => some (if ∃ k : Key, k.val = (s.reg x).toNat ∧ s.key k = true then 4 else 2)
  | .sknpVx x => some (if ∃ k : Key, k.val = (s.reg x).toNat ∧ s.key k = true then 2 else 4)
  | .ldVxK _ => some (if ∃ k : Key, s.key k = true then 2 else 0)
  | .cls => some 2
  | .low => some 2
  | .high => some 2
  | .ldVxKk _ _ => some 2
  | .addVxKk _ _ => some 2
  | .ldVxVy _ _ => some 2
  | .orVxVy _ _ => some 2
  | .andVxVy _ _ => some 2
  | .xorVxVy _ _ => some 2
  | .addVxVy _ _ => some 2
  | .subVxVy _ _ => some 2
  | .shrVxVy _ _ => some 2
  | .subnVxVy _ _ => some 2
  | .shlVxVy _ _ => some 2
  | .ldINnn _ => some 2
  | .rndVxKk _ _ => some 2
  | .drwVxVyN _ _ _ => some 2
  | .ldVxDt _ => some 2
  | .ldDtVx _ => some 2
  | .ldStVx _ => some 2
  | .addIVx _ => some 2
  | .ldFVx _ => some 2
  | .ldBVx _ => some 2
  | .ldMemVx _ => some 2
  | .ldVxMem _ => some 2

/-- The byte of memory at an address, as claims read it. -/
def State.byteAt (s : State) (a : Nat) : Byte := Memory.read s.mem a

/-- Execute instructions one after the other, as long as each answers a next state in which no fault is recorded. -/
def execAll : List Instr → State → Option State
  | [], s => some s
  | i :: is, s =>
    match exec i s with
    | .next t => if t.fault = none then execAll is t else none
    | .fault _ => none
    | .refused _ => none

/-- The bytes of one row of a sprite: two for a 16-pixel row (R219). -/
def rowBytes (wide : Bool) : Nat := if wide then 2 else 1

/-- The pixels of one row of a sprite (R212). -/
def rowWidth (wide : Bool) : Nat := if wide then 16 else 8

/-- Column `c` of row `r` of the sprite at `I`: bit 7 of a byte is its leftmost pixel, and the left byte of a 16-pixel
row stands first (R219, R223). -/
def State.spriteBit (s : State) (wide : Bool) (r c : Nat) : Bool :=
  (s.byteAt (s.i.toNat + r * rowBytes wide + c / 8)).getLsbD (7 - c % 8)

/-- How far `p` lies after `p0` on a circle of `size` positions: the column or row of a wrapped sprite that falls on `p` (R213). -/
def wrapDistance (size p0 p : Nat) : Nat := (p + size - p0 % size) % size

/-- Whether the first `rows` rows of the sprite at `I`, placed at `(x0, y0)`, have a set pixel at `(px, py)` (R212, R213). -/
def State.spriteCovers (s : State) (wide : Bool) (rows x0 y0 px py : Nat) : Bool :=
  decide (px < s.mode.width) && decide (py < s.mode.height) &&
  decide (wrapDistance s.mode.width x0 px < rowWidth wide) &&
  decide (wrapDistance s.mode.height y0 py < rows) &&
  s.spriteBit wide (wrapDistance s.mode.height y0 py) (wrapDistance s.mode.width x0 px)

end Sys2Proof.Machine
end

