-- ==== Sys2Proof/Certificates/Slice0/Obligations.lean ====
section
/-! DEFINITION. The statements about the core, each a rule of spec/ or what follows from its rules. Their witnesses stand in Tests/Slice0.lean. -/

open Sys2Proof Sys2Proof.Machine

/-! ### Encoding -/

/-- Decoding the word of an instruction gives the instruction back, with every operand at every value, as a word, as
bytes followed by any others, and as the opcode table numbers it (30_encoding.md sections 1 and 2; the patterns are the spec's G1). -/
def Obligations.DecodeOfEncodeIsTheInstruction : Prop :=
  ∀ (i : Instr) (rest : List Byte), i.wellFormed = true →
    decodeWord (encode i) = .ok i ∧
    decodeBytes (wordBytes (encode i) ++ rest) = .ok (i, rest) ∧
    decodeTableWord 16 (encode i).toNat = some i

/-- Each word has one meaning: the word an instruction was decoded from is its encoding. -/
def Obligations.EncodeOfDecodeIsTheWord : Prop :=
  ∀ (w : Word) (i : Instr), decodeWord w = .ok i → encode i = w ∧ i.wellFormed = true

/-- No word matches two rows of the opcode table, so the order of testing does not matter. -/
def Obligations.OpcodeRowsAreDisjoint : Prop :=
  ∀ w : Word, opcodeTable.countP (fun r => r.admits w) ≤ 1

/-- Which words are instructions, by their nibbles, and that every other word is unknown (30_encoding.md sections 2 and 3; the
patterns are the spec's G1 and its decisions D2 to D4). -/
def Obligations.WordsOutsideTheTableAreUnknown : Prop :=
  ∀ (w : Word) (op n kk : Nat), op = w.toNat / 0x1000 → n = w.toNat % 0x10 → kk = w.toNat % 0x100 →
    ((w = 0x00E0 ∨ w = 0x00EE ∨ w = 0x00FE ∨ w = 0x00FF ∨
      op ∈ [0x1, 0x2, 0xA, 0xB, 0x3, 0x4, 0x6, 0x7, 0xC, 0xD] ∨
      (op ∈ [0x5, 0x9] ∧ n = 0) ∨
      (op = 0x8 ∧ n ∈ [0, 1, 2, 3, 4, 5, 6, 7, 0xE]) ∨
      (op = 0xE ∧ kk ∈ [0x9E, 0xA1]) ∨
      (op = 0xF ∧ kk ∈ [0x07, 0x0A, 0x15, 0x18, 0x1E, 0x29, 0x33, 0x55, 0x65])) →
        ∃ i, decodeWord w = .ok i) ∧
    (¬ (w = 0x00E0 ∨ w = 0x00EE ∨ w = 0x00FE ∨ w = 0x00FF ∨
      op ∈ [0x1, 0x2, 0xA, 0xB, 0x3, 0x4, 0x6, 0x7, 0xC, 0xD] ∨
      (op ∈ [0x5, 0x9] ∧ n = 0) ∨
      (op = 0x8 ∧ n ∈ [0, 1, 2, 3, 4, 5, 6, 7, 0xE]) ∨
      (op = 0xE ∧ kk ∈ [0x9E, 0xA1]) ∨
      (op = 0xF ∧ kk ∈ [0x07, 0x0A, 0x15, 0x18, 0x1E, 0x29, 0x33, 0x55, 0x65])) →
        decodeWord w = .error (.unknownInstruction w))

/-- The words of the opcode table as numbers: the pattern's fixed digits, with each field in its place (30_encoding.md sections 1 and 2;
the spec's G1). -/
def Obligations.EncodedWordsAreThePatternsOfTheTable : Prop :=
  ∀ (x y : Reg) (n : Nibble) (kk : Byte) (nnn : Addr) (vx vxy : Nat),
    vx = 0x100 * x.val → vxy = 0x100 * x.val + 0x10 * y.val →
    (encode .cls).toNat = 0x00E0 ∧ (encode .ret).toNat = 0x00EE ∧
    (encode .low).toNat = 0x00FE ∧ (encode .high).toNat = 0x00FF ∧
    (encode (.jpNnn nnn)).toNat = 0x1000 + nnn.toNat ∧ (encode (.callNnn nnn)).toNat = 0x2000 + nnn.toNat ∧
    (encode (.ldINnn nnn)).toNat = 0xA000 + nnn.toNat ∧ (encode (.jpV0Nnn nnn)).toNat = 0xB000 + nnn.toNat ∧
    (encode (.seVxKk x kk)).toNat = 0x3000 + vx + kk.toNat ∧ (encode (.sneVxKk x kk)).toNat = 0x4000 + vx + kk.toNat ∧
    (encode (.ldVxKk x kk)).toNat = 0x6000 + vx + kk.toNat ∧ (encode (.addVxKk x kk)).toNat = 0x7000 + vx + kk.toNat ∧
    (encode (.rndVxKk x kk)).toNat = 0xC000 + vx + kk.toNat ∧
    (encode (.seVxVy x y)).toNat = 0x5000 + vxy ∧ (encode (.ldVxVy x y)).toNat = 0x8000 + vxy ∧
    (encode (.orVxVy x y)).toNat = 0x8001 + vxy ∧ (encode (.andVxVy x y)).toNat = 0x8002 + vxy ∧
    (encode (.xorVxVy x y)).toNat = 0x8003 + vxy ∧ (encode (.addVxVy x y)).toNat = 0x8004 + vxy ∧
    (encode (.subVxVy x y)).toNat = 0x8005 + vxy ∧ (encode (.shrVxVy x y)).toNat = 0x8006 + vxy ∧
    (encode (.subnVxVy x y)).toNat = 0x8007 + vxy ∧ (encode (.shlVxVy x y)).toNat = 0x800E + vxy ∧
    (encode (.sneVxVy x y)).toNat = 0x9000 + vxy ∧ (encode (.drwVxVyN x y n)).toNat = 0xD000 + vxy + n.toNat ∧
    (encode (.skpVx x)).toNat = 0xE09E + vx ∧ (encode (.sknpVx x)).toNat = 0xE0A1 + vx ∧
    (encode (.ldVxDt x)).toNat = 0xF007 + vx ∧ (encode (.ldVxK x)).toNat = 0xF00A + vx ∧
    (encode (.ldDtVx x)).toNat = 0xF015 + vx ∧ (encode (.ldStVx x)).toNat = 0xF018 + vx ∧
    (encode (.addIVx x)).toNat = 0xF01E + vx ∧ (encode (.ldFVx x)).toNat = 0xF029 + vx ∧
    (encode (.ldBVx x)).toNat = 0xF033 + vx ∧ (encode (.ldMemVx x)).toNat = 0xF055 + vx ∧
    (encode (.ldVxMem x)).toNat = 0xF065 + vx

/-- One word of each family, written out from the patterns of the opcode table, and a word that is none (30_encoding.md sections 2 and
3; the spec's G1 and D2). -/
def Obligations.SampleWordsDecode : Prop :=
  decodeWord 0x220E = .ok (.callNnn 0x20E) ∧ decodeWord 0x8015 = .ok (.subVxVy 0 1) ∧
  decodeWord 0x3342 = .ok (.seVxKk 3 0x42) ∧ decodeWord 0xF733 = .ok (.ldBVx 7) ∧
  decodeWord 0xF415 = .ok (.ldDtVx 4) ∧ decodeWord 0xE19E = .ok (.skpVx 1) ∧
  decodeWord 0xD125 = .ok (.drwVxVyN 1 2 5) ∧ decodeWord 0x00FD = .error (.unknownInstruction 0x00FD)

/-! ### The cycle -/

/-- The step of a core with no fault runs the instruction that the two bytes at `PC` decode to, and adds nothing around it; the
CPU steps when the schedule is empty (the model's choice, log 2) or says so. -/
def Obligations.StepRunsTheDecodedInstruction : Prop :=
  ∀ (s : State) (i : Instr), s.fault = none → s.pc.toNat + 1 < 0x1000 →
    decodeBytes [s.byteAt s.pc.toNat, s.byteAt (s.pc.toNat + 1)] = .ok (i, []) →
    (s.schedule = [] → step s = exec i s) ∧
    (∀ es, s.schedule = .cpu :: es → step s = exec i { s with schedule := es })

/-- A word placed by `withFetchWord` (the model's stand-in for a load, log 9) is what the next step runs. -/
def Obligations.PlacedWordRunsNext : Prop :=
  ∀ (s : State) (nbits w : Nat) (i : Instr), Memory.wf s.mem = true → s.pc.toNat + 1 < 0x1000 →
    decodeTableWord nbits w = some i →
    step (s.withFetchWord nbits w) = exec i (s.withFetchWord nbits w) ∧
    (s.withFetchWord nbits w).v = s.v ∧ (s.withFetchWord nbits w).pc = s.pc

/-- R107: a word that is no instruction raises at decode, and nothing but the fault state is written. -/
def Obligations.UndecodableWordOnlyRecordsTheFault : Prop :=
  ∀ (s : State) (w : Word), s.fault = none → s.pc.toNat + 1 < 0x1000 →
    w = s.byteAt s.pc.toNat ++ s.byteAt (s.pc.toNat + 1) → (∀ i, decodeWord w ≠ .ok i) →
    cpuStep s = .next { s with fault := some (.unknownInstruction w) }

/-- R53: fetch reads two consecutive bytes at `PC`, the first one most significant. -/
def Obligations.FetchIsBigEndian : Prop :=
  ∀ s : State, s.pc.toNat + 1 < 0x1000 → ∃ w, fetch s = .ok w ∧
    w.toNat = (s.byteAt s.pc.toNat).toNat * 256 + (s.byteAt (s.pc.toNat + 1)).toNat

/-- R51: an access beyond memory raises with its address, writes nothing and never wraps; every other access succeeds. -/
def Obligations.AccessBeyondMemoryRaises : Prop :=
  ∀ (s : State) (a : Nat) (b : Byte),
    (0x1000 ≤ a → memRead a s = .error (.outOfBoundsAddress a) ∧ memWrite a b s = .raised (.outOfBoundsAddress a) s) ∧
    (a < 0x1000 → Memory.wf s.mem = true →
      memRead a s = .ok (s.byteAt a) ∧
      ∃ m', memWrite a b s = .done () { s with mem := m' } ∧
        ∀ c, Memory.read m' c = if c = a then b else s.byteAt c)

/-- While a fault is recorded no CPU step is taken, the cadences and the host go on, and the program load clears it
(60_exceptions.md section 1, the spec's decision D25; that the step then answers `fault` is the model's reading, log 3; events as in log 2). -/
def Obligations.FaultedCoreTakesNoCpuStep : Prop :=
  ∀ (s : State) (k : FaultKind) (es : List Event), s.fault = some k →
    (s.schedule = [] → step s = .fault (.stopped k)) ∧
    (s.schedule = .cpu :: es → step s = .fault (.stopped k)) ∧
    (s.schedule = .tickDT :: es → s.dt ≠ 0 → step s = .next { s with dt := s.dt - 1, schedule := es }) ∧
    (s.schedule = .tickST :: es → s.st ≠ 0 → step s = .next { s with st := s.st - 1, schedule := es }) ∧
    (∀ bytes, s.schedule = .loadProgram bytes :: es → ∃ t, step s = .next t ∧ t.fault = none ∧ t.pc = 0x200)

/-- Teardown ends the run, with no state left in which an event could be enabled (60_exceptions.md section 7; that it is a fault outcome
is the model's reading, log 3; events as in log 2). -/
def Obligations.TeardownLeavesNoState : Prop :=
  ∀ (s : State) (es : List Event), s.schedule = .teardown :: es →
    step s = .fault .tornDown ∧ ∀ n, Host.Core.run Sys2Proof.core (n + 1) s = .fault .tornDown

/-! ### Reset, the invariant and the loader -/

/-- The reset state holds the values that construction gives, with the default parameters and every byte of the default font written
out (70_reset_and_hazards.md section 1; the spec's decisions D24 and D12). That reset takes the default parameters is the model's
choice, log 5. The glyph of 5 is the source's; the other fifteen are the spec's G4, log 7. -/
def Obligations.ResetIsTheConstructionState : Prop :=
  State.reset.asConstructed ∧ State.reset.shiftSrc = .x ∧ State.reset.fontBase = 0x000 ∧
  (List.range 80).map State.reset.byteAt =
    [0xF0, 0x90, 0x90, 0x90, 0xF0] ++ [0x20, 0x60, 0x20, 0x20, 0x70] ++ [0xF0, 0x10, 0xF0, 0x80, 0xF0] ++
    [0xF0, 0x10, 0xF0, 0x10, 0xF0] ++ [0x90, 0x90, 0xF0, 0x10, 0x10] ++ [0xF0, 0x80, 0xF0, 0x10, 0xF0] ++
    [0xF0, 0x80, 0xF0, 0x90, 0xF0] ++ [0xF0, 0x10, 0x20, 0x40, 0x40] ++ [0xF0, 0x90, 0xF0, 0x90, 0xF0] ++
    [0xF0, 0x90, 0xF0, 0x10, 0xF0] ++ [0xF0, 0x90, 0xF0, 0x90, 0x90] ++ [0xE0, 0x90, 0xE0, 0x90, 0xE0] ++
    [0xF0, 0x80, 0x80, 0x80, 0xF0] ++ [0xE0, 0x90, 0x90, 0x90, 0xE0] ++ [0xF0, 0x80, 0xF0, 0x80, 0xF0] ++
    [0xF0, 0x80, 0xF0, 0x80, 0x80] ∧
  ∀ a, 80 ≤ a → State.reset.byteAt a = 0

/-- The invariant holds at reset. -/
def Obligations.ResetMeetsTheInvariant : Prop := State.reset.Inv

/-- Whatever event comes next and whatever the instruction, a step from a state that meets the invariant ends in one that meets
it: `PC` stays even and inside memory, stack slots stay even and at most 0x1000, memory stays canonical, the font stays below 0x200
(10_state.md sections 2, 4 and 9; 20_memory.md section 3). -/
def Obligations.EveryStepKeepsTheInvariant : Prop :=
  ∀ s t : State, s.Inv → step s = .next t → t.Inv

/-- `loadProgram` copies at most 0xE00 bytes to 0x200 and resets the registers; nothing else changes, neither pixels, `MODE`,
keys, stack slots nor other memory (70_reset_and_hazards.md section 1; the spec's decision D23; events as in log 2). -/
def Obligations.LoadProgramCopiesAndResets : Prop :=
  ∀ (s : State) (bytes : List Byte) (es : List Event), Memory.wf s.mem = true →
    s.schedule = .loadProgram bytes :: es →
    ∃ m' v', step s = .next { s with mem := m', v := v', pc := 0x200, sp := 0, i := 0, dt := 0, st := 0, fault := none, schedule := es } ∧
      (∀ r : Reg, v'[r.val] = 0) ∧
      ∀ a, Memory.read m' a =
        if 0x200 ≤ a ∧ a < 0x200 + min bytes.length 0xE00 then bytes.getD (a - 0x200) 0 else s.byteAt a

/-- Construction with any parameters of R9: the two that the running machine reads are kept, each font stands at its base, every other
byte is zero, and all else holds the values that construction gives (00_scope.md section 4, 70_reset_and_hazards.md section 1; the
spec's decisions D12, D13, D24). The model's own readings, log 5: an empty font is one of length 0 (DEDUCED), and the last clause, that
the reset state is construction with the default parameters (DESIGN CHOICE). -/
def Obligations.ConstructionLoadsTheFonts : Prop :=
  (∀ p : Params, p.wellFormed = true →
    (State.construct p).asConstructed ∧ (State.construct p).Inv ∧
    (State.construct p).shiftSrc = p.shiftSrc ∧ (State.construct p).fontBase = p.fontBase ∧
    (∀ j, j < p.font.length → (State.construct p).byteAt (p.fontBase.toNat + j) = p.font.getD j 0) ∧
    (∀ j, j < p.xfont.length → (State.construct p).byteAt (p.xfontBase.toNat + j) = p.xfont.getD j 0) ∧
    (∀ a, (a < p.fontBase.toNat ∨ p.fontBase.toNat + p.font.length ≤ a) →
      (a < p.xfontBase.toNat ∨ p.xfontBase.toNat + p.xfont.length ≤ a) → (State.construct p).byteAt a = 0)) ∧
  State.construct defaultParams = State.reset

/-! ### Control transfer -/

/-- `RET` with entries in use pops the newest one into `PC`; the pop stands when that address is 0x1000
(40_cycle_and_control.md section 2; the spec's decision D9). -/
def Obligations.RetPopsIntoPC : Prop :=
  ∀ (s : State) (k : Fin 16) (t : Nat), s.sp.val = k.val + 1 → t = (s.stack[k.val]).toNat →
    (t < 0x1000 → t % 2 = 0 → exec .ret s = .next { s with sp := k.castSucc, pc := BitVec.ofNat 12 t }) ∧
    (t = 0x1000 → exec .ret s = .next { s with sp := k.castSucc, fault := some (.outOfBoundsAddress 0x1000) })

/-- `CALL` with a free slot pushes the address after itself and jumps; the push stands when the target is odd
(40_cycle_and_control.md section 2; the spec's decisions D9 and D10). -/
def Obligations.CallPushesTheAddressAfterItself : Prop :=
  ∀ (s : State) (nnn : Addr) (k : Fin 16), s.sp.val = k.val →
    ∃ slots : Vector (BitVec 13) 16,
      (∀ j : Fin 16, (slots[j.val]).toNat = if j = k then s.pc.toNat + 2 else (s.stack[j.val]).toNat) ∧
      (nnn.toNat % 2 = 0 → exec (.callNnn nnn) s = .next { s with stack := slots, sp := k.succ, pc := nnn }) ∧
      (nnn.toNat % 2 = 1 → exec (.callNnn nnn) s =
        .next { s with stack := slots, sp := k.succ, fault := some (.unmodelled .oddPC) })

/-- Control resumes after the call: a `RET` with the stack as the `CALL` left it, whatever else changed in between
(40_cycle_and_control.md section 2; the spec's decision D9). -/
def Obligations.ReturnResumesAfterTheCall : Prop :=
  ∀ (s : State) (nnn : Addr), s.sp ≠ 16 → s.canFallThrough → nnn.toNat % 2 = 0 →
    ∃ t, exec (.callNnn nnn) s = .next t ∧ t.pc = nnn ∧
      ∀ u : State, u.stack = t.stack → u.sp = t.sp →
        ∃ r, exec .ret u = .next r ∧ r.pc = s.pc + 2 ∧ r.sp = s.sp ∧ r.fault = u.fault

/-- R242, R243: the limits of the call stack. `CALL` with 16 entries and `RET` with none raise before anything is written; from an
empty stack 16 calls to even targets succeed, and a 17th raises. -/
def Obligations.StackLimitsRaiseBeforeAnyWrite : Prop :=
  (∀ (s : State) (nnn : Addr), s.sp = 16 → exec (.callNnn nnn) s = .next { s with fault := some .stackOverflow }) ∧
  (∀ s : State, s.sp = 0 → exec .ret s = .next { s with fault := some .stackUnderflow }) ∧
  (∀ (s : State) (targets : List Addr) (last : Addr), s.sp = 0 → s.fault = none →
    (∀ nnn ∈ targets, nnn.toNat % 2 = 0) → targets.length = 16 →
    ∃ t, execAll (targets.map .callNnn) s = some t ∧ t.sp = 16 ∧
      exec (.callNnn last) t = .next { t with fault := some .stackOverflow })

/-- `SE Vx,kk` and `SNE Vx,kk`: the target is four or two bytes on; a target beyond memory raises with it, and nothing else is
written (40_cycle_and_control.md section 2). -/
def Obligations.ImmediateSkipsCompareWithTheByte : Prop :=
  ∀ (s : State) (x : Reg) (kk : Byte) (eq ne : Nat), s.pc.toNat % 2 = 0 →
    eq = s.pc.toNat + (if s.reg x = kk then 4 else 2) → ne = s.pc.toNat + (if s.reg x = kk then 2 else 4) →
    (eq < 0x1000 → exec (.seVxKk x kk) s = .next { s with pc := BitVec.ofNat 12 eq }) ∧
    (0x1000 ≤ eq → exec (.seVxKk x kk) s = .next { s with fault := some (.outOfBoundsAddress eq) }) ∧
    (ne < 0x1000 → exec (.sneVxKk x kk) s = .next { s with pc := BitVec.ofNat 12 ne }) ∧
    (0x1000 ≤ ne → exec (.sneVxKk x kk) s = .next { s with fault := some (.outOfBoundsAddress ne) })

/-- `SE Vx,Vy` and `SNE Vx,Vy`, as the immediate skips, comparing two registers (40_cycle_and_control.md section 2). -/
def Obligations.RegisterSkipsCompareTheRegisters : Prop :=
  ∀ (s : State) (x y : Reg) (eq ne : Nat), s.pc.toNat % 2 = 0 →
    eq = s.pc.toNat + (if s.reg x = s.reg y then 4 else 2) → ne = s.pc.toNat + (if s.reg x = s.reg y then 2 else 4) →
    (eq < 0x1000 → exec (.seVxVy x y) s = .next { s with pc := BitVec.ofNat 12 eq }) ∧
    (0x1000 ≤ eq → exec (.seVxVy x y) s = .next { s with fault := some (.outOfBoundsAddress eq) }) ∧
    (ne < 0x1000 → exec (.sneVxVy x y) s = .next { s with pc := BitVec.ofNat 12 ne }) ∧
    (0x1000 ≤ ne → exec (.sneVxVy x y) s = .next { s with fault := some (.outOfBoundsAddress ne) })

/-- `JP nnn` goes to its address and `JP V0,nnn` to the sum with V0, which is not reduced; a target beyond memory or odd raises and
`PC` stays (40_cycle_and_control.md sections 1 and 2; odd targets are the spec's decision D10). -/
def Obligations.JumpsGoToTheirTarget : Prop :=
  ∀ (s : State) (nnn : Addr) (sum : Nat), sum = nnn.toNat + (s.reg 0).toNat →
    (nnn.toNat % 2 = 0 → exec (.jpNnn nnn) s = .next { s with pc := nnn }) ∧
    (nnn.toNat % 2 = 1 → exec (.jpNnn nnn) s = .next { s with fault := some (.unmodelled .oddPC) }) ∧
    (sum < 0x1000 → sum % 2 = 0 → exec (.jpV0Nnn nnn) s = .next { s with pc := BitVec.ofNat 12 sum }) ∧
    (sum < 0x1000 → sum % 2 = 1 → exec (.jpV0Nnn nnn) s = .next { s with fault := some (.unmodelled .oddPC) }) ∧
    (0x1000 ≤ sum → exec (.jpV0Nnn nnn) s = .next { s with fault := some (.outOfBoundsAddress sum) })

/-! ### Registers and the ALU

Each of these gives the registers after the instruction, says that nothing else is written, and that at the last word of memory the
instruction raises after its own effects (R105). -/

/-- `LD Vx,kk` and `LD Vx,Vy` write the destination and nothing else (41_register_ops.md section 1). -/
def Obligations.LoadsWriteTheDestination : Prop :=
  ∀ (s : State) (x y : Reg) (kk : Byte), ∃ vk vy : Vector Byte 16,
    (∀ r : Reg, vk[r.val] = if r = x then kk else s.reg r) ∧
    (∀ r : Reg, vy[r.val] = if r = x then s.reg y else s.reg r) ∧
    (s.canFallThrough → exec (.ldVxKk x kk) s = .next { s with v := vk, pc := s.pc + 2 } ∧
      exec (.ldVxVy x y) s = .next { s with v := vy, pc := s.pc + 2 }) ∧
    (s.pc = 0xFFE → exec (.ldVxKk x kk) s = .next { s with v := vk, fault := some (.outOfBoundsAddress 0x1000) } ∧
      exec (.ldVxVy x y) s = .next { s with v := vy, fault := some (.outOfBoundsAddress 0x1000) })

/-- `ADD Vx,kk` adds modulo 256 and writes no flag (41_register_ops.md section 1). -/
def Obligations.AddImmediateWrapsWithoutFlag : Prop :=
  ∀ (s : State) (x : Reg) (kk : Byte), ∃ v' : Vector Byte 16,
    (∀ r : Reg, (v'[r.val]).toNat = if r = x then ((s.reg x).toNat + kk.toNat) % 256 else (s.reg r).toNat) ∧
    (s.canFallThrough → exec (.addVxKk x kk) s = .next { s with v := v', pc := s.pc + 2 }) ∧
    (s.pc = 0xFFE → exec (.addVxKk x kk) s = .next { s with v := v', fault := some (.outOfBoundsAddress 0x1000) })

/-- `OR`, `AND` and `XOR` work bit by bit into `Vx`; VF keeps its value unless it is `Vx` (41_register_ops.md section 2; the spec's
decision D7). -/
def Obligations.BitwiseOperationsLeaveVF : Prop :=
  ∀ (s : State) (x y : Reg), ∃ vo va vx : Vector Byte 16,
    (∀ (r : Reg) (b : Nat), (vo[r.val]).getLsbD b =
      if r = x then (s.reg x).getLsbD b || (s.reg y).getLsbD b else (s.reg r).getLsbD b) ∧
    (∀ (r : Reg) (b : Nat), (va[r.val]).getLsbD b =
      if r = x then (s.reg x).getLsbD b && (s.reg y).getLsbD b else (s.reg r).getLsbD b) ∧
    (∀ (r : Reg) (b : Nat), (vx[r.val]).getLsbD b =
      if r = x then (s.reg x).getLsbD b ^^ (s.reg y).getLsbD b else (s.reg r).getLsbD b) ∧
    (s.canFallThrough →
      exec (.orVxVy x y) s = .next { s with v := vo, pc := s.pc + 2 } ∧
      exec (.andVxVy x y) s = .next { s with v := va, pc := s.pc + 2 } ∧
      exec (.xorVxVy x y) s = .next { s with v := vx, pc := s.pc + 2 }) ∧
    (s.pc = 0xFFE →
      exec (.orVxVy x y) s = .next { s with v := vo, fault := some (.outOfBoundsAddress 0x1000) } ∧
      exec (.andVxVy x y) s = .next { s with v := va, fault := some (.outOfBoundsAddress 0x1000) } ∧
      exec (.xorVxVy x y) s = .next { s with v := vx, fault := some (.outOfBoundsAddress 0x1000) })

/-- `ADD Vx,Vy`: the sum modulo 256, then VF is 1 iff the true sum exceeds 255, also when VF is an operand or the destination
(41_register_ops.md section 3; the spec's decision D6). -/
def Obligations.AddWritesSumThenCarry : Prop :=
  ∀ (s : State) (x y : Reg) (a b : Nat), a = (s.reg x).toNat → b = (s.reg y).toNat → ∃ v' : Vector Byte 16,
    (∀ r : Reg, (v'[r.val]).toNat =
      if r = VF then (if 255 < a + b then 1 else 0) else if r = x then (a + b) % 256 else (s.reg r).toNat) ∧
    (s.canFallThrough → exec (.addVxVy x y) s = .next { s with v := v', pc := s.pc + 2 }) ∧
    (s.pc = 0xFFE → exec (.addVxVy x y) s = .next { s with v := v', fault := some (.outOfBoundsAddress 0x1000) })

/-- `SUB` and `SUBN`: the difference modulo 256, then VF is 1 iff there is no borrow, also when VF is an operand or the destination
(41_register_ops.md section 3; the spec's decision D6). -/
def Obligations.SubtractionsWriteDifferenceThenNoBorrow : Prop :=
  ∀ (s : State) (x y : Reg) (a b : Nat), a = (s.reg x).toNat → b = (s.reg y).toNat → ∃ vs vn : Vector Byte 16,
    (∀ r : Reg, ((vs[r.val]).toNat : Int) =
      if r = VF then (if b ≤ a then 1 else 0) else if r = x then ((a : Int) - b) % 256 else (s.reg r).toNat) ∧
    (∀ r : Reg, ((vn[r.val]).toNat : Int) =
      if r = VF then (if a ≤ b then 1 else 0) else if r = x then ((b : Int) - a) % 256 else (s.reg r).toNat) ∧
    (s.canFallThrough → exec (.subVxVy x y) s = .next { s with v := vs, pc := s.pc + 2 } ∧
      exec (.subnVxVy x y) s = .next { s with v := vn, pc := s.pc + 2 }) ∧
    (s.pc = 0xFFE → exec (.subVxVy x y) s = .next { s with v := vs, fault := some (.outOfBoundsAddress 0x1000) } ∧
      exec (.subnVxVy x y) s = .next { s with v := vn, fault := some (.outOfBoundsAddress 0x1000) })

/-- `SHR` and `SHL` shift the operand that `SHIFT_SRC` names into `Vx`, then VF is the bit shifted out, for both values of the
parameter (41_register_ops.md section 3; the spec's decisions D5 and D6). -/
def Obligations.ShiftsWriteResultThenDroppedBit : Prop :=
  ∀ (s : State) (x y : Reg) (o : Nat), o = (match s.shiftSrc with | .x => s.reg x | .y => s.reg y).toNat →
    ∃ vr vl : Vector Byte 16,
    (∀ r : Reg, (vr[r.val]).toNat = if r = VF then o % 2 else if r = x then o / 2 else (s.reg r).toNat) ∧
    (∀ r : Reg, (vl[r.val]).toNat = if r = VF then o / 128 else if r = x then 2 * o % 256 else (s.reg r).toNat) ∧
    (s.canFallThrough → exec (.shrVxVy x y) s = .next { s with v := vr, pc := s.pc + 2 } ∧
      exec (.shlVxVy x y) s = .next { s with v := vl, pc := s.pc + 2 }) ∧
    (s.pc = 0xFFE → exec (.shrVxVy x y) s = .next { s with v := vr, fault := some (.outOfBoundsAddress 0x1000) } ∧
      exec (.shlVxVy x y) s = .next { s with v := vl, fault := some (.outOfBoundsAddress 0x1000) })

/-- `RND`: the byte the oracle supplies, masked, whatever it is, and one draw is used up (41_register_ops.md section 4; the spec's
decision D29; the draw is the free value of log 1). A bit clear in the mask is clear in the result. -/
def Obligations.RndMasksTheDraw : Prop :=
  ∀ (s : State) (x : Reg) (kk : Byte), ∃ v' : Vector Byte 16,
    (∀ (r : Reg) (b : Nat), (v'[r.val]).getLsbD b =
      if r = x then (Config.rng s.draws).getLsbD b && kk.getLsbD b else (s.reg r).getLsbD b) ∧
    (kk = 0 → v'[x.val] = 0) ∧
    (s.canFallThrough → exec (.rndVxKk x kk) s = .next { s with v := v', draws := s.draws + 1, pc := s.pc + 2 }) ∧
    (s.pc = 0xFFE → exec (.rndVxKk x kk) s =
      .next { s with v := v', draws := s.draws + 1, fault := some (.outOfBoundsAddress 0x1000) })

/-! ### The address register and memory -/

/-- `LD I,nnn` and `ADD I,Vx`: `I` is written, VF is not; a sum beyond 0xFFF raises and `I` keeps its value
(42_memory_index.md section 1; the spec's decision D8). -/
def Obligations.IndexWritesStayInRange : Prop :=
  ∀ (s : State) (nnn : Addr) (x : Reg) (sum : Nat), sum = s.i.toNat + (s.reg x).toNat →
    (s.canFallThrough → exec (.ldINnn nnn) s = .next { s with i := nnn, pc := s.pc + 2 }) ∧
    (s.pc = 0xFFE → exec (.ldINnn nnn) s = .next { s with i := nnn, fault := some (.outOfBoundsAddress 0x1000) }) ∧
    (sum < 0x1000 → s.canFallThrough →
      exec (.addIVx x) s = .next { s with i := BitVec.ofNat 12 sum, pc := s.pc + 2 }) ∧
    (sum < 0x1000 → s.pc = 0xFFE →
      exec (.addIVx x) s = .next { s with i := BitVec.ofNat 12 sum, fault := some (.outOfBoundsAddress 0x1000) }) ∧
    (0x1000 ≤ sum → exec (.addIVx x) s = .next { s with fault := some (.outOfBoundsAddress sum) })

/-- `LD F,Vx` points `I` at the glyph of a digit, for every place of the font that R9 allows; a value that is no digit raises with
nothing written (42_memory_index.md section 1; the spec's decisions D12 and D14). -/
def Obligations.FontPointerIsTheGlyphOfTheDigit : Prop :=
  ∀ (s : State) (x : Reg) (d : Nat), d = (s.reg x).toNat → s.fontBase.toNat + 80 ≤ 0x200 →
    (d ≤ 0xF → s.canFallThrough →
      exec (.ldFVx x) s = .next { s with i := BitVec.ofNat 12 (s.fontBase.toNat + 5 * d), pc := s.pc + 2 }) ∧
    (d ≤ 0xF → s.pc = 0xFFE → exec (.ldFVx x) s =
      .next { s with i := BitVec.ofNat 12 (s.fontBase.toNat + 5 * d), fault := some (.outOfBoundsAddress 0x1000) }) ∧
    (0xF < d → exec (.ldFVx x) s = .next { s with fault := some (.unmodelled .fontDigit) })

/-- `LD B,Vx` stores the three decimal digits at `I`, `I + 1`, `I + 2`, as far as those addresses exist, and no other byte changes;
where they do not all exist it raises at 0x1000 (42_memory_index.md section 2; the order is the spec's decision D11). -/
def Obligations.BcdStoresThreeDigits : Prop :=
  ∀ (s : State) (x : Reg) (b i : Nat), b = (s.reg x).toNat → i = s.i.toNat → Memory.wf s.mem = true → ∃ m' : Memory,
    (∀ a, (Memory.read m' a).toNat =
      if a = i then b / 100
      else if a = i + 1 ∧ a < 0x1000 then b / 10 % 10
      else if a = i + 2 ∧ a < 0x1000 then b % 10
      else (s.byteAt a).toNat) ∧
    (i + 2 < 0x1000 → s.canFallThrough → exec (.ldBVx x) s = .next { s with mem := m', pc := s.pc + 2 }) ∧
    (i + 2 < 0x1000 → s.pc = 0xFFE →
      exec (.ldBVx x) s = .next { s with mem := m', fault := some (.outOfBoundsAddress 0x1000) }) ∧
    (0x1000 ≤ i + 2 → exec (.ldBVx x) s = .next { s with mem := m', fault := some (.outOfBoundsAddress 0x1000) })

/-- `LD [I],Vx` stores `V0..Vx` at `I..I + x`, as far as those addresses exist; no other byte and no register changes; where they do
not all exist it raises at 0x1000 (42_memory_index.md section 2; the order is the spec's decision D11). -/
def Obligations.BlockStoreWritesRegistersInOrder : Prop :=
  ∀ (s : State) (x : Reg) (i : Nat), i = s.i.toNat → Memory.wf s.mem = true → ∃ m' : Memory,
    (∀ k : Reg, k.val ≤ x.val → i + k.val < 0x1000 → Memory.read m' (i + k.val) = s.reg k) ∧
    (∀ a, (a < i ∨ i + x.val < a ∨ 0x1000 ≤ a) → Memory.read m' a = s.byteAt a) ∧
    (i + x.val < 0x1000 → s.canFallThrough → exec (.ldMemVx x) s = .next { s with mem := m', pc := s.pc + 2 }) ∧
    (i + x.val < 0x1000 → s.pc = 0xFFE →
      exec (.ldMemVx x) s = .next { s with mem := m', fault := some (.outOfBoundsAddress 0x1000) }) ∧
    (0x1000 ≤ i + x.val → exec (.ldMemVx x) s = .next { s with mem := m', fault := some (.outOfBoundsAddress 0x1000) })

/-- `LD Vx,[I]` loads `V0..Vx` from `I..I + x`, as far as those addresses exist; no other register, no byte and not `I` changes; where
they do not all exist it raises at 0x1000 (42_memory_index.md section 2; the order is the spec's decision D11). -/
def Obligations.BlockLoadReadsMemoryInOrder : Prop :=
  ∀ (s : State) (x : Reg) (i : Nat), i = s.i.toNat → ∃ v' : Vector Byte 16,
    (∀ r : Reg, v'[r.val] = if r.val ≤ x.val ∧ i + r.val < 0x1000 then s.byteAt (i + r.val) else s.reg r) ∧
    (i + x.val < 0x1000 → s.canFallThrough → exec (.ldVxMem x) s = .next { s with v := v', pc := s.pc + 2 }) ∧
    (i + x.val < 0x1000 → s.pc = 0xFFE →
      exec (.ldVxMem x) s = .next { s with v := v', fault := some (.outOfBoundsAddress 0x1000) }) ∧
    (0x1000 ≤ i + x.val → exec (.ldVxMem x) s = .next { s with v := v', fault := some (.outOfBoundsAddress 0x1000) })

/-! ### Timers -/

/-- `LD DT,Vx`, `LD ST,Vx` and `LD Vx,DT` move a byte between a register and a timer and write nothing else
(43_timers.md). -/
def Obligations.TimerInstructionsMoveOneByte : Prop :=
  ∀ (s : State) (x : Reg), ∃ v' : Vector Byte 16,
    (∀ r : Reg, v'[r.val] = if r = x then s.dt else s.reg r) ∧
    (s.canFallThrough →
      exec (.ldDtVx x) s = .next { s with dt := s.reg x, pc := s.pc + 2 } ∧
      exec (.ldStVx x) s = .next { s with st := s.reg x, pc := s.pc + 2 } ∧
      exec (.ldVxDt x) s = .next { s with v := v', pc := s.pc + 2 }) ∧
    (s.pc = 0xFFE →
      exec (.ldDtVx x) s = .next { s with dt := s.reg x, fault := some (.outOfBoundsAddress 0x1000) } ∧
      exec (.ldStVx x) s = .next { s with st := s.reg x, fault := some (.outOfBoundsAddress 0x1000) } ∧
      exec (.ldVxDt x) s = .next { s with v := v', fault := some (.outOfBoundsAddress 0x1000) })

/-- N ticks of one cadence take its counter down by N and stop at zero, and touch nothing else, neither the other counter nor
memory, faulted or not (60_exceptions.md section 4; the spec's decision D21; that a tick of a stopped cadence changes nothing is
the model's reading, log 8; events as in log 2). -/
def Obligations.TicksCountDownAndStopAtZero : Prop :=
  ∀ (n : Nat) (s : State) (es : List Event),
    (s.schedule = List.replicate n .tickDT ++ es →
      Host.Core.run Sys2Proof.core n s = .next { s with dt := BitVec.ofNat 8 (s.dt.toNat - n), schedule := es }) ∧
    (s.schedule = List.replicate n .tickST ++ es →
      ∃ t, Host.Core.run Sys2Proof.core n s = .next t ∧
        t = { s with st := BitVec.ofNat 8 (s.st.toNat - n), schedule := es } ∧ t.tone = decide (n < s.st.toNat))

/-- The tone ends only at the tick that takes `ST` from 1 to 0 or at a write of 0 to `ST`, by `LD ST,Vx` or by the program load
(60_exceptions.md section 4, 70_reset_and_hazards.md section 1; events as in log 2). -/
def Obligations.ToneEndsOnlyByTickOrWriteOfZero : Prop :=
  ∀ s t : State, step s = .next t → s.tone = true → t.tone = false →
    (∃ es, s.schedule = .tickST :: es ∧ s.st = 1) ∨
    (∃ bytes es, s.schedule = .loadProgram bytes :: es) ∨
    (∃ x, fetch s = .ok (encode (.ldStVx x)) ∧ s.reg x = 0 ∧ (s.schedule = [] ∨ ∃ es, s.schedule = .cpu :: es))

/-! ### Keypad -/

/-- `SKP` and `SKNP` skip by the key that `Vx` names; a value that is no key raises with nothing written (44_input.md; the spec's
decision D15). -/
def Obligations.KeySkipsTestTheNamedKey : Prop :=
  ∀ (s : State) (x : Reg) (k : Key) (dn up : Nat), s.pc.toNat % 2 = 0 →
    dn = s.pc.toNat + (if s.key k = true then 4 else 2) → up = s.pc.toNat + (if s.key k = true then 2 else 4) →
    ((s.reg x).toNat = k.val →
      (dn < 0x1000 → exec (.skpVx x) s = .next { s with pc := BitVec.ofNat 12 dn }) ∧
      (0x1000 ≤ dn → exec (.skpVx x) s = .next { s with fault := some (.outOfBoundsAddress dn) }) ∧
      (up < 0x1000 → exec (.sknpVx x) s = .next { s with pc := BitVec.ofNat 12 up }) ∧
      (0x1000 ≤ up → exec (.sknpVx x) s = .next { s with fault := some (.outOfBoundsAddress up) })) ∧
    (0xF < (s.reg x).toNat →
      exec (.skpVx x) s = .next { s with fault := some (.unmodelled .keyIndex) } ∧
      exec (.sknpVx x) s = .next { s with fault := some (.unmodelled .keyIndex) })

/-- `LD Vx,K`: with no key pressed nothing changes, so the same instruction runs again; otherwise the lowest pressed key goes to `Vx`
(44_input.md; that a key held from before counts is the spec's decision D16). -/
def Obligations.KeyWaitTakesTheLowestPressedKey : Prop :=
  ∀ (s : State) (x : Reg),
    ((∀ k : Key, s.key k = false) → s.pc.toNat % 2 = 0 → exec (.ldVxK x) s = .next s) ∧
    (∀ k : Key, s.key k = true → (∀ j : Key, j < k → s.key j = false) → ∃ v' : Vector Byte 16,
      (∀ r : Reg, (v'[r.val]).toNat = if r = x then k.val else (s.reg r).toNat) ∧
      (s.canFallThrough → exec (.ldVxK x) s = .next { s with v := v', pc := s.pc + 2 }) ∧
      (s.pc = 0xFFE → exec (.ldVxK x) s = .next { s with v := v', fault := some (.outOfBoundsAddress 0x1000) }))

/-- The host sets and clears one key, and nothing else changes, nothing at all when the key is so already; no instruction writes the
keypad (60_exceptions.md section 5, 44_input.md; events as in log 2). -/
def Obligations.OnlyTheHostWritesKeys : Prop :=
  (∀ (s : State) (k : Key) (es : List Event), ∃ down up : Vector Bool 16,
    (∀ j : Key, down[j.val] = if j = k then true else s.key j) ∧ (s.key k = true → down = s.keys) ∧
    (∀ j : Key, up[j.val] = if j = k then false else s.key j) ∧ (s.key k = false → up = s.keys) ∧
    (s.schedule = .setKey k :: es → step s = .next { s with keys := down, schedule := es }) ∧
    (s.schedule = .clearKey k :: es → step s = .next { s with keys := up, schedule := es })) ∧
  (∀ (i : Instr) (s t : State), exec i s = .next t → t.keys = s.keys)

/-! ### Display -/

/-- R211: `CLS` zeroes every pixel of the whole grid, in either mode, and writes nothing else. -/
def Obligations.ClsClearsTheWholeGrid : Prop :=
  ∀ s : State, ∃ d : Display, (∀ px py, d.pixel px py = false) ∧
    (s.canFallThrough → exec .cls s = .next { s with display := d, pc := s.pc + 2 }) ∧
    (s.pc = 0xFFE → exec .cls s = .next { s with display := d, fault := some (.outOfBoundsAddress 0x1000) })

/-- `LOW` and `HIGH` select the mode and leave every pixel (45_display.md section 3; the spec's decisions D3 and D20). -/
def Obligations.ModeInstructionsKeepThePixels : Prop :=
  ∀ s : State,
    (s.canFallThrough → exec .low s = .next { s with mode := .normal, pc := s.pc + 2 } ∧
      exec .high s = .next { s with mode := .extended, pc := s.pc + 2 }) ∧
    (s.pc = 0xFFE → exec .low s = .next { s with mode := .normal, fault := some (.outOfBoundsAddress 0x1000) } ∧
      exec .high s = .next { s with mode := .extended, fault := some (.outOfBoundsAddress 0x1000) })

/-- `DRW` in closed form: with all sprite bytes in memory, each pixel of the active region is inverted exactly where the sprite,
wrapped at the edges, has a set bit; VF is 1 iff such a pixel was set, else 0; nothing else changes (45_display.md; the spec's
decisions D11 and D17 to D19). -/
def Obligations.DrawXorsTheSpriteAndReportsCollision : Prop :=
  ∀ (s : State) (x y : Reg) (n : Nibble) (wide : Bool) (rows x0 y0 : Nat),
    wide = decide (s.mode = .extended ∧ n = 0) → rows = (if wide then 16 else n.toNat) →
    x0 = (s.reg x).toNat → y0 = (s.reg y).toNat → s.i.toNat + rows * rowBytes wide ≤ 0x1000 →
    ∃ (d : Display) (v' : Vector Byte 16),
      (∀ px py, d.pixel px py = (s.display.pixel px py ^^ s.spriteCovers wide rows x0 y0 px py)) ∧
      (∀ r : Reg, r ≠ VF → v'[r.val] = s.reg r) ∧
      ((∃ px py, s.display.pixel px py = true ∧ s.spriteCovers wide rows x0 y0 px py = true) → v'[VF.val] = 1) ∧
      ((∀ px py, s.display.pixel px py = true → s.spriteCovers wide rows x0 y0 px py = false) → v'[VF.val] = 0) ∧
      (s.canFallThrough → exec (.drwVxVyN x y n) s = .next { s with display := d, v := v', pc := s.pc + 2 }) ∧
      (s.pc = 0xFFE → exec (.drwVxVyN x y n) s =
        .next { s with display := d, v := v', fault := some (.outOfBoundsAddress 0x1000) })

/-- `DRW` whose sprite runs past the end of memory: the rows whose bytes all exist are drawn, the others are not, VF and `PC` are not
written (45_display.md section 2; the spec's decision D11). -/
def Obligations.DrawPastTheEndStopsAtTheMissingRow : Prop :=
  ∀ (s : State) (x y : Reg) (n : Nibble) (wide : Bool) (rows x0 y0 : Nat),
    wide = decide (s.mode = .extended ∧ n = 0) → rows = (if wide then 16 else n.toNat) →
    x0 = (s.reg x).toNat → y0 = (s.reg y).toNat → 0x1000 < s.i.toNat + rows * rowBytes wide →
    ∃ d : Display,
      (∀ px py, d.pixel px py =
        (s.display.pixel px py ^^ s.spriteCovers wide ((0x1000 - s.i.toNat) / rowBytes wide) x0 y0 px py)) ∧
      exec (.drwVxVyN x y n) s = .next { s with display := d, fault := some (.outOfBoundsAddress 0x1000) }

/-- Two identical draws at the same place restore the pixels, whatever happened to other state in between
(45_display.md section 2). -/
def Obligations.DrawingTwiceRestoresThePixels : Prop :=
  ∀ (s t u : State) (x y : Reg) (n : Nibble), s.canFallThrough → s.fault = none →
    exec (.drwVxVyN x y n) s = .next t → t.fault = none →
    u.display = t.display → u.mem = s.mem → u.mode = s.mode → u.i = s.i → u.reg x = s.reg x → u.reg y = s.reg y →
    u.canFallThrough → ∃ r, exec (.drwVxVyN x y n) u = .next r ∧ r.display = s.display

/-- Drawing at `x = W` is drawing at `x = 0`, and so for every pair of coordinates equal modulo the active size
(45_display.md sections 1 and 2). -/
def Obligations.DrawCoordinatesWrap : Prop :=
  ∀ (s t : State) (v' : Vector Byte 16) (x y : Reg) (n : Nibble), s.canFallThrough → t = { s with v := v' } →
    (t.reg x).toNat % s.mode.width = (s.reg x).toNat % s.mode.width →
    (t.reg y).toNat % s.mode.height = (s.reg y).toNat % s.mode.height →
    ∃ s' t', exec (.drwVxVyN x y n) s = .next s' ∧ exec (.drwVxVyN x y n) t = .next t' ∧
      t'.display = s'.display ∧ t'.fault = s'.fault ∧ (s'.fault = none → t'.reg VF = s'.reg VF)

/-- What the host reads of the display: the size of the active region, its pixels and no other, and the set pixels among them
(45_display.md section 1; the spec's decision D32). -/
def Obligations.HostReadsSeeTheActiveRegion : Prop :=
  ∀ (s : State) (px py : Nat),
    (s.mode = .normal → s.resolution = (64, 32)) ∧ (s.mode = .extended → s.resolution = (128, 64)) ∧
    (px < s.resolution.1 → py < s.resolution.2 → s.getPixel px py = some (s.display.pixel px py)) ∧
    (¬ (px < s.resolution.1 ∧ py < s.resolution.2) → s.getPixel px py = none) ∧
    ((px, py) ∈ s.setPixels ↔ s.getPixel px py = some true)

/-! ### The whole machine -/

/-- No instruction's meaning ends the run: each answers a next state. Where a fault is recorded by the step, `PC` keeps the
instruction's address, and no instruction clears one (60_exceptions.md section 1). -/
def Obligations.EveryInstructionAnswersAndFaultsKeepPC : Prop :=
  ∀ (i : Instr) (s : State), ∃ t, exec i s = .next t ∧
    (s.fault = none → t.fault ≠ none → t.pc = s.pc) ∧ (t.fault = none → s.fault = none)

/-- Which instruction raises which fault, and when. An address beyond memory: going on past the last word, `JP V0,nnn` and `ADD I,Vx`
with their sum, `RET` to 0x1000, and a store, load or sprite that runs past 0xFFF. An odd target: the three that can propose one. The
stack, digit and key faults: before anything is written. The unknown word: by no instruction (60_exceptions.md section 1; the
`Unmodelled` faults are the spec's decisions D10, D14 and D15). -/
def Obligations.EachFaultHasItsCause : Prop :=
  ∀ (i : Instr) (s t : State) (k : FaultKind), s.Inv → s.fault = none → exec i s = .next t → t.fault = some k →
    (∀ a, k = .outOfBoundsAddress a →
      (s.pc = 0xFFE ∧ a = 0x1000 ∧ s.stride i = some 2) ∨
      (s.pc = 0xFFC ∧ a = 0x1000 ∧ s.stride i = some 4) ∨
      (s.pc = 0xFFE ∧ a = 0x1002 ∧ s.stride i = some 4) ∨
      (0x1000 ≤ a ∧ (∃ nnn, i = .jpV0Nnn nnn ∧ a = nnn.toNat + (s.reg 0).toNat) ∧ t = { s with fault := some k }) ∨
      (0x1000 ≤ a ∧ (∃ x, i = .addIVx x ∧ a = s.i.toNat + (s.reg x).toNat) ∧ t = { s with fault := some k }) ∨
      (a = 0x1000 ∧ i = .ret ∧ ∃ j : Fin 16, s.sp.val = j.val + 1 ∧ (s.stack[j.val]).toNat = 0x1000) ∨
      (a = 0x1000 ∧ ∃ x : Reg, i = .ldBVx x ∧ 0x1000 ≤ s.i.toNat + 2) ∨
      (a = 0x1000 ∧ ∃ x : Reg, (i = .ldMemVx x ∨ i = .ldVxMem x) ∧ 0x1000 ≤ s.i.toNat + x.val) ∨
      (a = 0x1000 ∧ ∃ x y n wide, i = .drwVxVyN x y n ∧ wide = decide (s.mode = .extended ∧ n = 0) ∧
        0x1000 < s.i.toNat + (if wide then 16 else n.toNat) * rowBytes wide)) ∧
    (k = .stackOverflow → (∃ nnn, i = .callNnn nnn) ∧ s.sp = 16 ∧ t = { s with fault := some k }) ∧
    (k = .stackUnderflow → i = .ret ∧ s.sp = 0 ∧ t = { s with fault := some k }) ∧
    (k = .unmodelled .oddPC →
      (∃ nnn, i = .jpNnn nnn ∧ nnn.toNat % 2 = 1 ∧ t = { s with fault := some k }) ∨
      (∃ nnn, i = .callNnn nnn ∧ nnn.toNat % 2 = 1 ∧ s.sp ≠ 16 ∧
        t = { s with stack := t.stack, sp := t.sp, fault := some k }) ∨
      (∃ nnn, i = .jpV0Nnn nnn ∧ nnn.toNat + (s.reg 0).toNat < 0x1000 ∧ (nnn.toNat + (s.reg 0).toNat) % 2 = 1 ∧
        t = { s with fault := some k })) ∧
    (k = .unmodelled .fontDigit → ∃ x, i = .ldFVx x ∧ 0xF < (s.reg x).toNat ∧ t = { s with fault := some k }) ∧
    (k = .unmodelled .keyIndex →
      ∃ x, (i = .skpVx x ∨ i = .sknpVx x) ∧ 0xF < (s.reg x).toNat ∧ t = { s with fault := some k }) ∧
    (∀ w, k ≠ .unknownInstruction w)

/-- Who writes what among the single registers: `I` by `LD I`, `ADD I`, `LD F`; the stack by `CALL`, `RET`; `DT` by `LD DT`; `ST` by
`LD ST`; `MODE` by `LOW`, `HIGH` (10_state.md); no instruction changes a parameter (00_scope.md section 4). The clauses on `draws`, which
`RND` alone changes, and on `schedule`, which no instruction changes, are about fields of the model's own and the model's choice, logs 1
and 2. -/
def Obligations.OnlyNamedInstructionsWriteTheSingleRegisters : Prop :=
  ∀ (i : Instr) (s t : State), exec i s = .next t →
    (t.i ≠ s.i → (∃ nnn, i = .ldINnn nnn) ∨ (∃ x, i = .addIVx x) ∨ ∃ x, i = .ldFVx x) ∧
    (t.sp ≠ s.sp → i = .ret ∨ ∃ nnn, i = .callNnn nnn) ∧
    (t.stack ≠ s.stack → ∃ nnn, i = .callNnn nnn) ∧
    (t.dt ≠ s.dt → ∃ x, i = .ldDtVx x) ∧
    (t.st ≠ s.st → ∃ x, i = .ldStVx x) ∧
    (t.mode ≠ s.mode → i = .low ∨ i = .high) ∧
    (t.draws ≠ s.draws → ∃ x kk, i = .rndVxKk x kk) ∧
    t.shiftSrc = s.shiftSrc ∧ t.fontBase = s.fontBase ∧ t.schedule = s.schedule

/-- Memory is written by `LD B,Vx` and `LD [I],Vx` alone, and only at their own addresses (20_memory.md section 4). -/
def Obligations.OnlyStoresChangeMemory : Prop :=
  ∀ (i : Instr) (s t : State) (a : Nat), Memory.wf s.mem = true → exec i s = .next t → t.byteAt a ≠ s.byteAt a →
    a < 0x1000 ∧ s.i.toNat ≤ a ∧
      ((∃ x, i = .ldBVx x ∧ a ≤ s.i.toNat + 2) ∨ ∃ x : Reg, i = .ldMemVx x ∧ a ≤ s.i.toNat + x.val)

/-- Over all events: a byte of memory changes only by a CPU step of `LD B,Vx` or `LD [I],Vx`, or by the program load from 0x200 on;
the cadences and the key events never touch memory (20_memory.md section 6, 60_exceptions.md section 3; events as in log 2). -/
def Obligations.OnlyStoresAndTheLoadChangeMemory : Prop :=
  ∀ (s t : State) (a : Nat), Memory.wf s.mem = true → step s = .next t → t.byteAt a ≠ s.byteAt a →
    a < 0x1000 ∧
    ((∃ bytes es, s.schedule = .loadProgram bytes :: es ∧ 0x200 ≤ a) ∨
     ((s.schedule = [] ∨ ∃ es, s.schedule = .cpu :: es) ∧ s.fault = none ∧
      ∃ w, fetch s = .ok w ∧ ∃ x, decodeWord w = .ok (.ldBVx x) ∨ decodeWord w = .ok (.ldMemVx x)))

/-- Pixels are written by `CLS` and `DRW` alone, and outside the active region by `CLS` alone (10_state.md section 7,
45_display.md section 1; the spec's decision D20). -/
def Obligations.OnlyClsAndDrwChangePixels : Prop :=
  ∀ (i : Instr) (s t : State) (px py : Nat), exec i s = .next t →
    t.display.pixel px py ≠ s.display.pixel px py →
    i = .cls ∨ ∃ x y n, i = .drwVxVyN x y n ∧ px < s.mode.width ∧ py < s.mode.height

/-- A register changes only as the destination an instruction names, or as VF by the six that write a flag (10_state.md section 1;
the spec's decisions D7 and D8). -/
def Obligations.OnlyDestinationsAndFlagsChangeRegisters : Prop :=
  ∀ (i : Instr) (s t : State) (r : Reg), exec i s = .next t → t.reg r ≠ s.reg r →
    (∃ kk, i = .ldVxKk r kk ∨ i = .addVxKk r kk ∨ i = .rndVxKk r kk) ∨
    (∃ y, i = .ldVxVy r y ∨ i = .orVxVy r y ∨ i = .andVxVy r y ∨ i = .xorVxVy r y) ∨
    (∃ x y, (r = x ∨ r = VF) ∧
      (i = .addVxVy x y ∨ i = .subVxVy x y ∨ i = .subnVxVy x y ∨ i = .shrVxVy x y ∨ i = .shlVxVy x y)) ∨
    (∃ x y n, r = VF ∧ i = .drwVxVyN x y n) ∨
    i = .ldVxDt r ∨ i = .ldVxK r ∨ (∃ x : Reg, r.val ≤ x.val ∧ i = .ldVxMem x)

/-- A block store over the next instruction is seen by the very next fetch (20_memory.md section 6). -/
def Obligations.StoreIsSeenByTheNextFetch : Prop :=
  ∀ (s : State) (x : Reg), Memory.wf s.mem = true → 1 ≤ x.val → s.pc.toNat % 2 = 0 → s.i.toNat = s.pc.toNat + 2 →
    s.i.toNat + x.val < 0x1000 →
    ∃ t, exec (.ldMemVx x) s = .next t ∧ t.pc = s.pc + 2 ∧ fetch t = .ok (s.reg 0 ++ s.reg 1)

/-- Halted at `a`: a jump to itself stands at `PC = a`, and the CPU step leaves all state unchanged (60_exceptions.md section 7; the
spec's decision D22; that the CPU steps when the schedule is empty is the model's choice, log 2). -/
def Obligations.HaltedStepChangesNothing : Prop :=
  ∀ (s : State) (a : Addr), s.haltedAt a → a.toNat % 2 = 0 → s.schedule = [] → step s = .next s

/-- Weak fairness of the cadences (60_exceptions.md sections 3 and 4, 70_reset_and_hazards.md section 4; runs and fairness as in
log 13). What `step` does with a run's first events as its schedule is the run, whatever stands in the schedule after them (log 2). In
a weakly fair run a timer that no instruction writes any more comes to zero for good, however many CPU steps fall between its ticks.
A run in which the CPU alone goes on from some point, while a timer runs, is not weakly fair. -/
def Obligations.FairRunsStopTheTimers : Prop :=
  ∀ (states : Nat → State) (events : Nat → Event), IsRun states events →
    (∀ n es, Host.Core.run Sys2Proof.core n { states 0 with schedule := (List.range n).map events ++ es } =
      .next { states n with schedule := es }) ∧
    (WeaklyFair states events → ∀ n,
      ((∀ m x, n ≤ m → events m = .cpu → fetch (states m) ≠ .ok (encode (.ldDtVx x))) →
        ∃ m, n ≤ m ∧ ∀ j, m ≤ j → (states j).dt = 0) ∧
      ((∀ m x, n ≤ m → events m = .cpu → fetch (states m) ≠ .ok (encode (.ldStVx x))) →
        ∃ m, n ≤ m ∧ ∀ j, m ≤ j → (states j).st = 0 ∧ (states j).tone = false)) ∧
    (∀ n, (∀ m, n ≤ m → events m = .cpu) → (states n).dt ≠ 0 ∨ (states n).st ≠ 0 →
      (∀ m x, n ≤ m → fetch (states m) ≠ .ok (encode (.ldDtVx x)) ∧ fetch (states m) ≠ .ok (encode (.ldStVx x))) →
      ¬ WeaklyFair states events)
end

