-- ==== Sys2Proof/Laws/Decode.lean ====
section
/-! SUPPORT. The fields of an encoded word, and what two rows that admit one word have in common (30_encoding.md R71, R74). -/

namespace Sys2Proof

/-- A bit of one of the four nibbles of a word. -/
theorem getLsbD_nibbles (a b c d : Nibble) (i : Nat) :
    (a ++ b ++ c ++ d : BitVec (4 + 4 + 4 + 4)).getLsbD i =
      if i < 4 then d.getLsbD i else if i < 8 then c.getLsbD (i - 4)
      else if i < 12 then b.getLsbD (i - 8) else a.getLsbD (i - 12) := by
  simp only [BitVec.getLsbD_append]
  by_cases h1 : i < 4
  · simp [h1]
  · by_cases h2 : i < 8
    · have : i - 4 < 4 := by omega
      simp [h1, h2, this]
    · by_cases h3 : i < 12
      · have h4 : ¬ i - 4 < 4 := by omega
        have h5 : i - 4 - 4 < 4 := by omega
        have h6 : i - 4 - 4 = i - 8 := by omega
        simp [h1, h2, h3, h4, h6, show i - 8 < 4 by omega]
      · have h4 : ¬ i - 4 < 4 := by omega
        have h5 : ¬ i - 8 < 4 := by omega
        have h6 : i - 4 - 4 = i - 8 := by omega
        have h7 : i - 8 - 4 = i - 12 := by omega
        simp [h1, h2, h3, h4, h6, h5, h7]

/-- A bit of a word of each format (R72). -/
theorem getLsbD_wordAddress (op : Nibble) (nnn : Addr) (i : Nat) :
    (wordAddress op nnn).getLsbD i = if i < 12 then nnn.getLsbD i else op.getLsbD (i - 12) := by
  have h : (op ++ nnn : BitVec (4 + 12)).getLsbD i = if i < 12 then nnn.getLsbD i else op.getLsbD (i - 12) := by
    simp only [BitVec.getLsbD_append]
  exact h

theorem getLsbD_wordByte (op : Nibble) (x : Reg) (kk : Byte) (i : Nat) :
    (wordByte op x kk).getLsbD i =
      if i < 8 then kk.getLsbD i else if i < 12 then (regBits x).getLsbD (i - 8) else op.getLsbD (i - 12) := by
  have h : (op ++ regBits x ++ kk : BitVec (4 + 4 + 8)).getLsbD i =
      if i < 8 then kk.getLsbD i else if i < 12 then (regBits x).getLsbD (i - 8) else op.getLsbD (i - 12) := by
    simp only [BitVec.getLsbD_append]
    by_cases h : i < 8
    · simp [h]
    · by_cases h2 : i < 12
      · simp [h, h2, show i - 8 < 4 by omega]
      · simp [h, h2, show ¬ i - 8 < 4 by omega, show i - 8 - 4 = i - 12 by omega]
  exact h

theorem getLsbD_wordRegister (op : Nibble) (x y : Reg) (n : Nibble) (i : Nat) :
    (wordRegister op x y n).getLsbD i =
      if i < 4 then n.getLsbD i else if i < 8 then (regBits y).getLsbD (i - 4)
      else if i < 12 then (regBits x).getLsbD (i - 8) else op.getLsbD (i - 12) :=
  getLsbD_nibbles op (regBits x) (regBits y) n i

theorem regBits_toFin (x : Reg) : (regBits x).toFin = x := rfl

theorem fieldX_wordByte (op : Nibble) (x : Reg) (kk : Byte) : fieldX (wordByte op x kk) = x := by
  have : (wordByte op x kk).extractLsb' 8 4 = regBits x := by
    apply BitVec.eq_of_getLsbD_eq
    intro i hi
    simp [getLsbD_wordByte, hi, show ¬ 8 + i < 8 by omega, show 8 + i < 12 by omega]
  rw [fieldX, this, regBits_toFin]

theorem fieldKK_wordByte (op : Nibble) (x : Reg) (kk : Byte) : fieldKK (wordByte op x kk) = kk := by
  apply BitVec.eq_of_getLsbD_eq
  intro i hi
  simp [fieldKK, getLsbD_wordByte, hi]

theorem fieldNNN_wordAddress (op : Nibble) (nnn : Addr) : fieldNNN (wordAddress op nnn) = nnn := by
  apply BitVec.eq_of_getLsbD_eq
  intro i hi
  simp [fieldNNN, getLsbD_wordAddress, hi]

theorem fieldX_wordRegister (op : Nibble) (x y : Reg) (n : Nibble) : fieldX (wordRegister op x y n) = x := by
  have : (wordRegister op x y n).extractLsb' 8 4 = regBits x := by
    apply BitVec.eq_of_getLsbD_eq
    intro i hi
    simp [getLsbD_wordRegister, hi, show ¬ 8 + i < 4 by omega, show ¬ 8 + i < 8 by omega, show 8 + i < 12 by omega]
  rw [fieldX, this, regBits_toFin]

theorem fieldY_wordRegister (op : Nibble) (x y : Reg) (n : Nibble) : fieldY (wordRegister op x y n) = y := by
  have : (wordRegister op x y n).extractLsb' 4 4 = regBits y := by
    apply BitVec.eq_of_getLsbD_eq
    intro i hi
    simp [getLsbD_wordRegister, hi, show ¬ 4 + i < 4 by omega, show 4 + i < 8 by omega]
  rw [fieldY, this, regBits_toFin]

theorem fieldN_wordRegister (op : Nibble) (x y : Reg) (n : Nibble) : fieldN (wordRegister op x y n) = n := by
  apply BitVec.eq_of_getLsbD_eq
  intro i hi
  simp [fieldN, getLsbD_wordRegister, hi]

/-- The bits of the four masks of R80. -/
theorem getLsbD_maskHigh : ∀ i < 16, (0xF000 : Word).getLsbD i = decide (12 ≤ i) := by decide

theorem getLsbD_maskEnds : ∀ i < 16, (0xF00F : Word).getLsbD i = (decide (i < 4) || decide (12 ≤ i)) := by decide

theorem getLsbD_maskSub : ∀ i < 16, (0xF0FF : Word).getLsbD i = (decide (i < 8) || decide (12 ≤ i)) := by decide

/-- Under the mask `0xF000` only the high nibble of a word counts. -/
theorem wordAddress_masked (op : Nibble) (nnn : Addr) : wordAddress op nnn &&& 0xF000 = wordAddress op 0 := by
  apply BitVec.eq_of_getLsbD_eq
  intro i hi
  rw [BitVec.getLsbD_and, getLsbD_maskHigh i hi, getLsbD_wordAddress, getLsbD_wordAddress]
  by_cases h : i < 12
  · simp [h, show ¬ 12 ≤ i by omega]
  · simp [h, show 12 ≤ i by omega]

theorem wordByte_masked (op : Nibble) (x : Reg) (kk : Byte) : wordByte op x kk &&& 0xF000 = wordAddress op 0 := by
  apply BitVec.eq_of_getLsbD_eq
  intro i hi
  rw [BitVec.getLsbD_and, getLsbD_maskHigh i hi, getLsbD_wordByte, getLsbD_wordAddress]
  by_cases h : i < 12
  · simp [h, show ¬ 12 ≤ i by omega]
  · simp [h, show 12 ≤ i by omega, show ¬ i < 8 by omega]

/-- Under the mask `0xF0FF` the register field does not count. -/
theorem wordByte_maskedSub (op : Nibble) (x : Reg) (kk : Byte) : wordByte op x kk &&& 0xF0FF = wordByte op 0 kk := by
  apply BitVec.eq_of_getLsbD_eq
  intro i hi
  rw [BitVec.getLsbD_and, getLsbD_maskSub i hi, getLsbD_wordByte, getLsbD_wordByte]
  by_cases h : i < 8
  · simp [h]
  · by_cases h2 : i < 12
    · simp [h, h2, show ¬ 12 ≤ i by omega, regBits]
    · simp [h, h2, show 12 ≤ i by omega]

/-- Under the mask `0xF00F` the two register fields do not count. -/
theorem wordRegister_masked (op : Nibble) (x y : Reg) (n : Nibble) :
    wordRegister op x y n &&& 0xF00F = wordRegister op 0 0 n := by
  apply BitVec.eq_of_getLsbD_eq
  intro i hi
  rw [BitVec.getLsbD_and, getLsbD_maskEnds i hi, getLsbD_wordRegister, getLsbD_wordRegister]
  by_cases h : i < 4
  · simp [h]
  · by_cases h2 : i < 8
    · simp [h, h2, show ¬ 12 ≤ i by omega, regBits]
    · by_cases h3 : i < 12
      · simp [h, h2, h3, show ¬ 12 ≤ i by omega, regBits]
      · simp [h, h2, h3, show 12 ≤ i by omega]

/-- Under the mask `0xF000` only the high nibble of a `DRW` word counts. -/
theorem wordRegister_maskedHigh (op : Nibble) (x y : Reg) (n : Nibble) :
    wordRegister op x y n &&& 0xF000 = wordAddress op 0 := by
  apply BitVec.eq_of_getLsbD_eq
  intro i hi
  rw [BitVec.getLsbD_and, getLsbD_maskHigh i hi, getLsbD_wordRegister, getLsbD_wordAddress]
  by_cases h : i < 12
  · simp [h, show ¬ 12 ≤ i by omega]
  · simp [h, show 12 ≤ i by omega, show ¬ i < 4 by omega, show ¬ i < 8 by omega]

/-- Two rows that admit one word agree where both masks look. -/
theorem Row.agree_of_admits {r q : Row} {w : Word} (hr : r.admits w = true) (hq : q.admits w = true) :
    r.pattern &&& q.mask = q.pattern &&& r.mask := by
  simp only [Row.admits, beq_iff_eq] at hr hq
  rw [← hr, ← hq, BitVec.and_assoc, BitVec.and_assoc, BitVec.and_comm r.mask]

/-- No two rows of the table agree where both masks look. -/
theorem opcodeTable_apart :
    opcodeTable.Pairwise fun r q => r.pattern &&& q.mask ≠ q.pattern &&& r.mask := by
  unfold opcodeTable rowsFixed rowsAddress rowsByte rowsRegister rowsDraw rowsSub
  decide +kernel

/-! ### The words as numbers (R71) -/

theorem wordAddress_toNat (op : Nibble) (nnn : Addr) : (wordAddress op nnn).toNat = op.toNat * 0x1000 + nnn.toNat := by
  unfold wordAddress
  rw [BitVec.toNat_append, ← Nat.shiftLeft_add_eq_or_of_lt nnn.isLt, Nat.shiftLeft_eq]

theorem regBits_toNat (x : Reg) : (regBits x).toNat = x.val := rfl

theorem wordByte_toNat (op : Nibble) (x : Reg) (kk : Byte) :
    (wordByte op x kk).toNat = op.toNat * 0x1000 + x.val * 0x100 + kk.toNat := by
  unfold wordByte
  rw [BitVec.toNat_append, ← Nat.shiftLeft_add_eq_or_of_lt kk.isLt, Nat.shiftLeft_eq, BitVec.toNat_append,
    ← Nat.shiftLeft_add_eq_or_of_lt (regBits x).isLt, Nat.shiftLeft_eq, regBits_toNat]
  omega

theorem wordRegister_toNat (op : Nibble) (x y : Reg) (n : Nibble) :
    (wordRegister op x y n).toNat = op.toNat * 0x1000 + x.val * 0x100 + y.val * 0x10 + n.toNat := by
  unfold wordRegister
  rw [BitVec.toNat_append, ← Nat.shiftLeft_add_eq_or_of_lt n.isLt, Nat.shiftLeft_eq, BitVec.toNat_append,
    ← Nat.shiftLeft_add_eq_or_of_lt (regBits y).isLt, Nat.shiftLeft_eq, BitVec.toNat_append,
    ← Nat.shiftLeft_add_eq_or_of_lt (regBits x).isLt, Nat.shiftLeft_eq, regBits_toNat, regBits_toNat]
  omega

/-! ### The fields and the masks as numbers (R71, R74) -/

/-- The major opcode `op = w[15:12]` (R71). -/
def opField (w : Word) : Nibble := w.extractLsb' 12 4

theorem opField_toNat (w : Word) : (opField w).toNat = w.toNat / 0x1000 := by
  have := w.isLt
  simp only [opField, BitVec.extractLsb'_toNat, Nat.shiftRight_eq_div_pow]
  omega

theorem fieldX_val (w : Word) : (fieldX w).val = w.toNat / 0x100 % 0x10 := by
  show (w.extractLsb' 8 4).toNat = _
  rw [BitVec.extractLsb'_toNat, Nat.shiftRight_eq_div_pow]

theorem fieldY_val (w : Word) : (fieldY w).val = w.toNat / 0x10 % 0x10 := by
  show (w.extractLsb' 4 4).toNat = _
  rw [BitVec.extractLsb'_toNat, Nat.shiftRight_eq_div_pow]

theorem fieldN_toNat (w : Word) : (fieldN w).toNat = w.toNat % 0x10 := by
  simp only [fieldN, BitVec.extractLsb'_toNat, Nat.shiftRight_eq_div_pow]
  omega

theorem fieldKK_toNat (w : Word) : (fieldKK w).toNat = w.toNat % 0x100 := by
  simp only [fieldKK, BitVec.extractLsb'_toNat, Nat.shiftRight_eq_div_pow]
  omega

theorem fieldNNN_toNat (w : Word) : (fieldNNN w).toNat = w.toNat % 0x1000 := by
  simp only [fieldNNN, BitVec.extractLsb'_toNat, Nat.shiftRight_eq_div_pow]
  omega

/-- Every word is made of its fields, in each format. -/
theorem word_eq_address (w : Word) : w = wordAddress (opField w) (fieldNNN w) := by
  apply BitVec.eq_of_toNat_eq
  rw [wordAddress_toNat, opField_toNat, fieldNNN_toNat]
  omega

theorem word_eq_byte (w : Word) : w = wordByte (opField w) (fieldX w) (fieldKK w) := by
  apply BitVec.eq_of_toNat_eq
  rw [wordByte_toNat, opField_toNat, fieldX_val, fieldKK_toNat]
  omega

theorem word_eq_register (w : Word) : w = wordRegister (opField w) (fieldX w) (fieldY w) (fieldN w) := by
  apply BitVec.eq_of_toNat_eq
  rw [wordRegister_toNat, opField_toNat, fieldX_val, fieldY_val, fieldN_toNat]
  omega

/-- What the three masks of the opcode table leave, as a number. -/
theorem and_maskHigh_toNat (w : Word) : (w &&& 0xF000).toNat = w.toNat / 0x1000 * 0x1000 := by
  conv_lhs => rw [word_eq_address w]
  rw [wordAddress_masked, wordAddress_toNat, opField_toNat]
  simp

theorem and_maskEnds_toNat (w : Word) : (w &&& 0xF00F).toNat = w.toNat / 0x1000 * 0x1000 + w.toNat % 0x10 := by
  conv_lhs => rw [word_eq_register w]
  rw [wordRegister_masked, wordRegister_toNat, opField_toNat, fieldN_toNat]
  simp

theorem and_maskSub_toNat (w : Word) : (w &&& 0xF0FF).toNat = w.toNat / 0x1000 * 0x1000 + w.toNat % 0x100 := by
  conv_lhs => rw [word_eq_byte w]
  rw [wordByte_maskedSub, wordByte_toNat, opField_toNat, fieldKK_toNat]
  simp

theorem and_maskAll (w : Word) : w &&& 0xFFFF = w := BitVec.and_allOnes

/-- What decoding says, in terms of the rows. -/
theorem decodeWord_ok {w : Word} {i : Instr} (h : decodeWord w = .ok i) : ∃ r ∈ opcodeTable, r.admits w = true ∧ i = r.build w := by
  unfold decodeWord at h
  split at h
  · next r hr =>
    injection h with h
    exact ⟨r, List.mem_of_find?_eq_some hr, List.find?_some (p := fun r : Row => r.admits w) hr, h.symm⟩
  · cases h

theorem decodeWord_of_admits {w : Word} {r : Row} (hm : r ∈ opcodeTable) (ha : r.admits w = true) : ∃ i, decodeWord w = .ok i := by
  unfold decodeWord
  cases hf : opcodeTable.find? fun r => r.admits w with
  | some q => exact ⟨_, rfl⟩
  | none => exact absurd ha (List.find?_eq_none.mp hf r hm)

theorem decodeWord_error {w : Word} (h : ∀ r ∈ opcodeTable, r.admits w = false) : decodeWord w = .error (.unknownInstruction w) := by
  unfold decodeWord
  have : opcodeTable.find? (fun r : Row => r.admits w) = none := by
    rw [List.find?_eq_none]
    intro r hr
    rw [h r hr]
    exact Bool.false_ne_true
  rw [this]

/-- The test of a row as a comparison of numbers. -/
theorem Row.admits_iff (r : Row) (w : Word) : r.admits w = true ↔ (w &&& r.mask).toNat = r.pattern.toNat := by
  rw [Row.admits, beq_iff_eq, BitVec.toNat_inj]

/-- When a row admits a word, for each of the masks of the table. -/
theorem Row.admits_high (p : Word) (b : Word → Instr) (w : Word) (hp : p.toNat % 0x1000 = 0) :
    Row.admits ⟨0xF000, p, b⟩ w = true ↔ w.toNat / 0x1000 = p.toNat / 0x1000 := by
  rw [Row.admits_iff, and_maskHigh_toNat]
  have := w.isLt
  have := p.isLt
  show _ = p.toNat ↔ _
  omega

theorem Row.admits_ends (p : Word) (b : Word → Instr) (w : Word) (hp : p.toNat % 0x1000 < 0x10) :
    Row.admits ⟨0xF00F, p, b⟩ w = true ↔ w.toNat / 0x1000 = p.toNat / 0x1000 ∧ w.toNat % 0x10 = p.toNat % 0x1000 := by
  rw [Row.admits_iff, and_maskEnds_toNat]
  have := w.isLt
  have := p.isLt
  show _ = p.toNat ↔ _
  omega

theorem Row.admits_sub (p : Word) (b : Word → Instr) (w : Word) (hp : p.toNat % 0x1000 < 0x100) :
    Row.admits ⟨0xF0FF, p, b⟩ w = true ↔ w.toNat / 0x1000 = p.toNat / 0x1000 ∧ w.toNat % 0x100 = p.toNat % 0x1000 := by
  rw [Row.admits_iff, and_maskSub_toNat]
  have := w.isLt
  have := p.isLt
  show _ = p.toNat ↔ _
  omega

theorem Row.admits_all (p : Word) (b : Word → Instr) (w : Word) : Row.admits ⟨0xFFFF, p, b⟩ w = true ↔ w = p := by
  rw [Row.admits, and_maskAll, beq_iff_eq]

end Sys2Proof
end

