-- ==== Sys2Proof/Laws/Memory.lean ====
section
/-! SUPPORT. The laws of memory: read after write, and the canonical form (20_memory.md R50, R59). -/

namespace Sys2Proof.Machine

theorem Memory.read_consCell (a c : Nat) (b : Byte) (m : Memory) (h : Memory.read m a = Memory.unlisted a) :
    Memory.read (Memory.consCell a b m) c = if c = a then b else Memory.read m c := by
  unfold Memory.consCell
  by_cases hb : b = Memory.unlisted a
  · by_cases hc : c = a
    · subst hc; simp [hb, h]
    · simp [hb, hc]
  · by_cases hc : c = a
    · subst hc; simp [hb, Memory.read]
    · simp [hb, hc, Memory.read, Ne.symm hc]

/-- Below the first listed address memory reads as unlisted. -/
theorem Memory.read_of_wfFrom {m : Memory} : ∀ {lo a : Nat}, Memory.wfFrom lo m = true → a < lo →
    Memory.read m a = Memory.unlisted a := by
  induction m with
  | nil => intros; rfl
  | cons cell m ih =>
    obtain ⟨k, b⟩ := cell
    intro lo a h ha
    simp only [Memory.wfFrom, Bool.and_eq_true, decide_eq_true_eq] at h
    have hk : k ≠ a := by omega
    simp only [Memory.read, hk, if_false]
    exact ih h.2 (by omega)

theorem Memory.wfFrom_mono {m : Memory} {lo lo' : Nat} (h : Memory.wfFrom lo m = true) (hl : lo' ≤ lo) :
    Memory.wfFrom lo' m = true := by
  cases m with
  | nil => rfl
  | cons cell m =>
    obtain ⟨k, b⟩ := cell
    simp only [Memory.wfFrom, Bool.and_eq_true, decide_eq_true_eq] at h ⊢
    exact ⟨⟨⟨by omega, h.1.1.2⟩, h.1.2⟩, h.2⟩

theorem Memory.wfFrom_consCell {m : Memory} {lo a : Nat} {b : Byte} (h : Memory.wfFrom (a + 1) m = true)
    (hl : lo ≤ a) (ha : a < Memory.size) : Memory.wfFrom lo (Memory.consCell a b m) = true := by
  unfold Memory.consCell
  by_cases hb : b = Memory.unlisted a
  · simpa [hb] using Memory.wfFrom_mono h (by omega)
  · simp [hb, Memory.wfFrom, h, hl, ha]

theorem Memory.wfFrom_write {m : Memory} : ∀ {lo a : Nat} {b : Byte}, Memory.wfFrom lo m = true → lo ≤ a →
    a < Memory.size → Memory.wfFrom lo (Memory.write m a b) = true := by
  induction m with
  | nil => intro lo a b _ hl ha; exact Memory.wfFrom_consCell rfl hl ha
  | cons cell m ih =>
    obtain ⟨k, c⟩ := cell
    intro lo a b h hl ha
    have h' := h
    simp only [Memory.wfFrom, Bool.and_eq_true, decide_eq_true_eq] at h
    unfold Memory.write
    split
    · next hk =>
      simp only [Memory.wfFrom, Bool.and_eq_true, decide_eq_true_eq]
      exact ⟨h.1, ih h.2 (by omega) ha⟩
    · split
      · next hk => subst hk; exact Memory.wfFrom_consCell h.2 hl ha
      · refine Memory.wfFrom_consCell ?_ hl ha
        simp only [Memory.wfFrom, Bool.and_eq_true, decide_eq_true_eq]
        exact ⟨⟨⟨by omega, h.1.1.2⟩, h.1.2⟩, h.2⟩

/-- Every store inside memory keeps the canonical form. -/
theorem Memory.wf_write {m : Memory} {a : Nat} (b : Byte) (h : Memory.wf m = true) (ha : a < Memory.size) :
    Memory.wf (Memory.write m a b) = true := Memory.wfFrom_write h (Nat.zero_le a) ha

theorem Memory.read_write_from {m : Memory} : ∀ {lo : Nat} (a c : Nat) (b : Byte), Memory.wfFrom lo m = true →
    Memory.read (Memory.write m a b) c = if c = a then b else Memory.read m c := by
  induction m with
  | nil => intro lo a c b _; exact Memory.read_consCell a c b [] rfl
  | cons cell m ih =>
    obtain ⟨k, d⟩ := cell
    intro lo a c b h
    simp only [Memory.wfFrom, Bool.and_eq_true, decide_eq_true_eq] at h
    unfold Memory.write
    split
    · next hk =>
      simp only [Memory.read]
      by_cases hc : k = c
      · have : c ≠ a := by omega
        simp [hc, this]
      · simp only [hc, if_false]; exact ih a c b h.2
    · split
      · next hk =>
        subst hk
        rw [Memory.read_consCell k c b m (Memory.read_of_wfFrom h.2 (by omega))]
        by_cases hc : c = k
        · simp [hc]
        · simp [hc, Memory.read, Ne.symm hc]
      · rw [Memory.read_consCell]
        have hk : k ≠ a := by omega
        simp only [Memory.read, hk, if_false]
        exact Memory.read_of_wfFrom h.2 (by omega)

/-- A store changes its own byte and no other. -/
theorem Memory.read_write {m : Memory} (a c : Nat) (b : Byte) (h : Memory.wf m = true) :
    Memory.read (Memory.write m a b) c = if c = a then b else Memory.read m c := Memory.read_write_from a c b h

/-- Loading bytes keeps the canonical form. -/
theorem Memory.wf_writeBytes (bs : List Byte) : ∀ {m : Memory} (a : Nat), Memory.wf m = true →
    Memory.wf (Memory.writeBytes m a bs) = true := by
  induction bs with
  | nil => intro m a h; exact h
  | cons b bs ih =>
    intro m a h
    unfold Memory.writeBytes
    split
    · next ha => exact ih (a + 1) (Memory.wf_write b h ha)
    · exact ih (a + 1) h

/-- What memory reads as after bytes are loaded at `a`. -/
theorem Memory.read_writeBytes (bs : List Byte) : ∀ {m : Memory} (a c : Nat), Memory.wf m = true →
    Memory.read (Memory.writeBytes m a bs) c =
      if a ≤ c ∧ c < a + bs.length ∧ c < Memory.size then bs.getD (c - a) 0 else Memory.read m c := by
  induction bs with
  | nil =>
    intro m a c _
    have : ¬ (a ≤ c ∧ c < a + ([] : List Byte).length ∧ c < Memory.size) := by simp; omega
    rw [if_neg this]; rfl
  | cons b bs ih =>
    intro m a c h
    have hwf : Memory.wf (if a < Memory.size then Memory.write m a b else m) = true := by
      split
      · next ha => exact Memory.wf_write b h ha
      · exact h
    rw [Memory.writeBytes, ih (a + 1) c hwf]
    have hr : Memory.read (if a < Memory.size then Memory.write m a b else m) c =
        if c = a ∧ a < Memory.size then b else Memory.read m c := by
      by_cases ha : a < Memory.size <;> simp [ha, Memory.read_write _ _ _ h]
    rw [hr]
    by_cases hc : c = a
    · subst hc
      by_cases ha : c < Memory.size <;> simp [ha]
    · by_cases h1 : a + 1 ≤ c ∧ c < a + 1 + bs.length ∧ c < Memory.size
      · have h2 : a ≤ c ∧ c < a + (b :: bs).length ∧ c < Memory.size := by
          simp only [List.length_cons]; omega
        have h3 : c - a = (c - (a + 1)) + 1 := by omega
        rw [if_pos h1, if_pos h2, h3, List.getD_cons_succ]
      · have h2 : ¬ (a ≤ c ∧ c < a + (b :: bs).length ∧ c < Memory.size) := by
          simp only [List.length_cons]; omega
        rw [if_neg h1, if_neg h2]; simp [hc]

/-- Two memories in canonical form that read alike are the same list. -/
theorem Memory.ext_of_read {m : Memory} : ∀ {m' : Memory} {lo : Nat}, Memory.wfFrom lo m = true →
    Memory.wfFrom lo m' = true → (∀ a, Memory.read m a = Memory.read m' a) → m = m' := by
  induction m with
  | nil =>
    intro m' lo _ h' hr
    cases m' with
    | nil => rfl
    | cons cell m' =>
      obtain ⟨k, b⟩ := cell
      simp only [Memory.wfFrom, Bool.and_eq_true, decide_eq_true_eq] at h'
      have := hr k
      simp only [Memory.read, if_true] at this
      exact absurd this.symm h'.1.2
  | cons cell m ih =>
    obtain ⟨k, b⟩ := cell
    intro m' lo h h' hr
    cases m' with
    | nil =>
      simp only [Memory.wfFrom, Bool.and_eq_true, decide_eq_true_eq] at h
      have := hr k
      simp only [Memory.read, if_true] at this
      exact absurd this h.1.2
    | cons cell' m' =>
      obtain ⟨k', b'⟩ := cell'
      simp only [Memory.wfFrom, Bool.and_eq_true, decide_eq_true_eq] at h h'
      have hk : k = k' := by
        rcases Nat.lt_trichotomy k k' with hlt | heq | hgt
        · have := hr k
          simp only [Memory.read, if_true] at this
          rw [if_neg (by omega), Memory.read_of_wfFrom h'.2 (by omega)] at this
          exact absurd this h.1.2
        · exact heq
        · have := hr k'
          simp only [Memory.read, if_true] at this
          rw [if_neg (by omega), Memory.read_of_wfFrom h.2 (by omega)] at this
          exact absurd this.symm h'.1.2
      subst hk
      have hb : b = b' := by simpa [Memory.read] using hr k
      subst hb
      congr 1
      refine ih h.2 h'.2 fun a => ?_
      by_cases ha : k = a
      · subst ha
        rw [Memory.read_of_wfFrom h.2 (by omega), Memory.read_of_wfFrom h'.2 (by omega)]
      · simpa [Memory.read, ha] using hr a

end Sys2Proof.Machine
end

