-- ==== Sys2Proof/Laws/State.lean ====
section
/-! SUPPORT. One lemma for each field of State and each update of Machine/Ops.lean, so that no proof unfolds a record update. -/

namespace Sys2Proof.Machine

variable (s : State)

/-! ### setReg -/

@[simp] theorem State.setReg_v (x : Reg) (b : Byte) : (s.setReg x b).v = s.v.set x.val b := rfl
@[simp] theorem State.setReg_i (x : Reg) (b : Byte) : (s.setReg x b).i = s.i := rfl
@[simp] theorem State.setReg_pc (x : Reg) (b : Byte) : (s.setReg x b).pc = s.pc := rfl
@[simp] theorem State.setReg_sp (x : Reg) (b : Byte) : (s.setReg x b).sp = s.sp := rfl
@[simp] theorem State.setReg_stack (x : Reg) (b : Byte) : (s.setReg x b).stack = s.stack := rfl
@[simp] theorem State.setReg_dt (x : Reg) (b : Byte) : (s.setReg x b).dt = s.dt := rfl
@[simp] theorem State.setReg_st (x : Reg) (b : Byte) : (s.setReg x b).st = s.st := rfl
@[simp] theorem State.setReg_keys (x : Reg) (b : Byte) : (s.setReg x b).keys = s.keys := rfl
@[simp] theorem State.setReg_display (x : Reg) (b : Byte) : (s.setReg x b).display = s.display := rfl
@[simp] theorem State.setReg_mode (x : Reg) (b : Byte) : (s.setReg x b).mode = s.mode := rfl
@[simp] theorem State.setReg_mem (x : Reg) (b : Byte) : (s.setReg x b).mem = s.mem := rfl
@[simp] theorem State.setReg_fault (x : Reg) (b : Byte) : (s.setReg x b).fault = s.fault := rfl
@[simp] theorem State.setReg_shiftSrc (x : Reg) (b : Byte) : (s.setReg x b).shiftSrc = s.shiftSrc := rfl
@[simp] theorem State.setReg_fontBase (x : Reg) (b : Byte) : (s.setReg x b).fontBase = s.fontBase := rfl
@[simp] theorem State.setReg_draws (x : Reg) (b : Byte) : (s.setReg x b).draws = s.draws := rfl
@[simp] theorem State.setReg_schedule (x : Reg) (b : Byte) : (s.setReg x b).schedule = s.schedule := rfl

/-! ### setI -/

@[simp] theorem State.setI_v (a : Addr) : (s.setI a).v = s.v := rfl
@[simp] theorem State.setI_i (a : Addr) : (s.setI a).i = a := rfl
@[simp] theorem State.setI_pc (a : Addr) : (s.setI a).pc = s.pc := rfl
@[simp] theorem State.setI_sp (a : Addr) : (s.setI a).sp = s.sp := rfl
@[simp] theorem State.setI_stack (a : Addr) : (s.setI a).stack = s.stack := rfl
@[simp] theorem State.setI_dt (a : Addr) : (s.setI a).dt = s.dt := rfl
@[simp] theorem State.setI_st (a : Addr) : (s.setI a).st = s.st := rfl
@[simp] theorem State.setI_keys (a : Addr) : (s.setI a).keys = s.keys := rfl
@[simp] theorem State.setI_display (a : Addr) : (s.setI a).display = s.display := rfl
@[simp] theorem State.setI_mode (a : Addr) : (s.setI a).mode = s.mode := rfl
@[simp] theorem State.setI_mem (a : Addr) : (s.setI a).mem = s.mem := rfl
@[simp] theorem State.setI_fault (a : Addr) : (s.setI a).fault = s.fault := rfl
@[simp] theorem State.setI_shiftSrc (a : Addr) : (s.setI a).shiftSrc = s.shiftSrc := rfl
@[simp] theorem State.setI_fontBase (a : Addr) : (s.setI a).fontBase = s.fontBase := rfl
@[simp] theorem State.setI_draws (a : Addr) : (s.setI a).draws = s.draws := rfl
@[simp] theorem State.setI_schedule (a : Addr) : (s.setI a).schedule = s.schedule := rfl

/-! ### setPC -/

@[simp] theorem State.setPC_v (a : Addr) : (s.setPC a).v = s.v := rfl
@[simp] theorem State.setPC_i (a : Addr) : (s.setPC a).i = s.i := rfl
@[simp] theorem State.setPC_pc (a : Addr) : (s.setPC a).pc = a := rfl
@[simp] theorem State.setPC_sp (a : Addr) : (s.setPC a).sp = s.sp := rfl
@[simp] theorem State.setPC_stack (a : Addr) : (s.setPC a).stack = s.stack := rfl
@[simp] theorem State.setPC_dt (a : Addr) : (s.setPC a).dt = s.dt := rfl
@[simp] theorem State.setPC_st (a : Addr) : (s.setPC a).st = s.st := rfl
@[simp] theorem State.setPC_keys (a : Addr) : (s.setPC a).keys = s.keys := rfl
@[simp] theorem State.setPC_display (a : Addr) : (s.setPC a).display = s.display := rfl
@[simp] theorem State.setPC_mode (a : Addr) : (s.setPC a).mode = s.mode := rfl
@[simp] theorem State.setPC_mem (a : Addr) : (s.setPC a).mem = s.mem := rfl
@[simp] theorem State.setPC_fault (a : Addr) : (s.setPC a).fault = s.fault := rfl
@[simp] theorem State.setPC_shiftSrc (a : Addr) : (s.setPC a).shiftSrc = s.shiftSrc := rfl
@[simp] theorem State.setPC_fontBase (a : Addr) : (s.setPC a).fontBase = s.fontBase := rfl
@[simp] theorem State.setPC_draws (a : Addr) : (s.setPC a).draws = s.draws := rfl
@[simp] theorem State.setPC_schedule (a : Addr) : (s.setPC a).schedule = s.schedule := rfl

/-! ### setStack -/

@[simp] theorem State.setStack_v (k : Vector (BitVec 13) 16) (p : Fin 17) : (s.setStack k p).v = s.v := rfl
@[simp] theorem State.setStack_i (k : Vector (BitVec 13) 16) (p : Fin 17) : (s.setStack k p).i = s.i := rfl
@[simp] theorem State.setStack_pc (k : Vector (BitVec 13) 16) (p : Fin 17) : (s.setStack k p).pc = s.pc := rfl
@[simp] theorem State.setStack_sp (k : Vector (BitVec 13) 16) (p : Fin 17) : (s.setStack k p).sp = p := rfl
@[simp] theorem State.setStack_stack (k : Vector (BitVec 13) 16) (p : Fin 17) : (s.setStack k p).stack = k := rfl
@[simp] theorem State.setStack_dt (k : Vector (BitVec 13) 16) (p : Fin 17) : (s.setStack k p).dt = s.dt := rfl
@[simp] theorem State.setStack_st (k : Vector (BitVec 13) 16) (p : Fin 17) : (s.setStack k p).st = s.st := rfl
@[simp] theorem State.setStack_keys (k : Vector (BitVec 13) 16) (p : Fin 17) : (s.setStack k p).keys = s.keys := rfl
@[simp] theorem State.setStack_display (k : Vector (BitVec 13) 16) (p : Fin 17) : (s.setStack k p).display = s.display := rfl
@[simp] theorem State.setStack_mode (k : Vector (BitVec 13) 16) (p : Fin 17) : (s.setStack k p).mode = s.mode := rfl
@[simp] theorem State.setStack_mem (k : Vector (BitVec 13) 16) (p : Fin 17) : (s.setStack k p).mem = s.mem := rfl
@[simp] theorem State.setStack_fault (k : Vector (BitVec 13) 16) (p : Fin 17) : (s.setStack k p).fault = s.fault := rfl
@[simp] theorem State.setStack_shiftSrc (k : Vector (BitVec 13) 16) (p : Fin 17) : (s.setStack k p).shiftSrc = s.shiftSrc := rfl
@[simp] theorem State.setStack_fontBase (k : Vector (BitVec 13) 16) (p : Fin 17) : (s.setStack k p).fontBase = s.fontBase := rfl
@[simp] theorem State.setStack_draws (k : Vector (BitVec 13) 16) (p : Fin 17) : (s.setStack k p).draws = s.draws := rfl
@[simp] theorem State.setStack_schedule (k : Vector (BitVec 13) 16) (p : Fin 17) : (s.setStack k p).schedule = s.schedule := rfl

/-! ### setDT -/

@[simp] theorem State.setDT_v (b : Byte) : (s.setDT b).v = s.v := rfl
@[simp] theorem State.setDT_i (b : Byte) : (s.setDT b).i = s.i := rfl
@[simp] theorem State.setDT_pc (b : Byte) : (s.setDT b).pc = s.pc := rfl
@[simp] theorem State.setDT_sp (b : Byte) : (s.setDT b).sp = s.sp := rfl
@[simp] theorem State.setDT_stack (b : Byte) : (s.setDT b).stack = s.stack := rfl
@[simp] theorem State.setDT_dt (b : Byte) : (s.setDT b).dt = b := rfl
@[simp] theorem State.setDT_st (b : Byte) : (s.setDT b).st = s.st := rfl
@[simp] theorem State.setDT_keys (b : Byte) : (s.setDT b).keys = s.keys := rfl
@[simp] theorem State.setDT_display (b : Byte) : (s.setDT b).display = s.display := rfl
@[simp] theorem State.setDT_mode (b : Byte) : (s.setDT b).mode = s.mode := rfl
@[simp] theorem State.setDT_mem (b : Byte) : (s.setDT b).mem = s.mem := rfl
@[simp] theorem State.setDT_fault (b : Byte) : (s.setDT b).fault = s.fault := rfl
@[simp] theorem State.setDT_shiftSrc (b : Byte) : (s.setDT b).shiftSrc = s.shiftSrc := rfl
@[simp] theorem State.setDT_fontBase (b : Byte) : (s.setDT b).fontBase = s.fontBase := rfl
@[simp] theorem State.setDT_draws (b : Byte) : (s.setDT b).draws = s.draws := rfl
@[simp] theorem State.setDT_schedule (b : Byte) : (s.setDT b).schedule = s.schedule := rfl

/-! ### setST -/

@[simp] theorem State.setST_v (b : Byte) : (s.setST b).v = s.v := rfl
@[simp] theorem State.setST_i (b : Byte) : (s.setST b).i = s.i := rfl
@[simp] theorem State.setST_pc (b : Byte) : (s.setST b).pc = s.pc := rfl
@[simp] theorem State.setST_sp (b : Byte) : (s.setST b).sp = s.sp := rfl
@[simp] theorem State.setST_stack (b : Byte) : (s.setST b).stack = s.stack := rfl
@[simp] theorem State.setST_dt (b : Byte) : (s.setST b).dt = s.dt := rfl
@[simp] theorem State.setST_st (b : Byte) : (s.setST b).st = b := rfl
@[simp] theorem State.setST_keys (b : Byte) : (s.setST b).keys = s.keys := rfl
@[simp] theorem State.setST_display (b : Byte) : (s.setST b).display = s.display := rfl
@[simp] theorem State.setST_mode (b : Byte) : (s.setST b).mode = s.mode := rfl
@[simp] theorem State.setST_mem (b : Byte) : (s.setST b).mem = s.mem := rfl
@[simp] theorem State.setST_fault (b : Byte) : (s.setST b).fault = s.fault := rfl
@[simp] theorem State.setST_shiftSrc (b : Byte) : (s.setST b).shiftSrc = s.shiftSrc := rfl
@[simp] theorem State.setST_fontBase (b : Byte) : (s.setST b).fontBase = s.fontBase := rfl
@[simp] theorem State.setST_draws (b : Byte) : (s.setST b).draws = s.draws := rfl
@[simp] theorem State.setST_schedule (b : Byte) : (s.setST b).schedule = s.schedule := rfl

/-! ### putKey -/

@[simp] theorem State.putKey_v (k : Key) (b : Bool) : (s.putKey k b).v = s.v := rfl
@[simp] theorem State.putKey_i (k : Key) (b : Bool) : (s.putKey k b).i = s.i := rfl
@[simp] theorem State.putKey_pc (k : Key) (b : Bool) : (s.putKey k b).pc = s.pc := rfl
@[simp] theorem State.putKey_sp (k : Key) (b : Bool) : (s.putKey k b).sp = s.sp := rfl
@[simp] theorem State.putKey_stack (k : Key) (b : Bool) : (s.putKey k b).stack = s.stack := rfl
@[simp] theorem State.putKey_dt (k : Key) (b : Bool) : (s.putKey k b).dt = s.dt := rfl
@[simp] theorem State.putKey_st (k : Key) (b : Bool) : (s.putKey k b).st = s.st := rfl
@[simp] theorem State.putKey_keys (k : Key) (b : Bool) : (s.putKey k b).keys = s.keys.set k.val b := rfl
@[simp] theorem State.putKey_display (k : Key) (b : Bool) : (s.putKey k b).display = s.display := rfl
@[simp] theorem State.putKey_mode (k : Key) (b : Bool) : (s.putKey k b).mode = s.mode := rfl
@[simp] theorem State.putKey_mem (k : Key) (b : Bool) : (s.putKey k b).mem = s.mem := rfl
@[simp] theorem State.putKey_fault (k : Key) (b : Bool) : (s.putKey k b).fault = s.fault := rfl
@[simp] theorem State.putKey_shiftSrc (k : Key) (b : Bool) : (s.putKey k b).shiftSrc = s.shiftSrc := rfl
@[simp] theorem State.putKey_fontBase (k : Key) (b : Bool) : (s.putKey k b).fontBase = s.fontBase := rfl
@[simp] theorem State.putKey_draws (k : Key) (b : Bool) : (s.putKey k b).draws = s.draws := rfl
@[simp] theorem State.putKey_schedule (k : Key) (b : Bool) : (s.putKey k b).schedule = s.schedule := rfl

/-! ### setDisplay -/

@[simp] theorem State.setDisplay_v (d : Display) : (s.setDisplay d).v = s.v := rfl
@[simp] theorem State.setDisplay_i (d : Display) : (s.setDisplay d).i = s.i := rfl
@[simp] theorem State.setDisplay_pc (d : Display) : (s.setDisplay d).pc = s.pc := rfl
@[simp] theorem State.setDisplay_sp (d : Display) : (s.setDisplay d).sp = s.sp := rfl
@[simp] theorem State.setDisplay_stack (d : Display) : (s.setDisplay d).stack = s.stack := rfl
@[simp] theorem State.setDisplay_dt (d : Display) : (s.setDisplay d).dt = s.dt := rfl
@[simp] theorem State.setDisplay_st (d : Display) : (s.setDisplay d).st = s.st := rfl
@[simp] theorem State.setDisplay_keys (d : Display) : (s.setDisplay d).keys = s.keys := rfl
@[simp] theorem State.setDisplay_display (d : Display) : (s.setDisplay d).display = d := rfl
@[simp] theorem State.setDisplay_mode (d : Display) : (s.setDisplay d).mode = s.mode := rfl
@[simp] theorem State.setDisplay_mem (d : Display) : (s.setDisplay d).mem = s.mem := rfl
@[simp] theorem State.setDisplay_fault (d : Display) : (s.setDisplay d).fault = s.fault := rfl
@[simp] theorem State.setDisplay_shiftSrc (d : Display) : (s.setDisplay d).shiftSrc = s.shiftSrc := rfl
@[simp] theorem State.setDisplay_fontBase (d : Display) : (s.setDisplay d).fontBase = s.fontBase := rfl
@[simp] theorem State.setDisplay_draws (d : Display) : (s.setDisplay d).draws = s.draws := rfl
@[simp] theorem State.setDisplay_schedule (d : Display) : (s.setDisplay d).schedule = s.schedule := rfl

/-! ### setMode -/

@[simp] theorem State.setMode_v (m : Mode) : (s.setMode m).v = s.v := rfl
@[simp] theorem State.setMode_i (m : Mode) : (s.setMode m).i = s.i := rfl
@[simp] theorem State.setMode_pc (m : Mode) : (s.setMode m).pc = s.pc := rfl
@[simp] theorem State.setMode_sp (m : Mode) : (s.setMode m).sp = s.sp := rfl
@[simp] theorem State.setMode_stack (m : Mode) : (s.setMode m).stack = s.stack := rfl
@[simp] theorem State.setMode_dt (m : Mode) : (s.setMode m).dt = s.dt := rfl
@[simp] theorem State.setMode_st (m : Mode) : (s.setMode m).st = s.st := rfl
@[simp] theorem State.setMode_keys (m : Mode) : (s.setMode m).keys = s.keys := rfl
@[simp] theorem State.setMode_display (m : Mode) : (s.setMode m).display = s.display := rfl
@[simp] theorem State.setMode_mode (m : Mode) : (s.setMode m).mode = m := rfl
@[simp] theorem State.setMode_mem (m : Mode) : (s.setMode m).mem = s.mem := rfl
@[simp] theorem State.setMode_fault (m : Mode) : (s.setMode m).fault = s.fault := rfl
@[simp] theorem State.setMode_shiftSrc (m : Mode) : (s.setMode m).shiftSrc = s.shiftSrc := rfl
@[simp] theorem State.setMode_fontBase (m : Mode) : (s.setMode m).fontBase = s.fontBase := rfl
@[simp] theorem State.setMode_draws (m : Mode) : (s.setMode m).draws = s.draws := rfl
@[simp] theorem State.setMode_schedule (m : Mode) : (s.setMode m).schedule = s.schedule := rfl

/-! ### setMem -/

@[simp] theorem State.setMem_v (m : Memory) : (s.setMem m).v = s.v := rfl
@[simp] theorem State.setMem_i (m : Memory) : (s.setMem m).i = s.i := rfl
@[simp] theorem State.setMem_pc (m : Memory) : (s.setMem m).pc = s.pc := rfl
@[simp] theorem State.setMem_sp (m : Memory) : (s.setMem m).sp = s.sp := rfl
@[simp] theorem State.setMem_stack (m : Memory) : (s.setMem m).stack = s.stack := rfl
@[simp] theorem State.setMem_dt (m : Memory) : (s.setMem m).dt = s.dt := rfl
@[simp] theorem State.setMem_st (m : Memory) : (s.setMem m).st = s.st := rfl
@[simp] theorem State.setMem_keys (m : Memory) : (s.setMem m).keys = s.keys := rfl
@[simp] theorem State.setMem_display (m : Memory) : (s.setMem m).display = s.display := rfl
@[simp] theorem State.setMem_mode (m : Memory) : (s.setMem m).mode = s.mode := rfl
@[simp] theorem State.setMem_mem (m : Memory) : (s.setMem m).mem = m := rfl
@[simp] theorem State.setMem_fault (m : Memory) : (s.setMem m).fault = s.fault := rfl
@[simp] theorem State.setMem_shiftSrc (m : Memory) : (s.setMem m).shiftSrc = s.shiftSrc := rfl
@[simp] theorem State.setMem_fontBase (m : Memory) : (s.setMem m).fontBase = s.fontBase := rfl
@[simp] theorem State.setMem_draws (m : Memory) : (s.setMem m).draws = s.draws := rfl
@[simp] theorem State.setMem_schedule (m : Memory) : (s.setMem m).schedule = s.schedule := rfl

/-! ### setFault -/

@[simp] theorem State.setFault_v (f : Option FaultKind) : (s.setFault f).v = s.v := rfl
@[simp] theorem State.setFault_i (f : Option FaultKind) : (s.setFault f).i = s.i := rfl
@[simp] theorem State.setFault_pc (f : Option FaultKind) : (s.setFault f).pc = s.pc := rfl
@[simp] theorem State.setFault_sp (f : Option FaultKind) : (s.setFault f).sp = s.sp := rfl
@[simp] theorem State.setFault_stack (f : Option FaultKind) : (s.setFault f).stack = s.stack := rfl
@[simp] theorem State.setFault_dt (f : Option FaultKind) : (s.setFault f).dt = s.dt := rfl
@[simp] theorem State.setFault_st (f : Option FaultKind) : (s.setFault f).st = s.st := rfl
@[simp] theorem State.setFault_keys (f : Option FaultKind) : (s.setFault f).keys = s.keys := rfl
@[simp] theorem State.setFault_display (f : Option FaultKind) : (s.setFault f).display = s.display := rfl
@[simp] theorem State.setFault_mode (f : Option FaultKind) : (s.setFault f).mode = s.mode := rfl
@[simp] theorem State.setFault_mem (f : Option FaultKind) : (s.setFault f).mem = s.mem := rfl
@[simp] theorem State.setFault_fault (f : Option FaultKind) : (s.setFault f).fault = f := rfl
@[simp] theorem State.setFault_shiftSrc (f : Option FaultKind) : (s.setFault f).shiftSrc = s.shiftSrc := rfl
@[simp] theorem State.setFault_fontBase (f : Option FaultKind) : (s.setFault f).fontBase = s.fontBase := rfl
@[simp] theorem State.setFault_draws (f : Option FaultKind) : (s.setFault f).draws = s.draws := rfl
@[simp] theorem State.setFault_schedule (f : Option FaultKind) : (s.setFault f).schedule = s.schedule := rfl

/-! ### countDraw -/

@[simp] theorem State.countDraw_v : (s.countDraw).v = s.v := rfl
@[simp] theorem State.countDraw_i : (s.countDraw).i = s.i := rfl
@[simp] theorem State.countDraw_pc : (s.countDraw).pc = s.pc := rfl
@[simp] theorem State.countDraw_sp : (s.countDraw).sp = s.sp := rfl
@[simp] theorem State.countDraw_stack : (s.countDraw).stack = s.stack := rfl
@[simp] theorem State.countDraw_dt : (s.countDraw).dt = s.dt := rfl
@[simp] theorem State.countDraw_st : (s.countDraw).st = s.st := rfl
@[simp] theorem State.countDraw_keys : (s.countDraw).keys = s.keys := rfl
@[simp] theorem State.countDraw_display : (s.countDraw).display = s.display := rfl
@[simp] theorem State.countDraw_mode : (s.countDraw).mode = s.mode := rfl
@[simp] theorem State.countDraw_mem : (s.countDraw).mem = s.mem := rfl
@[simp] theorem State.countDraw_fault : (s.countDraw).fault = s.fault := rfl
@[simp] theorem State.countDraw_shiftSrc : (s.countDraw).shiftSrc = s.shiftSrc := rfl
@[simp] theorem State.countDraw_fontBase : (s.countDraw).fontBase = s.fontBase := rfl
@[simp] theorem State.countDraw_draws : (s.countDraw).draws = s.draws + 1 := rfl
@[simp] theorem State.countDraw_schedule : (s.countDraw).schedule = s.schedule := rfl

/-! ### setSchedule -/

@[simp] theorem State.setSchedule_v (es : List Event) : (s.setSchedule es).v = s.v := rfl
@[simp] theorem State.setSchedule_i (es : List Event) : (s.setSchedule es).i = s.i := rfl
@[simp] theorem State.setSchedule_pc (es : List Event) : (s.setSchedule es).pc = s.pc := rfl
@[simp] theorem State.setSchedule_sp (es : List Event) : (s.setSchedule es).sp = s.sp := rfl
@[simp] theorem State.setSchedule_stack (es : List Event) : (s.setSchedule es).stack = s.stack := rfl
@[simp] theorem State.setSchedule_dt (es : List Event) : (s.setSchedule es).dt = s.dt := rfl
@[simp] theorem State.setSchedule_st (es : List Event) : (s.setSchedule es).st = s.st := rfl
@[simp] theorem State.setSchedule_keys (es : List Event) : (s.setSchedule es).keys = s.keys := rfl
@[simp] theorem State.setSchedule_display (es : List Event) : (s.setSchedule es).display = s.display := rfl
@[simp] theorem State.setSchedule_mode (es : List Event) : (s.setSchedule es).mode = s.mode := rfl
@[simp] theorem State.setSchedule_mem (es : List Event) : (s.setSchedule es).mem = s.mem := rfl
@[simp] theorem State.setSchedule_fault (es : List Event) : (s.setSchedule es).fault = s.fault := rfl
@[simp] theorem State.setSchedule_shiftSrc (es : List Event) : (s.setSchedule es).shiftSrc = s.shiftSrc := rfl
@[simp] theorem State.setSchedule_fontBase (es : List Event) : (s.setSchedule es).fontBase = s.fontBase := rfl
@[simp] theorem State.setSchedule_draws (es : List Event) : (s.setSchedule es).draws = s.draws := rfl
@[simp] theorem State.setSchedule_schedule (es : List Event) : (s.setSchedule es).schedule = es := rfl

/-! ### Reading registers and keys after an update -/

theorem State.reg_setReg (x r : Reg) (b : Byte) : (s.setReg x b).reg r = if r = x then b else s.reg r := by
  by_cases h : r = x
  · subst h; simp [State.reg, State.setReg]
  · have h' : x.val ≠ r.val := fun e => h (Fin.ext e.symm)
    simp [State.reg, State.setReg, h, h']

@[simp] theorem State.reg_setReg_same (x : Reg) (b : Byte) : (s.setReg x b).reg x = b := by simp [State.reg_setReg]

theorem State.key_putKey (k j : Key) (b : Bool) : (s.putKey k b).key j = if j = k then b else s.key j := by
  by_cases h : j = k
  · subst h; simp [State.key, State.putKey]
  · have h' : k.val ≠ j.val := fun e => h (Fin.ext e.symm)
    simp [State.key, State.putKey, h, h']

/-- Two states with the same fields are the same state; `setReg` touches `v` only. -/
theorem State.setReg_eq (x : Reg) (b : Byte) : s.setReg x b = { s with v := s.v.set x.val b } := rfl

@[simp] theorem State.reg_setI (a : Addr) (r : Reg) : (s.setI a).reg r = s.reg r := rfl
@[simp] theorem State.reg_setPC (a : Addr) (r : Reg) : (s.setPC a).reg r = s.reg r := rfl
@[simp] theorem State.reg_setStack (k : Vector (BitVec 13) 16) (p : Fin 17) (r : Reg) : (s.setStack k p).reg r = s.reg r := rfl
@[simp] theorem State.reg_setDT (b : Byte) (r : Reg) : (s.setDT b).reg r = s.reg r := rfl
@[simp] theorem State.reg_setST (b : Byte) (r : Reg) : (s.setST b).reg r = s.reg r := rfl
@[simp] theorem State.reg_setDisplay (d : Display) (r : Reg) : (s.setDisplay d).reg r = s.reg r := rfl
@[simp] theorem State.reg_setMode (m : Mode) (r : Reg) : (s.setMode m).reg r = s.reg r := rfl
@[simp] theorem State.reg_setMem (m : Memory) (r : Reg) : (s.setMem m).reg r = s.reg r := rfl
@[simp] theorem State.reg_setFault (f : Option FaultKind) (r : Reg) : (s.setFault f).reg r = s.reg r := rfl
@[simp] theorem State.reg_countDraw (r : Reg) : (s.countDraw).reg r = s.reg r := rfl
@[simp] theorem State.reg_setSchedule (es : List Event) (r : Reg) : (s.setSchedule es).reg r = s.reg r := rfl
@[simp] theorem State.reg_putKey (k : Key) (b : Bool) (r : Reg) : (s.putKey k b).reg r = s.reg r := rfl
@[simp] theorem State.key_setReg (x : Reg) (b : Byte) (k : Key) : (s.setReg x b).key k = s.key k := rfl

@[simp] theorem State.setFault_setFault (f g : Option FaultKind) : (s.setFault f).setFault g = s.setFault g := rfl
@[simp] theorem State.setPC_self : s.setPC s.pc = s := rfl
@[simp] theorem State.setSchedule_self : s.setSchedule s.schedule = s := rfl

end Sys2Proof.Machine
end

