-- ==== Sys2Proof/Laws/Ops.lean ====
section
/-! SUPPORT. One lemma for each shared operation, saying everything it can do; later proofs cite these and do not unfold the operations. -/

namespace Sys2Proof.Machine

/-! ### The PC update -/

/-- Everything `updatePC` can do (R104). -/
theorem updatePC_cases (t : Nat) (s : State) :
    (0x1000 ≤ t ∧ updatePC t s = .next (s.setFault (some (.outOfBoundsAddress t)))) ∨
    (t < 0x1000 ∧ t % 2 = 1 ∧ updatePC t s = .next (s.setFault (some (.unmodelled .oddPC)))) ∨
    (t < 0x1000 ∧ t % 2 = 0 ∧ updatePC t s = .next (s.setPC (BitVec.ofNat 12 t))) := by
  unfold updatePC raise
  by_cases h : 0x1000 ≤ t
  · exact .inl ⟨h, by simp [h]⟩
  · by_cases h2 : t % 2 = 1
    · exact .inr (.inl ⟨by omega, h2, by simp [h, h2]⟩)
    · exact .inr (.inr ⟨by omega, by omega, by simp [h, h2]⟩)

theorem updatePC_even {t : Nat} (s : State) (h : t < 0x1000) (h2 : t % 2 = 0) :
    updatePC t s = .next (s.setPC (BitVec.ofNat 12 t)) := by
  have h1 : ¬ 0x1000 ≤ t := by omega
  have h3 : ¬ t % 2 = 1 := by omega
  simp [updatePC, h1, h3]

theorem updatePC_odd {t : Nat} (s : State) (h : t < 0x1000) (h2 : t % 2 = 1) :
    updatePC t s = .next (s.setFault (some (.unmodelled .oddPC))) := by
  have h1 : ¬ 0x1000 ≤ t := by omega
  simp [updatePC, raise, h1, h2]

theorem updatePC_beyond {t : Nat} (s : State) (h : 0x1000 ≤ t) :
    updatePC t s = .next (s.setFault (some (.outOfBoundsAddress t))) := by simp [updatePC, raise, h]

theorem ofNat_add_of_pc (a : Addr) (k : Nat) : BitVec.ofNat 12 (a.toNat + k) = a + BitVec.ofNat 12 k := by
  apply BitVec.eq_of_toNat_eq
  simp

/-- Falling through where the next address exists (R103). -/
theorem advance_next {s : State} (h : s.canFallThrough) : advance s = .next (s.setPC (s.pc + 2)) := by
  rw [advance, updatePC_even s (by have := h.2; omega) (by have := h.1; omega), ofNat_add_of_pc]
  rfl

/-- Falling through at the last word of memory (R105). -/
theorem advance_last {s : State} (h : s.pc = 0xFFE) :
    advance s = .next (s.setFault (some (.outOfBoundsAddress 0x1000))) := by
  rw [advance, h]; exact updatePC_beyond s (by decide)

/-! ### The address register and memory -/

/-- Everything a write of `I` can do (R26). -/
theorem writeI_cases (t : Nat) (s : State) :
    (0x1000 ≤ t ∧ writeI t s = .raised (.outOfBoundsAddress t) s) ∨
    (t < 0x1000 ∧ writeI t s = .done () (s.setI (BitVec.ofNat 12 t))) := by
  unfold writeI
  by_cases h : 0x1000 ≤ t
  · exact .inl ⟨h, by simp [h]⟩
  · exact .inr ⟨by omega, by simp [h]⟩

theorem memRead_ok {a : Nat} (s : State) (h : a < 0x1000) : memRead a s = .ok (Memory.read s.mem a) := by
  simp [memRead, Memory.size, h]

theorem memRead_beyond {a : Nat} (s : State) (h : 0x1000 ≤ a) : memRead a s = .error (.outOfBoundsAddress a) := by
  have : ¬ a < 0x1000 := by omega
  simp [memRead, Memory.size, this]

/-- What a run of stores leaves, and whether it raised (R106, R170): the bytes that exist are stored, and the first
address beyond memory is 0x1000. -/
theorem storeBytes_eq (bs : List Byte) : ∀ (a : Nat) (s : State), a ≤ 0x1000 →
    storeBytes a bs s =
      if a + bs.length ≤ 0x1000 then .done () (s.setMem (Memory.writeBytes s.mem a bs))
      else .raised (.outOfBoundsAddress 0x1000) (s.setMem (Memory.writeBytes s.mem a bs)) := by
  have hout : ∀ (bs : List Byte) (m : Memory) (a : Nat), 0x1000 ≤ a → Memory.writeBytes m a bs = m := by
    intro bs
    induction bs with
    | nil => intros; rfl
    | cons b bs ih =>
      intro m a h
      have : ¬ a < Memory.size := by simp only [Memory.size]; omega
      rw [Memory.writeBytes, if_neg this, ih m (a + 1) (by omega)]
  induction bs with
  | nil =>
    intro a s h
    rw [if_pos (by simpa using h)]; rfl
  | cons b bs ih =>
    intro a s h
    by_cases ha : a < 0x1000
    · have hm : memWrite a b s = .done () (s.setMem (Memory.write s.mem a b)) := by
        simp [memWrite, Memory.size, ha]
      have hw : Memory.writeBytes s.mem a (b :: bs) = Memory.writeBytes (Memory.write s.mem a b) (a + 1) bs := by
        simp [Memory.writeBytes, Memory.size, ha]
      rw [storeBytes, hm]
      simp only
      rw [ih (a + 1) _ (by omega), hw]
      simp only [List.length_cons, State.setMem_mem]
      have : a + 1 + bs.length = a + (bs.length + 1) := by omega
      rw [this]
      rfl
    · have hm : memWrite a b s = .raised (.outOfBoundsAddress a) s := by simp [memWrite, Memory.size, ha]
      have ha' : a = 0x1000 := by omega
      rw [storeBytes, hm, if_neg (by simp only [List.length_cons]; omega), hout _ _ _ (by omega), ha']
      rfl

/-- `s` after the listed registers are loaded from the addresses that exist. -/
def State.loadedFrom : Nat → List Reg → State → State
  | _, [], s => s
  | a, r :: rs, s => if a < 0x1000 then State.loadedFrom (a + 1) rs (s.setReg r (Memory.read s.mem a)) else s

/-- What a run of loads leaves, and whether it raised (R106, R176). -/
theorem loadRegs_eq (rs : List Reg) : ∀ (a : Nat) (s : State), a ≤ 0x1000 →
    loadRegs a rs s =
      if a + rs.length ≤ 0x1000 then .done () (s.loadedFrom a rs)
      else .raised (.outOfBoundsAddress 0x1000) (s.loadedFrom a rs) := by
  induction rs with
  | nil =>
    intro a s h
    rw [if_pos (by simpa using h)]; rfl
  | cons r rs ih =>
    intro a s h
    by_cases ha : a < 0x1000
    · rw [loadRegs, memRead_ok s ha]
      simp only
      rw [ih (a + 1) _ (by omega)]
      have hl : s.loadedFrom a (r :: rs) = (s.setReg r (Memory.read s.mem a)).loadedFrom (a + 1) rs := by
        simp [State.loadedFrom, ha]
      rw [hl]
      simp only [List.length_cons]
      have : a + 1 + rs.length = a + (rs.length + 1) := by omega
      rw [this]
    · have ha' : a = 0x1000 := by omega
      have hl : s.loadedFrom a (r :: rs) = s := by simp [State.loadedFrom, ha]
      rw [loadRegs, memRead_beyond s (by omega), if_neg (by simp only [List.length_cons]; omega), hl, ha']

/-- Loads write nothing but general registers. -/
theorem State.loadedFrom_frame (rs : List Reg) : ∀ (a : Nat) (s : State),
    s.loadedFrom a rs = { s with v := (s.loadedFrom a rs).v } := by
  induction rs with
  | nil => intros; rfl
  | cons r rs ih =>
    intro a s
    unfold State.loadedFrom
    split
    · exact ih (a + 1) _
    · rfl

/-- A register that is not listed keeps its value. -/
theorem State.loadedFrom_reg_of_not_mem (rs : List Reg) : ∀ (a : Nat) (s : State) (r : Reg), r ∉ rs →
    (s.loadedFrom a rs).reg r = s.reg r := by
  induction rs with
  | nil => intros; rfl
  | cons q rs ih =>
    intro a s r hr
    simp only [List.mem_cons, not_or] at hr
    unfold State.loadedFrom
    split
    · rw [ih _ _ r hr.2, State.reg_setReg, if_neg hr.1]
    · rfl

/-- A listed register holds the byte of its address, if that exists. -/
theorem State.loadedFrom_reg (rs : List Reg) : ∀ (a : Nat) (s : State) (j : Nat) (hj : j < rs.length), rs.Nodup →
    (s.loadedFrom a rs).reg rs[j] = if a + j < 0x1000 then Memory.read s.mem (a + j) else s.reg rs[j] := by
  induction rs with
  | nil => intro _ _ j hj; exact absurd hj (by simp)
  | cons q rs ih =>
    intro a s j hj hnd
    have hnd' := List.nodup_cons.mp hnd
    unfold State.loadedFrom
    cases j with
    | zero =>
      split
      · next ha => simp [State.loadedFrom_reg_of_not_mem rs _ _ q hnd'.1, ha]
      · next ha => simp [ha]
    | succ j =>
      have hj' : j < rs.length := by simpa using hj
      split
      · next ha =>
        simp only [List.getElem_cons_succ]
        rw [ih (a + 1) _ j hj' hnd'.2, State.reg_setReg]
        have hne : rs[j] ≠ q := fun e => hnd'.1 (e ▸ List.getElem_mem hj')
        have : a + 1 + j = a + (j + 1) := by omega
        rw [if_neg hne, this]
        rfl
      · next ha =>
        rw [if_neg (by omega)]

/-- `regsUpTo x` lists `V0`..`Vx` in order, each once. -/
theorem regsUpTo_length (x : Reg) : (regsUpTo x).length = x.val + 1 := by
  simp [regsUpTo]

theorem regsUpTo_getElem (x : Reg) (j : Nat) (h : j < (regsUpTo x).length) :
    (regsUpTo x)[j] = ⟨j, by rw [regsUpTo_length] at h; omega⟩ := by
  simp [regsUpTo]

theorem regsUpTo_nodup (x : Reg) : (regsUpTo x).Nodup :=
  (List.nodup_finRange 16).sublist (List.take_sublist _ _)

theorem mem_regsUpTo (x r : Reg) : r ∈ regsUpTo x ↔ r.val ≤ x.val := by
  revert x r; decide +kernel

/-! ### Fetch -/

/-- Fetch of an address whose successor exists (R53). -/
theorem fetch_eq {s : State} (h : s.pc.toNat + 1 < 0x1000) :
    fetch s = .ok (Memory.read s.mem s.pc.toNat ++ Memory.read s.mem (s.pc.toNat + 1)) := by
  rw [fetch, memRead_ok s (by omega), memRead_ok s h]

/-! ### The call stack -/

/-- Everything a push can do (R28). -/
theorem push_cases (v : BitVec 13) (s : State) :
    (s.sp = 16 ∧ push v s = .raised .stackOverflow s) ∨
    (∃ h : s.sp.val < 16, push v s = .done () (s.setStack (s.stack.set s.sp.val v) ⟨s.sp.val + 1, by omega⟩)) := by
  by_cases h : s.sp.val < 16
  · exact .inr ⟨h, by simp [push, h]⟩
  · exact .inl ⟨Fin.ext (by have := s.sp.isLt; simp; omega), by simp [push, h]⟩

/-- Everything a pop can do (R28). -/
theorem pop_cases (s : State) :
    (s.sp = 0 ∧ pop s = .raised .stackUnderflow s) ∨
    (∃ h : 0 < s.sp.val, pop s = .done (s.stack[s.sp.val - 1]) (s.setStack s.stack ⟨s.sp.val - 1, by omega⟩)) := by
  by_cases h : 0 < s.sp.val
  · exact .inr ⟨h, by simp [pop, h]⟩
  · exact .inl ⟨Fin.ext (by simp; omega), by simp [pop, h]⟩

end Sys2Proof.Machine
end

