-- ==== Sys2Proof/Laws/Display.lean ====
section
/-! SUPPORT. What the display engine does, pixel by pixel (45_display.md R211 to R214). -/

namespace Sys2Proof.Machine

/-- Flipping a pixel of the grid changes that pixel and no other. -/
theorem Display.pixel_flip (d : Display) {x y : Nat} (px py : Nat) (hx : x < 128) (hy : y < 64) :
    (d.flip x y).pixel px py = (d.pixel px py ^^ (decide (px = x) && decide (py = y))) := by
  unfold Display.flip Display.pixel
  rw [dif_pos hy]
  by_cases hpy : py < 64
  · rw [dif_pos hpy, dif_pos hpy]
    by_cases he : py = y
    · subst he
      have : decide (x = px) = decide (px = x) := by simp [eq_comm]
      simp [hx, this]
    · have : ¬ y = py := fun e => he e.symm
      simp [this, he]
  · have he : ¬ py = y := by omega
    simp [hpy, he]

theorem Display.pixel_blank (px py : Nat) : Display.blank.pixel px py = false := by
  unfold Display.pixel Display.blank
  split <;> simp

/-- Nothing outside the grid is ever set. -/
theorem Display.pixel_outside (d : Display) {px py : Nat} (h : 128 ≤ px ∨ 64 ≤ py) : d.pixel px py = false := by
  unfold Display.pixel
  split
  · next hy =>
    have : 128 ≤ px := by omega
    exact BitVec.getLsbD_of_ge _ _ this
  · rfl

/-- Two grids with the same pixels are the same grid. -/
theorem Display.ext_of_pixel {d e : Display} (h : ∀ px py, px < 128 → py < 64 → d.pixel px py = e.pixel px py) :
    d = e := by
  refine Vector.ext fun y hy => BitVec.eq_of_getLsbD_eq fun x hx => ?_
  have := h x y hx hy
  simpa [Display.pixel, hy] using this

/-- Column `c` of a row that starts at `x` falls on `px`. -/
def rowCovers (width x : Nat) (row : List Bool) (px : Nat) : Prop :=
  ∃ c, row[c]? = some true ∧ (x + c) % width = px

theorem rowCovers_nil (width x px : Nat) : ¬ rowCovers width x [] px := by
  rintro ⟨c, h, -⟩; simp at h

theorem rowCovers_cons (width x : Nat) (b : Bool) (bs : List Bool) (px : Nat) :
    rowCovers width x (b :: bs) px ↔ (b = true ∧ x % width = px) ∨ rowCovers width (x + 1) bs px := by
  constructor
  · rintro ⟨c, h, hc⟩
    cases c with
    | zero => exact .inl ⟨by simpa using h, by simpa using hc⟩
    | succ c => exact .inr ⟨c, by simpa using h, by rw [← hc]; congr 1; omega⟩
  · rintro (⟨rfl, h⟩ | ⟨c, h, hc⟩)
    · exact ⟨0, by simp, by simpa using h⟩
    · exact ⟨c + 1, by simpa using h, by rw [← hc]; congr 1; omega⟩

/-- A row no wider than the screen does not come back to the column before it. -/
theorem not_rowCovers_before {width x : Nat} {bs : List Bool} (h : bs.length < width) :
    ¬ rowCovers width (x + 1) bs (x % width) := by
  rintro ⟨c, hc, he⟩
  have hlt : c < bs.length := by
    by_contra hn
    rw [List.getElem?_eq_none (by omega)] at hc
    exact absurd hc (by simp)
  have hw : 0 < width := by omega
  have h1 := Nat.div_add_mod x width
  have h2 := Nat.div_add_mod (x + 1 + c) width
  rw [he] at h2
  have h3 : width * ((x + 1 + c) / width) = width * (x / width) + (c + 1) := by omega
  have h4 : width ∣ c + 1 := by
    have : c + 1 = width * ((x + 1 + c) / width) - width * (x / width) := by omega
    rw [this, ← Nat.mul_sub]
    exact Nat.dvd_mul_right _ _
  exact absurd (Nat.le_of_dvd (by omega) h4) (by omega)

open Classical in
/-- One sprite row, pixel by pixel: it inverts the pixels it covers, and reports whether one of them was set (R212, R214). -/
theorem drawPixels_spec {width yy : Nat} (hw : width ≤ 128) (hy : yy < 64) (bs : List Bool) :
    ∀ (x : Nat) (d : Display) (hit : Bool), bs.length ≤ width →
      (∀ px py, (drawPixels width yy x bs d hit).1.pixel px py =
        (d.pixel px py ^^ decide (py = yy ∧ rowCovers width x bs px))) ∧
      (drawPixels width yy x bs d hit).2 = (hit || decide (∃ px, d.pixel px yy = true ∧ rowCovers width x bs px)) := by
  induction bs with
  | nil =>
    intro x d hit _
    simp [drawPixels, rowCovers_nil]
  | cons b bs ih =>
    intro x d hit hlen
    have hlen' : bs.length < width := by simpa using hlen
    have hxw : x % width < 128 := lt_of_lt_of_le (Nat.mod_lt _ (by omega)) hw
    cases b with
    | false =>
      have hc : ∀ px, rowCovers width x (false :: bs) px ↔ rowCovers width (x + 1) bs px := by
        intro px; simp [rowCovers_cons]
      simp only [drawPixels, hc]
      exact ih (x + 1) d hit (by omega)
    | true =>
      obtain ⟨h1, h2⟩ := ih (x + 1) (d.flip (x % width) yy) (hit || d.pixel (x % width) yy) (by omega)
      have hdp : drawPixels width yy x (true :: bs) d hit =
          drawPixels width yy (x + 1) bs (d.flip (x % width) yy) (hit || d.pixel (x % width) yy) := by
        simp [drawPixels]
      rw [hdp]
      constructor
      · intro px py
        rw [h1, Display.pixel_flip d px py hxw hy, rowCovers_cons]
        by_cases hp : py = yy
        · by_cases hx : px = x % width
          · subst hx; subst hp
            have := not_rowCovers_before (x := x) hlen'
            simp [this]
          · have : ¬ x % width = px := fun e => hx e.symm
            simp [hp, hx, this]
        · simp [hp]
      · rw [h2, Bool.or_assoc]
        congr 1
        by_cases hd : d.pixel (x % width) yy = true
        · have : ∃ px, d.pixel px yy = true ∧ rowCovers width x (true :: bs) px :=
            ⟨x % width, hd, (rowCovers_cons ..).mpr (.inl ⟨rfl, rfl⟩)⟩
          simp [hd, this]
        · have hd' : d.pixel (x % width) yy = false := by simpa using hd
          rw [hd', Bool.false_or]
          congr 1
          apply propext
          constructor
          · rintro ⟨px, hp, hr⟩
            rw [Display.pixel_flip d px yy hxw hy] at hp
            by_cases hx : px = x % width
            · subst hx; exact absurd hr (not_rowCovers_before hlen')
            · exact ⟨px, by simpa [hx] using hp, (rowCovers_cons ..).mpr (.inr hr)⟩
          · rintro ⟨px, hp, hr⟩
            rcases (rowCovers_cons ..).mp hr with ⟨-, hx⟩ | hr'
            · rw [← hx, hd'] at hp; exact absurd hp (by simp)
            · refine ⟨px, ?_, hr'⟩
              rw [Display.pixel_flip d px yy hxw hy]
              have : px ≠ x % width := fun e => absurd (e ▸ hr') (not_rowCovers_before hlen')
              simp [hp, this]

end Sys2Proof.Machine
end

