-- ==== Sys2Proof/Laws/Draw.lean ====
section
/-! SUPPORT. What a whole draw does: the rows of a sprite, one after the other, and where it stops (45_display.md R218 to R222). -/

namespace Sys2Proof.Machine

/-- The column or row of a wrapped sprite that falls on `p`. -/
theorem wrapDistance_eq_iff_width (m : Mode) {p0 p c : Nat} (hp : p < m.width) (hc : c < m.width) :
    wrapDistance m.width p0 p = c ↔ (p0 + c) % m.width = p := by
  cases m <;> simp only [wrapDistance, Mode.width] at * <;> omega

theorem wrapDistance_eq_iff_height (m : Mode) {p0 p r : Nat} (hp : p < m.height) (hr : r < m.height) :
    wrapDistance m.height p0 p = r ↔ (p0 + r) % m.height = p := by
  cases m <;> simp only [wrapDistance, Mode.height] at * <;> omega

/-- Row `r` of the sprite, from left to right. -/
def State.spriteRowBits (s : State) (wide : Bool) (r : Nat) : List Bool :=
  (List.range (rowWidth wide)).map (s.spriteBit wide r)

theorem append_toNat (a b : Byte) : (a ++ b : Word).toNat = a.toNat * 256 + b.toNat := by
  rw [BitVec.toNat_append, Nat.shiftLeft_eq, ← Nat.shiftLeft_eq, ← Nat.shiftLeft_add_eq_or_of_lt b.isLt,
    Nat.shiftLeft_eq]

theorem append_getLsbD (a b : Byte) (n : Nat) :
    (a ++ b : Word).getLsbD n = if n < 8 then b.getLsbD n else a.getLsbD (n - 8) := BitVec.getLsbD_append

/-- How many rows of the sprite at `I` exist in memory. -/
def State.rowsInMemory (s : State) (wide : Bool) : Nat := (0x1000 - s.i.toNat) / rowBytes wide

/-- A sprite row whose bytes exist is its bits, from left to right (R219, R223). -/
theorem spriteRow_ok {s : State} {wide : Bool} {r : Nat} (h : r < s.rowsInMemory wide) :
    spriteRow wide s.i.toNat r s = .ok (s.spriteRowBits wide r) := by
  cases wide with
  | false =>
    simp only [State.rowsInMemory, rowBytes, Bool.false_eq_true, if_false] at h
    rw [spriteRow, if_neg (by decide), memRead_ok s (by omega)]
    simp only [State.spriteRowBits, rowWidth, rowPixels, Bool.false_eq_true, if_false]
    congr 1
    refine List.map_congr_left fun c hc => ?_
    have hc : c < 8 := List.mem_range.mp hc
    simp only [State.spriteBit, rowBytes, Bool.false_eq_true, if_false, State.byteAt, BitVec.testBit_toNat]
    have h1 : c / 8 = 0 := by omega
    have h2 : c % 8 = c := by omega
    simp [h1, h2]
  | true =>
    simp only [State.rowsInMemory, rowBytes, if_true] at h
    rw [spriteRow, if_pos rfl, memRead_ok s (by omega), memRead_ok s (by omega)]
    simp only [State.spriteRowBits, rowWidth, rowPixels, if_true]
    congr 1
    refine List.map_congr_left fun c hc => ?_
    have hc : c < 16 := List.mem_range.mp hc
    simp only [State.spriteBit, rowBytes, if_true, State.byteAt, ← append_toNat, BitVec.testBit_toNat]
    by_cases hl : c < 8
    · have : c / 8 = 0 := by omega
      have h1 : ¬ 15 - c < 8 := by omega
      have h2 : 15 - c - 8 = 7 - c % 8 := by omega
      rw [append_getLsbD, if_neg h1, h2, this, Nat.mul_comm 2 r, Nat.add_zero]
    · have : c / 8 = 1 := by omega
      have h1 : 15 - c < 8 := by omega
      have h2 : 15 - c = 7 - c % 8 := by omega
      rw [append_getLsbD, if_pos h1, h2, this, Nat.mul_comm 2 r]

/-- The first row that does not wholly exist raises at 0x1000. -/
theorem spriteRow_beyond {s : State} {wide : Bool} {r : Nat} (h : r = s.rowsInMemory wide) :
    spriteRow wide s.i.toNat r s = .error (.outOfBoundsAddress 0x1000) := by
  have hi := s.i.isLt
  subst h
  cases wide with
  | false =>
    have : s.i.toNat + s.rowsInMemory false = 0x1000 := by simp [State.rowsInMemory, rowBytes]; omega
    rw [spriteRow, if_neg (by decide), this, memRead_beyond s (by omega)]
  | true =>
    have e : s.rowsInMemory true = (0x1000 - s.i.toNat) / 2 := by simp [State.rowsInMemory, rowBytes]
    rw [spriteRow, if_pos rfl]
    by_cases h2 : s.i.toNat % 2 = 0
    · have : s.i.toNat + 2 * s.rowsInMemory true = 0x1000 := by omega
      rw [this, memRead_beyond s (by omega)]
    · have : s.i.toNat + 2 * s.rowsInMemory true = 0xFFF := by omega
      rw [this, memRead_ok s (by omega), memRead_beyond s (by omega)]

/-- Whether one of the rows `r`, …, `r + count - 1` of the sprite covers the pixel. -/
def State.coveredByRows (s : State) (wide : Bool) (x0 y0 r count px py : Nat) : Bool :=
  decide (px < s.mode.width) && decide (py < s.mode.height) &&
  decide (wrapDistance s.mode.width x0 px < rowWidth wide) &&
  decide (r ≤ wrapDistance s.mode.height y0 py) && decide (wrapDistance s.mode.height y0 py < r + count) &&
  s.spriteBit wide (wrapDistance s.mode.height y0 py) (wrapDistance s.mode.width x0 px)

theorem State.coveredByRows_zero (s : State) (wide : Bool) (rows x0 y0 px py : Nat) :
    s.coveredByRows wide x0 y0 0 rows px py = s.spriteCovers wide rows x0 y0 px py := by
  simp [State.coveredByRows, State.spriteCovers]

theorem Mode.width_le (m : Mode) : m.width ≤ 128 ∧ 64 ≤ m.width := by cases m <;> simp [Mode.width]
theorem Mode.height_le (m : Mode) : m.height ≤ 64 ∧ 32 ≤ m.height := by cases m <;> simp [Mode.height]
theorem rowWidth_le (wide : Bool) : rowWidth wide ≤ 16 := by cases wide <;> simp [rowWidth]

/-- One drawn row covers a pixel as the sprite says. -/
theorem rowCovers_spriteRowBits (s : State) (wide : Bool) {x0 y0 r px py : Nat} (hr : r < s.mode.height) :
    (py = (y0 + r) % s.mode.height ∧ rowCovers s.mode.width x0 (s.spriteRowBits wide r) px) ↔
      s.coveredByRows wide x0 y0 r 1 px py = true := by
  have hw := s.mode.width_le
  have hh := s.mode.height_le
  have hrw := rowWidth_le wide
  simp only [State.coveredByRows, Bool.and_eq_true, decide_eq_true_eq, rowCovers]
  constructor
  · rintro ⟨hy, c, hc, hx⟩
    have hcl : c < rowWidth wide := by
      by_contra hn
      rw [State.spriteRowBits, List.getElem?_eq_none (by simp; omega)] at hc
      exact absurd hc (by simp)
    have hb : s.spriteBit wide r c = true := by simpa [State.spriteRowBits, hcl] using hc
    have hpx : px < s.mode.width := hx ▸ Nat.mod_lt _ (by omega)
    have hpy : py < s.mode.height := hy ▸ Nat.mod_lt _ (by omega)
    have h1 := (wrapDistance_eq_iff_width s.mode hpx (by omega : c < s.mode.width)).mpr hx
    have h2 := (wrapDistance_eq_iff_height s.mode hpy hr).mpr hy.symm
    rw [h1, h2]
    exact ⟨⟨⟨⟨⟨hpx, hpy⟩, hcl⟩, le_refl _⟩, by omega⟩, hb⟩
  · rintro ⟨⟨⟨⟨⟨hpx, hpy⟩, hcl⟩, hr1⟩, hr2⟩, hb⟩
    have h2 : wrapDistance s.mode.height y0 py = r := by omega
    refine ⟨((wrapDistance_eq_iff_height s.mode hpy hr).mp h2).symm, _, ?_,
      (wrapDistance_eq_iff_width s.mode hpx (by omega)).mp rfl⟩
    rw [h2] at hb
    simp [State.spriteRowBits, hcl, hb]

/-- The rows of a draw, one after the other, split at the first one. -/
theorem State.coveredByRows_succ (s : State) (wide : Bool) (x0 y0 r count px py : Nat) :
    s.coveredByRows wide x0 y0 r (count + 1) px py =
      (s.coveredByRows wide x0 y0 r 1 px py ^^ s.coveredByRows wide x0 y0 (r + 1) count px py) := by
  unfold State.coveredByRows
  generalize wrapDistance s.mode.height y0 py = w
  by_cases h : w = r
  · have : ¬ r + 1 ≤ w := by omega
    simp [h]
  · have h1 : (decide (r ≤ w) && decide (w < r + 1)) = false := by
      simp; omega
    have h2 : (decide (r ≤ w) && decide (w < r + (count + 1))) = (decide (r + 1 ≤ w) && decide (w < r + 1 + count)) := by
      rw [Bool.eq_iff_iff]; simp; omega
    have h3 : ∀ b c d e : Bool, (b && c && d && e) = (b && (c && d) && e) := by decide
    rw [h3 _ (decide (r ≤ w)), h3 _ (decide (r ≤ w)), h3 _ (decide (r + 1 ≤ w)), h1, h2]
    simp

/-- Two different rows of a draw never cover the same pixel. -/
theorem State.coveredByRows_disjoint (s : State) (wide : Bool) {x0 y0 r count px py : Nat}
    (h : s.coveredByRows wide x0 y0 r 1 px py = true) : s.coveredByRows wide x0 y0 (r + 1) count px py = false := by
  simp only [State.coveredByRows, Bool.and_eq_true, decide_eq_true_eq] at h
  have : ¬ r + 1 ≤ wrapDistance s.mode.height y0 py := by omega
  simp [State.coveredByRows, this]

/-- What one row does: it inverts the pixels it covers, and reports whether one of them was set. -/
theorem drawRow_spec (s : State) (wide : Bool) {x0 y0 r : Nat} (hr : r < s.mode.height) (d : Display) :
    (∀ px py, (drawRow s.mode x0 (y0 + r) (s.spriteRowBits wide r) d).1.pixel px py =
      (d.pixel px py ^^ s.coveredByRows wide x0 y0 r 1 px py)) ∧
    ((drawRow s.mode x0 (y0 + r) (s.spriteRowBits wide r) d).2 = true ↔
      ∃ px py, d.pixel px py = true ∧ s.coveredByRows wide x0 y0 r 1 px py = true) := by
  classical
  have hw := s.mode.width_le
  have hh := s.mode.height_le
  have hrw := rowWidth_le wide
  have hlen : (s.spriteRowBits wide r).length ≤ s.mode.width := by simp [State.spriteRowBits]; omega
  have hy : (y0 + r) % s.mode.height < 64 := lt_of_lt_of_le (Nat.mod_lt _ (by omega)) hh.1
  obtain ⟨h1, h2⟩ := drawPixels_spec hw.1 hy (s.spriteRowBits wide r) x0 d false hlen
  constructor
  · intro px py
    rw [drawRow, h1]
    simp only [rowCovers_spriteRowBits s wide hr, Bool.decide_eq_true]
  · rw [drawRow, h2]
    simp only [Bool.false_or, decide_eq_true_eq]
    constructor
    · rintro ⟨px, hp, hc⟩
      exact ⟨px, _, hp, (rowCovers_spriteRowBits s wide hr).mp ⟨rfl, hc⟩⟩
    · rintro ⟨px, py, hp, hc⟩
      obtain ⟨hy, hc⟩ := (rowCovers_spriteRowBits s wide hr).mpr hc
      exact ⟨px, hy ▸ hp, hc⟩

/-- Everything the rows of a draw do: the rows that exist are drawn, and if one does not exist it raises at 0x1000 (R218, R222). -/
theorem drawRows_spec (wide : Bool) (x0 y0 : Nat) (count : Nat) : ∀ (r : Nat) (hit : Bool) (s : State),
    r + count ≤ s.mode.height → r ≤ s.rowsInMemory wide →
    ∃ (d : Display) (hit' : Bool),
      (∀ px py, d.pixel px py =
        (s.display.pixel px py ^^ s.coveredByRows wide x0 y0 r (min count (s.rowsInMemory wide - r)) px py)) ∧
      (hit' = true ↔ hit = true ∨ ∃ px py, s.display.pixel px py = true ∧
        s.coveredByRows wide x0 y0 r (min count (s.rowsInMemory wide - r)) px py = true) ∧
      drawRows wide s.i.toNat x0 y0 count r hit s =
        if r + count ≤ s.rowsInMemory wide then .done hit' (s.setDisplay d)
        else .raised (.outOfBoundsAddress 0x1000) (s.setDisplay d) := by
  have hnone : ∀ (s : State) r px py, s.coveredByRows wide x0 y0 r 0 px py = false := by
    intro s r px py
    simp only [State.coveredByRows, Nat.add_zero]
    by_cases h : wrapDistance s.mode.height y0 py < r
    · have : ¬ r ≤ wrapDistance s.mode.height y0 py := by omega
      simp [this]
    · simp [h]
  induction count with
  | zero =>
    intro r hit s _ hr
    refine ⟨s.display, hit, ?_, ?_, ?_⟩
    · simp [hnone]
    · simp [hnone]
    · rw [drawRows, if_pos (by omega)]; rfl
  | succ count ih =>
    intro r hit s hh hr
    by_cases hlt : r < s.rowsInMemory wide
    · obtain ⟨h1, h2⟩ := drawRow_spec s wide (x0 := x0) (y0 := y0) (show r < s.mode.height by omega) s.display
      rw [drawRows, spriteRow_ok hlt]
      simp only
      generalize hD : drawRow s.mode x0 (y0 + r) (s.spriteRowBits wide r) s.display = D at h1 h2
      obtain ⟨d, hit', h3, h4, h5⟩ := ih (r + 1) (hit || D.2) (s.setDisplay D.1) (by simpa using by omega) hlt
      have hm : min (count + 1) (s.rowsInMemory wide - r) = min count (s.rowsInMemory wide - (r + 1)) + 1 := by omega
      have hm2 : (s.setDisplay D.1).rowsInMemory wide = s.rowsInMemory wide := rfl
      have hc : ∀ r c px py, (s.setDisplay D.1).coveredByRows wide x0 y0 r c px py = s.coveredByRows wide x0 y0 r c px py :=
        fun _ _ _ _ => rfl
      simp only [hm2, hc, State.setDisplay_display] at h3 h4
      rw [hm]
      have hs := fun m px py => State.coveredByRows_succ s wide x0 y0 r m px py
      generalize min count (s.rowsInMemory wide - (r + 1)) = m at h3 h4
      refine ⟨d, hit', ?_, ?_, ?_⟩
      · intro px py
        rw [h3, h1, hs m, Bool.xor_assoc]
      · rw [h4, Bool.or_eq_true, h2, or_assoc]
        refine or_congr_right ?_
        constructor
        · rintro (⟨px, py, hp, hq⟩ | ⟨px, py, hp, hq⟩)
          · exact ⟨px, py, hp, by rw [hs m, hq, State.coveredByRows_disjoint s wide hq]; rfl⟩
          · have hn : s.coveredByRows wide x0 y0 r 1 px py = false := by
              by_contra hx
              rw [Bool.not_eq_false] at hx
              rw [State.coveredByRows_disjoint s wide hx] at hq
              exact absurd hq (by simp)
            refine ⟨px, py, by simpa [h1, hn] using hp, ?_⟩
            rw [hs m, hn, hq]; rfl
        · rintro ⟨px, py, hp, hq⟩
          rw [hs m] at hq
          by_cases hn : s.coveredByRows wide x0 y0 r 1 px py = true
          · exact .inl ⟨px, py, hp, hn⟩
          · rw [Bool.not_eq_true] at hn
            exact .inr ⟨px, py, by rw [h1, hn, hp]; rfl, by rw [hn] at hq; simpa using hq⟩
      · have : (s.setDisplay D.1).i = s.i := rfl
        rw [this, hm2] at h5
        rw [h5]
        have : r + 1 + count = r + (count + 1) := by omega
        rw [this]; rfl
    · have hr' : r = s.rowsInMemory wide := by omega
      have hm : min (count + 1) (s.rowsInMemory wide - r) = 0 := by omega
      refine ⟨s.display, hit, ?_, ?_, ?_⟩
      · simp [hm, hnone]
      · simp [hm, hnone]
      · rw [drawRows, spriteRow_beyond hr', if_neg (by omega)]; rfl

end Sys2Proof.Machine
end

