-- ==== Sys2Proof/Laws/Exec.lean ====
section
/-! SUPPORT. What each instruction writes besides `PC` and the fault state, and how a step ends, for all instructions at once. -/

namespace Sys2Proof.Machine

/-! ### Results and skips -/

theorem setReg_get (s : State) (x r : Reg) (b : Byte) : (s.v.set x.val b)[r.val] = if r = x then b else s.reg r :=
  State.reg_setReg s x r b

theorem setReg_flag_get (s : State) (x r : Reg) (b c : Byte) :
    ((s.v.set x.val b).set 15 c)[r.val] = if r = VF then c else if r = x then b else s.reg r :=
  (State.reg_setReg (s.setReg x b) VF r c).trans (by rw [State.reg_setReg])

/-- Everything a write of one register and a fall through do (R140). -/
theorem resultOnly_next {s : State} (x : Reg) (b : Byte) (h : s.canFallThrough) :
    resultOnly x b s = .next { s with v := s.v.set x.val b, pc := s.pc + 2 } :=
  (advance_next (by exact h)).trans rfl

theorem resultOnly_last {s : State} (x : Reg) (b : Byte) (h : s.pc = 0xFFE) :
    resultOnly x b s = .next { s with v := s.v.set x.val b, fault := some (.outOfBoundsAddress 0x1000) } :=
  (advance_last (by exact h)).trans rfl

/-- Everything a write of a result and then a flag does (R154). -/
theorem resultThenFlag_next {s : State} (x : Reg) (b c : Byte) (h : s.canFallThrough) :
    resultThenFlag x b c s = .next { s with v := (s.v.set x.val b).set 15 c, pc := s.pc + 2 } :=
  (advance_next (by exact h)).trans rfl

theorem resultThenFlag_last {s : State} (x : Reg) (b c : Byte) (h : s.pc = 0xFFE) :
    resultThenFlag x b c s =
      .next { s with v := (s.v.set x.val b).set 15 c, fault := some (.outOfBoundsAddress 0x1000) } :=
  (advance_last (by exact h)).trans rfl

/-- Everything a skip does from an even address (R119). -/
theorem skipIf_spec (taken : Bool) {s : State} {t : Nat} (he : s.pc.toNat % 2 = 0)
    (ht : t = s.pc.toNat + if taken then 4 else 2) :
    (t < 0x1000 → skipIf taken s = .next { s with pc := BitVec.ofNat 12 t }) ∧
    (0x1000 ≤ t → skipIf taken s = .next { s with fault := some (.outOfBoundsAddress t) }) := by
  subst ht
  refine ⟨fun h => ?_, fun h => ?_⟩
  · rw [skipIf, updatePC_even _ h (by split <;> omega)]; rfl
  · rw [skipIf, updatePC_beyond _ h]; rfl

/-! ### How a step ends -/

/-- `r` is the state `u` with the PC update made, or with a fault recorded and `PC` kept (R104, R246). -/
def EndsFrom (u : State) (r : Result) : Prop :=
  (∃ a : Addr, a.toNat % 2 = 0 ∧ r = .next (u.setPC a)) ∨ (∃ k, r = .next (u.setFault (some k)))

theorem endsFrom_updatePC (t : Nat) (s : State) : EndsFrom s (updatePC t s) := by
  rcases updatePC_cases t s with ⟨-, h⟩ | ⟨-, -, h⟩ | ⟨h1, h2, h⟩
  · exact .inr ⟨_, h⟩
  · exact .inr ⟨_, h⟩
  · exact .inl ⟨_, by rw [BitVec.toNat_ofNat]; omega, h⟩

theorem endsFrom_advance (s : State) : EndsFrom s (advance s) := endsFrom_updatePC _ s

theorem endsFrom_raise (k : FaultKind) (s : State) : EndsFrom s (raise k s) := .inr ⟨k, rfl⟩

/-- The state a part of a step left. -/
def Res.state {α : Type} : Res α → State
  | .done _ s => s
  | .raised _ s => s

theorem endsFrom_thenAdvance (r : Res Unit) : EndsFrom r.state r.thenAdvance := by
  cases r with
  | done _ s => exact endsFrom_advance s
  | raised k s => exact endsFrom_raise k s

/-! ### What each instruction writes -/

/-- The pixels, VF and all else after the rows of a draw: what stands when the instruction ends (R218). -/
def drawn : Res Bool → State
  | .done hit s => s.setReg VF (flagByte hit)
  | .raised _ s => s

/-- The writes of each instruction besides `PC` and the fault state. -/
def State.effect : Instr → State → State
  | .cls, s => s.setDisplay Display.blank
  | .ret, s => (pop s).state
  | .low, s => s.setMode .normal
  | .high, s => s.setMode .extended
  | .jpNnn _, s => s
  | .callNnn _, s => (push (BitVec.ofNat 13 (s.pc.toNat + 2)) s).state
  | .seVxKk _ _, s => s
  | .sneVxKk _ _, s => s
  | .seVxVy _ _, s => s
  | .ldVxKk x kk, s => s.setReg x kk
  | .addVxKk x kk, s => s.setReg x (sumByte (s.reg x) kk)
  | .ldVxVy x y, s => s.setReg x (s.reg y)
  | .orVxVy x y, s => s.setReg x (s.reg x ||| s.reg y)
  | .andVxVy x y, s => s.setReg x (s.reg x &&& s.reg y)
  | .xorVxVy x y, s => s.setReg x (s.reg x ^^^ s.reg y)
  | .addVxVy x y, s => (s.setReg x (sumByte (s.reg x) (s.reg y))).setReg VF (carryOut (s.reg x) (s.reg y))
  | .subVxVy x y, s => (s.setReg x (diffByte (s.reg x) (s.reg y))).setReg VF (noBorrow (s.reg x) (s.reg y))
  | .shrVxVy x y, s =>
    (s.setReg x (shiftRight1 (shiftOperand x y s))).setReg VF (droppedLow (shiftOperand x y s))
  | .subnVxVy x y, s => (s.setReg x (diffByte (s.reg y) (s.reg x))).setReg VF (noBorrow (s.reg y) (s.reg x))
  | .shlVxVy x y, s =>
    (s.setReg x (shiftLeft1 (shiftOperand x y s))).setReg VF (droppedHigh (shiftOperand x y s))
  | .sneVxVy _ _, s => s
  | .ldINnn nnn, s => (writeI nnn.toNat s).state
  | .jpV0Nnn _, s => s
  | .rndVxKk x kk, s => s.countDraw.setReg x (Config.rng s.draws &&& kk)
  | .drwVxVyN x y n, s =>
    drawn (drawRows (isWide s.mode n) s.i.toNat (s.reg x).toNat (s.reg y).toNat (spriteRows s.mode n) 0 false s)
  | .skpVx _, s => s
  | .sknpVx _, s => s
  | .ldVxDt x, s => s.setReg x s.dt
  | .ldVxK x, s =>
    match lowestPressed s with
    | some k => s.setReg x (BitVec.ofNat 8 k.val)
    | none => s
  | .ldDtVx x, s => s.setDT (s.reg x)
  | .ldStVx x, s => s.setST (s.reg x)
  | .addIVx x, s => (writeI (s.i.toNat + (s.reg x).toNat) s).state
  | .ldFVx x, s =>
    if 0xF < (s.reg x).toNat then s else (writeI (s.fontBase.toNat + 5 * (s.reg x).toNat) s).state
  | .ldBVx x, s => (storeBytes s.i.toNat (bcdDigits (s.reg x)) s).state
  | .ldMemVx x, s => (storeBytes s.i.toNat ((regsUpTo x).map s.reg) s).state
  | .ldVxMem x, s => (loadRegs s.i.toNat (regsUpTo x) s).state

/-- Every instruction answers a next state: its writes, then the PC update or a recorded fault. -/
theorem exec_endsFrom_effect (i : Instr) (s : State) : EndsFrom (s.effect i) (exec i s) := by
  cases i with
  | cls | low | high | ldVxKk | addVxKk | ldVxVy | orVxVy | andVxVy | xorVxVy | addVxVy | subVxVy | shrVxVy
  | subnVxVy | shlVxVy | rndVxKk | ldVxDt | ldDtVx | ldStVx => exact endsFrom_advance _
  | jpNnn | jpV0Nnn | seVxKk | sneVxKk | seVxVy | sneVxVy => exact endsFrom_updatePC _ _
  | ldINnn | addIVx | ldBVx | ldMemVx | ldVxMem => exact endsFrom_thenAdvance _
  | ret =>
    simp only [State.effect, exec, execRet]
    cases pop s with
    | done t u => exact endsFrom_updatePC _ u
    | raised k u => exact endsFrom_raise k u
  | callNnn nnn =>
    simp only [State.effect, exec, execCallNnn]
    cases push (BitVec.ofNat 13 (s.pc.toNat + 2)) s with
    | done t u => exact endsFrom_updatePC _ u
    | raised k u => exact endsFrom_raise k u
  | drwVxVyN x y n =>
    simp only [State.effect, exec, execDrwVxVyN]
    cases drawRows (isWide s.mode n) s.i.toNat (s.reg x).toNat (s.reg y).toNat (spriteRows s.mode n) 0 false s with
    | done hit u => exact endsFrom_advance _
    | raised k u => exact endsFrom_raise k u
  | skpVx x =>
    simp only [State.effect, exec, execSkpVx]
    cases keyOperand x s with
    | ok k => exact endsFrom_updatePC _ s
    | error k => exact endsFrom_raise k s
  | sknpVx x =>
    simp only [State.effect, exec, execSknpVx]
    cases keyOperand x s with
    | ok k => exact endsFrom_updatePC _ s
    | error k => exact endsFrom_raise k s
  | ldVxK x =>
    simp only [State.effect, exec, execLdVxK]
    cases lowestPressed s with
    | some k => exact endsFrom_advance _
    | none => exact endsFrom_updatePC _ s
  | ldFVx x =>
    simp only [State.effect, exec, execLdFVx]
    split
    · exact endsFrom_raise _ s
    · exact endsFrom_thenAdvance _

/-! ### The states the parts leave -/

theorem writeI_state (t : Nat) (s : State) : (writeI t s).state = s.setI (if t < 0x1000 then BitVec.ofNat 12 t else s.i) := by
  rcases writeI_cases t s with ⟨h, e⟩ | ⟨h, e⟩
  · rw [e, if_neg (by omega)]; rfl
  · rw [e, if_pos h]; rfl

theorem push_state (v : BitVec 13) (s : State) : ∃ k p, (push v s).state = s.setStack k p ∧
    ∀ j : Fin 16, k[j.val] = s.stack[j.val] ∨ k[j.val] = v := by
  rcases push_cases v s with ⟨-, e⟩ | ⟨h, e⟩
  · exact ⟨s.stack, s.sp, by rw [e]; rfl, fun j => .inl rfl⟩
  · refine ⟨_, _, by rw [e]; rfl, fun j => ?_⟩
    rw [Vector.getElem_set]
    split
    · exact .inr rfl
    · exact .inl rfl

theorem pop_state (s : State) : ∃ p, (pop s).state = s.setStack s.stack p := by
  rcases pop_cases s with ⟨-, e⟩ | ⟨h, e⟩
  · exact ⟨s.sp, by rw [e]; rfl⟩
  · exact ⟨_, by rw [e]; rfl⟩

theorem storeBytes_state (bs : List Byte) {a : Nat} (s : State) (h : a ≤ 0x1000) :
    (storeBytes a bs s).state = s.setMem (Memory.writeBytes s.mem a bs) := by
  rw [storeBytes_eq bs a s h]; split <;> rfl

theorem loadRegs_state (rs : List Reg) {a : Nat} (s : State) (h : a ≤ 0x1000) :
    (loadRegs a rs s).state = s.loadedFrom a rs := by
  rw [loadRegs_eq rs a s h]; split <;> rfl

/-- A sprite has at most 16 rows, fewer than the screen. -/
theorem spriteRows_le (m : Mode) (n : Nibble) : spriteRows m n ≤ 16 ∧ spriteRows m n ≤ m.height := by
  have h1 : spriteRows m n ≤ 16 := by
    have := n.isLt
    unfold spriteRows
    split <;> omega
  exact ⟨h1, le_trans h1 (by have := m.height_le; omega)⟩

/-- What the rows of `DRW` leave: pixels inside the active region inverted where an existing row covers them, and VF. -/
theorem drawn_state (s : State) (x y : Reg) (n : Nibble) : ∃ d : Display,
    (∀ px py, d.pixel px py = (s.display.pixel px py ^^
      s.spriteCovers (isWide s.mode n) (min (spriteRows s.mode n) (s.rowsInMemory (isWide s.mode n)))
        (s.reg x).toNat (s.reg y).toNat px py)) ∧
    (s.effect (.drwVxVyN x y n) = s.setDisplay d ∨ ∃ b, s.effect (.drwVxVyN x y n) = (s.setDisplay d).setReg VF b) := by
  obtain ⟨d, hit, h1, -, h3⟩ := drawRows_spec (isWide s.mode n) (s.reg x).toNat (s.reg y).toNat (spriteRows s.mode n)
    0 false s (by have := (spriteRows_le s.mode n).2; omega) (Nat.zero_le _)
  refine ⟨d, fun px py => by rw [h1, Nat.sub_zero, State.coveredByRows_zero], ?_⟩
  simp only [State.effect, h3]
  split
  · exact .inr ⟨_, rfl⟩
  · exact .inl rfl

theorem effect_ldVxMem (x : Reg) (s : State) :
    s.effect (.ldVxMem x) = { s with v := (s.loadedFrom s.i.toNat (regsUpTo x)).v } := by
  have := s.i.isLt
  simp only [State.effect, loadRegs_state _ s (by omega : s.i.toNat ≤ 0x1000)]
  exact State.loadedFrom_frame _ _ _

theorem effect_ldMemVx (x : Reg) (s : State) :
    s.effect (.ldMemVx x) = s.setMem (Memory.writeBytes s.mem s.i.toNat ((regsUpTo x).map s.reg)) := by
  have := s.i.isLt
  simp only [State.effect, storeBytes_state _ s (by omega : s.i.toNat ≤ 0x1000)]

theorem effect_ldBVx (x : Reg) (s : State) :
    s.effect (.ldBVx x) = s.setMem (Memory.writeBytes s.mem s.i.toNat (bcdDigits (s.reg x))) := by
  have := s.i.isLt
  simp only [State.effect, storeBytes_state _ s (by omega : s.i.toNat ≤ 0x1000)]

/-- What becomes of memory. -/
theorem effect_mem (i : Instr) (s : State) : (s.effect i).mem = s.mem ∨
    (∃ x, i = .ldBVx x ∧ (s.effect i).mem = Memory.writeBytes s.mem s.i.toNat (bcdDigits (s.reg x))) ∨
    ∃ x, i = .ldMemVx x ∧ (s.effect i).mem = Memory.writeBytes s.mem s.i.toNat ((regsUpTo x).map s.reg) := by
  cases i with
  | ldVxMem x => rw [effect_ldVxMem]; simp
  | ldMemVx x => rw [effect_ldMemVx]; simp
  | ldBVx x => rw [effect_ldBVx]; simp
  | drwVxVyN x y n => obtain ⟨d, -, h | ⟨b, h⟩⟩ := drawn_state s x y n <;> rw [h] <;> simp
  | ret => obtain ⟨p, h⟩ := pop_state s; simp only [State.effect, h]; simp
  | callNnn n =>
    obtain ⟨k, p, h, -⟩ := push_state (BitVec.ofNat 13 (s.pc.toNat + 2)) s
    simp only [State.effect, h]; simp
  | ldVxK x => simp only [State.effect]; split <;> simp
  | ldFVx x => simp only [State.effect]; split <;> simp [writeI_state]
  | ldINnn | addIVx => simp only [State.effect, writeI_state]; simp
  | _ => simp [State.effect]

/-- Every store keeps the canonical form of memory. -/
theorem effect_wf (i : Instr) {s : State} (h : Memory.wf s.mem = true) : Memory.wf (s.effect i).mem = true := by
  rcases effect_mem i s with e | ⟨x, -, e⟩ | ⟨x, -, e⟩ <;> rw [e]
  · exact h
  · exact Memory.wf_writeBytes _ _ h
  · exact Memory.wf_writeBytes _ _ h

/-- What no instruction's own writes touch: `PC` and the fault state are left to the end of the step. -/
theorem effect_pc_fault (i : Instr) (s : State) : (s.effect i).pc = s.pc ∧ (s.effect i).fault = s.fault := by
  cases i with
  | ldVxMem x => rw [effect_ldVxMem]; simp
  | ldMemVx x => rw [effect_ldMemVx]; simp
  | ldBVx x => rw [effect_ldBVx]; simp
  | drwVxVyN x y n => obtain ⟨d, -, h | ⟨b, h⟩⟩ := drawn_state s x y n <;> rw [h] <;> simp
  | ret => obtain ⟨p, h⟩ := pop_state s; simp only [State.effect, h]; simp
  | callNnn n =>
    obtain ⟨k, p, h, -⟩ := push_state (BitVec.ofNat 13 (s.pc.toNat + 2)) s
    simp only [State.effect, h]; simp
  | ldVxK x => simp only [State.effect]; split <;> simp
  | ldFVx x => simp only [State.effect]; split <;> simp [writeI_state]
  | ldINnn | addIVx => simp only [State.effect, writeI_state]; simp
  | _ => simp [State.effect]

/-- How many rows of a sprite exist, as a bound on the address after them. -/
theorem le_rowsInMemory (s : State) (wide : Bool) (rows : Nat) :
    rows ≤ s.rowsInMemory wide ↔ s.i.toNat + rows * rowBytes wide ≤ 0x1000 := by
  have := s.i.isLt
  cases wide <;> simp [State.rowsInMemory, rowBytes] <;> omega

theorem isWide_eq (m : Mode) (n : Nibble) : isWide m n = decide (m = .extended ∧ n = 0) := by
  rw [isWide, Bool.decide_and]

/-- Every memory operation keeps the canonical form. -/
theorem placeByte_wf (a : Nat) (b : Byte) {s : State} (h : Memory.wf s.mem = true) :
    Memory.wf (placeByte a b s).mem = true := by
  unfold placeByte
  split
  · next ha => exact Memory.wf_write b h ha
  · exact h

theorem memWrite_wf (a : Nat) (b : Byte) {s : State} (h : Memory.wf s.mem = true) :
    Memory.wf (memWrite a b s).state.mem = true := by
  unfold memWrite
  split
  · next ha => exact Memory.wf_write b h ha
  · exact h

end Sys2Proof.Machine
end

