-- ==== Sys2Proof/Laws/PerInstr.lean ====
section
/-! SUPPORT. Statements about every instruction as syntax, one lemma for each constructor (30_encoding.md R71 to R80). -/

namespace Sys2Proof.Laws

/-! ### Every operand fits its field -/

/-- The instruction is well formed: the types of its operands are the widths of R71. -/
def Fits.Statement (i : Instr) : Prop := i.wellFormed = true

/-- A register index fits `x` and `y`. -/
theorem fits_x (x : Reg) : Field.x.fits x.val = true := by simp [Field.fits, Field.width]

theorem fits_y (y : Reg) : Field.y.fits y.val = true := by simp [Field.fits, Field.width]

theorem fits_n (n : Nibble) : Field.n.fits n.toNat = true := decide_eq_true n.isLt

theorem fits_kk (kk : Byte) : Field.kk.fits kk.toNat = true := decide_eq_true kk.isLt

theorem fits_nnn (nnn : Addr) : Field.nnn.fits nnn.toNat = true := decide_eq_true nnn.isLt

theorem Fits.cls : Fits.Statement (.cls) := rfl

theorem Fits.ret : Fits.Statement (.ret) := rfl

theorem Fits.low : Fits.Statement (.low) := rfl

theorem Fits.high : Fits.Statement (.high) := rfl

theorem Fits.jpNnn (nnn : Addr) : Fits.Statement (.jpNnn nnn) := by simp [Fits.Statement, Instr.wellFormed, Instr.fields, fits_nnn]

theorem Fits.callNnn (nnn : Addr) : Fits.Statement (.callNnn nnn) := by simp [Fits.Statement, Instr.wellFormed, Instr.fields, fits_nnn]

theorem Fits.seVxKk (x : Reg) (kk : Byte) : Fits.Statement (.seVxKk x kk) := by
  simp [Fits.Statement, Instr.wellFormed, Instr.fields, fits_x, fits_kk]

theorem Fits.sneVxKk (x : Reg) (kk : Byte) : Fits.Statement (.sneVxKk x kk) := by
  simp [Fits.Statement, Instr.wellFormed, Instr.fields, fits_x, fits_kk]

theorem Fits.seVxVy (x y : Reg) : Fits.Statement (.seVxVy x y) := by
  simp [Fits.Statement, Instr.wellFormed, Instr.fields, fits_x, fits_y]

theorem Fits.ldVxKk (x : Reg) (kk : Byte) : Fits.Statement (.ldVxKk x kk) := by
  simp [Fits.Statement, Instr.wellFormed, Instr.fields, fits_x, fits_kk]

theorem Fits.addVxKk (x : Reg) (kk : Byte) : Fits.Statement (.addVxKk x kk) := by
  simp [Fits.Statement, Instr.wellFormed, Instr.fields, fits_x, fits_kk]

theorem Fits.ldVxVy (x y : Reg) : Fits.Statement (.ldVxVy x y) := by
  simp [Fits.Statement, Instr.wellFormed, Instr.fields, fits_x, fits_y]

theorem Fits.orVxVy (x y : Reg) : Fits.Statement (.orVxVy x y) := by
  simp [Fits.Statement, Instr.wellFormed, Instr.fields, fits_x, fits_y]

theorem Fits.andVxVy (x y : Reg) : Fits.Statement (.andVxVy x y) := by
  simp [Fits.Statement, Instr.wellFormed, Instr.fields, fits_x, fits_y]

theorem Fits.xorVxVy (x y : Reg) : Fits.Statement (.xorVxVy x y) := by
  simp [Fits.Statement, Instr.wellFormed, Instr.fields, fits_x, fits_y]

theorem Fits.addVxVy (x y : Reg) : Fits.Statement (.addVxVy x y) := by
  simp [Fits.Statement, Instr.wellFormed, Instr.fields, fits_x, fits_y]

theorem Fits.subVxVy (x y : Reg) : Fits.Statement (.subVxVy x y) := by
  simp [Fits.Statement, Instr.wellFormed, Instr.fields, fits_x, fits_y]

theorem Fits.shrVxVy (x y : Reg) : Fits.Statement (.shrVxVy x y) := by
  simp [Fits.Statement, Instr.wellFormed, Instr.fields, fits_x, fits_y]

theorem Fits.subnVxVy (x y : Reg) : Fits.Statement (.subnVxVy x y) := by
  simp [Fits.Statement, Instr.wellFormed, Instr.fields, fits_x, fits_y]

theorem Fits.shlVxVy (x y : Reg) : Fits.Statement (.shlVxVy x y) := by
  simp [Fits.Statement, Instr.wellFormed, Instr.fields, fits_x, fits_y]

theorem Fits.sneVxVy (x y : Reg) : Fits.Statement (.sneVxVy x y) := by
  simp [Fits.Statement, Instr.wellFormed, Instr.fields, fits_x, fits_y]

theorem Fits.ldINnn (nnn : Addr) : Fits.Statement (.ldINnn nnn) := by simp [Fits.Statement, Instr.wellFormed, Instr.fields, fits_nnn]

theorem Fits.jpV0Nnn (nnn : Addr) : Fits.Statement (.jpV0Nnn nnn) := by simp [Fits.Statement, Instr.wellFormed, Instr.fields, fits_nnn]

theorem Fits.rndVxKk (x : Reg) (kk : Byte) : Fits.Statement (.rndVxKk x kk) := by
  simp [Fits.Statement, Instr.wellFormed, Instr.fields, fits_x, fits_kk]

theorem Fits.drwVxVyN (x y : Reg) (n : Nibble) : Fits.Statement (.drwVxVyN x y n) := by
  simp [Fits.Statement, Instr.wellFormed, Instr.fields, fits_x, fits_y, fits_n]

theorem Fits.skpVx (x : Reg) : Fits.Statement (.skpVx x) := by simp [Fits.Statement, Instr.wellFormed, Instr.fields, fits_x]

theorem Fits.sknpVx (x : Reg) : Fits.Statement (.sknpVx x) := by simp [Fits.Statement, Instr.wellFormed, Instr.fields, fits_x]

theorem Fits.ldVxDt (x : Reg) : Fits.Statement (.ldVxDt x) := by simp [Fits.Statement, Instr.wellFormed, Instr.fields, fits_x]

theorem Fits.ldVxK (x : Reg) : Fits.Statement (.ldVxK x) := by simp [Fits.Statement, Instr.wellFormed, Instr.fields, fits_x]

theorem Fits.ldDtVx (x : Reg) : Fits.Statement (.ldDtVx x) := by simp [Fits.Statement, Instr.wellFormed, Instr.fields, fits_x]

theorem Fits.ldStVx (x : Reg) : Fits.Statement (.ldStVx x) := by simp [Fits.Statement, Instr.wellFormed, Instr.fields, fits_x]

theorem Fits.addIVx (x : Reg) : Fits.Statement (.addIVx x) := by simp [Fits.Statement, Instr.wellFormed, Instr.fields, fits_x]

theorem Fits.ldFVx (x : Reg) : Fits.Statement (.ldFVx x) := by simp [Fits.Statement, Instr.wellFormed, Instr.fields, fits_x]

theorem Fits.ldBVx (x : Reg) : Fits.Statement (.ldBVx x) := by simp [Fits.Statement, Instr.wellFormed, Instr.fields, fits_x]

theorem Fits.ldMemVx (x : Reg) : Fits.Statement (.ldMemVx x) := by simp [Fits.Statement, Instr.wellFormed, Instr.fields, fits_x]

theorem Fits.ldVxMem (x : Reg) : Fits.Statement (.ldVxMem x) := by simp [Fits.Statement, Instr.wellFormed, Instr.fields, fits_x]

/-! ### Every instruction has its row -/

/-- Some row of the opcode table admits the instruction's word and builds the instruction from it. -/
def HasRow.Statement (i : Instr) : Prop :=
  ∃ r ∈ opcodeTable, r.admits (encode i) = true ∧ r.build (encode i) = i

/-- A row of one of the six formats is a row of the table. -/
theorem mem_opcodeTable {r : Row} (h : r ∈ rowsFixed ∨ r ∈ rowsAddress ∨ r ∈ rowsByte ∨ r ∈ rowsRegister ∨
    r ∈ rowsDraw ∨ r ∈ rowsSub) : r ∈ opcodeTable := by
  simp only [opcodeTable, List.mem_append]; tauto

theorem HasRow.cls : HasRow.Statement (.cls) :=
  ⟨⟨0xFFFF, 0x00E0, fun _ => .cls⟩, mem_opcodeTable (.inl (by simp [rowsFixed])), by decide, rfl⟩

theorem HasRow.ret : HasRow.Statement (.ret) :=
  ⟨⟨0xFFFF, 0x00EE, fun _ => .ret⟩, mem_opcodeTable (.inl (by simp [rowsFixed])), by decide, rfl⟩

theorem HasRow.low : HasRow.Statement (.low) :=
  ⟨⟨0xFFFF, 0x00FE, fun _ => .low⟩, mem_opcodeTable (.inl (by simp [rowsFixed])), by decide, rfl⟩

theorem HasRow.high : HasRow.Statement (.high) :=
  ⟨⟨0xFFFF, 0x00FF, fun _ => .high⟩, mem_opcodeTable (.inl (by simp [rowsFixed])), by decide, rfl⟩

theorem HasRow.jpNnn (nnn : Addr) : HasRow.Statement (.jpNnn nnn) :=
  ⟨⟨0xF000, 0x1000, fun w => .jpNnn (fieldNNN w)⟩, mem_opcodeTable (.inr (.inl (by simp [rowsAddress]))),
    by simp only [Row.admits, encode, wordAddress_masked]; decide, by simp only [encode, fieldNNN_wordAddress]⟩

theorem HasRow.callNnn (nnn : Addr) : HasRow.Statement (.callNnn nnn) :=
  ⟨⟨0xF000, 0x2000, fun w => .callNnn (fieldNNN w)⟩, mem_opcodeTable (.inr (.inl (by simp [rowsAddress]))),
    by simp only [Row.admits, encode, wordAddress_masked]; decide, by simp only [encode, fieldNNN_wordAddress]⟩

theorem HasRow.seVxKk (x : Reg) (kk : Byte) : HasRow.Statement (.seVxKk x kk) :=
  ⟨⟨0xF000, 0x3000, fun w => .seVxKk (fieldX w) (fieldKK w)⟩, mem_opcodeTable (.inr (.inr (.inl (by simp [rowsByte])))),
    by simp only [Row.admits, encode, wordByte_masked]; decide, by simp only [encode, fieldX_wordByte, fieldKK_wordByte]⟩

theorem HasRow.sneVxKk (x : Reg) (kk : Byte) : HasRow.Statement (.sneVxKk x kk) :=
  ⟨⟨0xF000, 0x4000, fun w => .sneVxKk (fieldX w) (fieldKK w)⟩, mem_opcodeTable (.inr (.inr (.inl (by simp [rowsByte])))),
    by simp only [Row.admits, encode, wordByte_masked]; decide, by simp only [encode, fieldX_wordByte, fieldKK_wordByte]⟩

theorem HasRow.seVxVy (x y : Reg) : HasRow.Statement (.seVxVy x y) :=
  ⟨⟨0xF00F, 0x5000, fun w => .seVxVy (fieldX w) (fieldY w)⟩, mem_opcodeTable (.inr (.inr (.inr (.inl (by simp [rowsRegister]))))),
    by simp only [Row.admits, encode, wordRegister_masked]; decide, by simp only [encode, fieldX_wordRegister, fieldY_wordRegister]⟩

theorem HasRow.ldVxKk (x : Reg) (kk : Byte) : HasRow.Statement (.ldVxKk x kk) :=
  ⟨⟨0xF000, 0x6000, fun w => .ldVxKk (fieldX w) (fieldKK w)⟩, mem_opcodeTable (.inr (.inr (.inl (by simp [rowsByte])))),
    by simp only [Row.admits, encode, wordByte_masked]; decide, by simp only [encode, fieldX_wordByte, fieldKK_wordByte]⟩

theorem HasRow.addVxKk (x : Reg) (kk : Byte) : HasRow.Statement (.addVxKk x kk) :=
  ⟨⟨0xF000, 0x7000, fun w => .addVxKk (fieldX w) (fieldKK w)⟩, mem_opcodeTable (.inr (.inr (.inl (by simp [rowsByte])))),
    by simp only [Row.admits, encode, wordByte_masked]; decide, by simp only [encode, fieldX_wordByte, fieldKK_wordByte]⟩

theorem HasRow.ldVxVy (x y : Reg) : HasRow.Statement (.ldVxVy x y) :=
  ⟨⟨0xF00F, 0x8000, fun w => .ldVxVy (fieldX w) (fieldY w)⟩, mem_opcodeTable (.inr (.inr (.inr (.inl (by simp [rowsRegister]))))),
    by simp only [Row.admits, encode, wordRegister_masked]; decide, by simp only [encode, fieldX_wordRegister, fieldY_wordRegister]⟩

theorem HasRow.orVxVy (x y : Reg) : HasRow.Statement (.orVxVy x y) :=
  ⟨⟨0xF00F, 0x8001, fun w => .orVxVy (fieldX w) (fieldY w)⟩, mem_opcodeTable (.inr (.inr (.inr (.inl (by simp [rowsRegister]))))),
    by simp only [Row.admits, encode, wordRegister_masked]; decide, by simp only [encode, fieldX_wordRegister, fieldY_wordRegister]⟩

theorem HasRow.andVxVy (x y : Reg) : HasRow.Statement (.andVxVy x y) :=
  ⟨⟨0xF00F, 0x8002, fun w => .andVxVy (fieldX w) (fieldY w)⟩, mem_opcodeTable (.inr (.inr (.inr (.inl (by simp [rowsRegister]))))),
    by simp only [Row.admits, encode, wordRegister_masked]; decide, by simp only [encode, fieldX_wordRegister, fieldY_wordRegister]⟩

theorem HasRow.xorVxVy (x y : Reg) : HasRow.Statement (.xorVxVy x y) :=
  ⟨⟨0xF00F, 0x8003, fun w => .xorVxVy (fieldX w) (fieldY w)⟩, mem_opcodeTable (.inr (.inr (.inr (.inl (by simp [rowsRegister]))))),
    by simp only [Row.admits, encode, wordRegister_masked]; decide, by simp only [encode, fieldX_wordRegister, fieldY_wordRegister]⟩

theorem HasRow.addVxVy (x y : Reg) : HasRow.Statement (.addVxVy x y) :=
  ⟨⟨0xF00F, 0x8004, fun w => .addVxVy (fieldX w) (fieldY w)⟩, mem_opcodeTable (.inr (.inr (.inr (.inl (by simp [rowsRegister]))))),
    by simp only [Row.admits, encode, wordRegister_masked]; decide, by simp only [encode, fieldX_wordRegister, fieldY_wordRegister]⟩

theorem HasRow.subVxVy (x y : Reg) : HasRow.Statement (.subVxVy x y) :=
  ⟨⟨0xF00F, 0x8005, fun w => .subVxVy (fieldX w) (fieldY w)⟩, mem_opcodeTable (.inr (.inr (.inr (.inl (by simp [rowsRegister]))))),
    by simp only [Row.admits, encode, wordRegister_masked]; decide, by simp only [encode, fieldX_wordRegister, fieldY_wordRegister]⟩

theorem HasRow.shrVxVy (x y : Reg) : HasRow.Statement (.shrVxVy x y) :=
  ⟨⟨0xF00F, 0x8006, fun w => .shrVxVy (fieldX w) (fieldY w)⟩, mem_opcodeTable (.inr (.inr (.inr (.inl (by simp [rowsRegister]))))),
    by simp only [Row.admits, encode, wordRegister_masked]; decide, by simp only [encode, fieldX_wordRegister, fieldY_wordRegister]⟩

theorem HasRow.subnVxVy (x y : Reg) : HasRow.Statement (.subnVxVy x y) :=
  ⟨⟨0xF00F, 0x8007, fun w => .subnVxVy (fieldX w) (fieldY w)⟩, mem_opcodeTable (.inr (.inr (.inr (.inl (by simp [rowsRegister]))))),
    by simp only [Row.admits, encode, wordRegister_masked]; decide, by simp only [encode, fieldX_wordRegister, fieldY_wordRegister]⟩

theorem HasRow.shlVxVy (x y : Reg) : HasRow.Statement (.shlVxVy x y) :=
  ⟨⟨0xF00F, 0x800E, fun w => .shlVxVy (fieldX w) (fieldY w)⟩, mem_opcodeTable (.inr (.inr (.inr (.inl (by simp [rowsRegister]))))),
    by simp only [Row.admits, encode, wordRegister_masked]; decide, by simp only [encode, fieldX_wordRegister, fieldY_wordRegister]⟩

theorem HasRow.sneVxVy (x y : Reg) : HasRow.Statement (.sneVxVy x y) :=
  ⟨⟨0xF00F, 0x9000, fun w => .sneVxVy (fieldX w) (fieldY w)⟩, mem_opcodeTable (.inr (.inr (.inr (.inl (by simp [rowsRegister]))))),
    by simp only [Row.admits, encode, wordRegister_masked]; decide, by simp only [encode, fieldX_wordRegister, fieldY_wordRegister]⟩

theorem HasRow.ldINnn (nnn : Addr) : HasRow.Statement (.ldINnn nnn) :=
  ⟨⟨0xF000, 0xA000, fun w => .ldINnn (fieldNNN w)⟩, mem_opcodeTable (.inr (.inl (by simp [rowsAddress]))),
    by simp only [Row.admits, encode, wordAddress_masked]; decide, by simp only [encode, fieldNNN_wordAddress]⟩

theorem HasRow.jpV0Nnn (nnn : Addr) : HasRow.Statement (.jpV0Nnn nnn) :=
  ⟨⟨0xF000, 0xB000, fun w => .jpV0Nnn (fieldNNN w)⟩, mem_opcodeTable (.inr (.inl (by simp [rowsAddress]))),
    by simp only [Row.admits, encode, wordAddress_masked]; decide, by simp only [encode, fieldNNN_wordAddress]⟩

theorem HasRow.rndVxKk (x : Reg) (kk : Byte) : HasRow.Statement (.rndVxKk x kk) :=
  ⟨⟨0xF000, 0xC000, fun w => .rndVxKk (fieldX w) (fieldKK w)⟩, mem_opcodeTable (.inr (.inr (.inl (by simp [rowsByte])))),
    by simp only [Row.admits, encode, wordByte_masked]; decide, by simp only [encode, fieldX_wordByte, fieldKK_wordByte]⟩

theorem HasRow.drwVxVyN (x y : Reg) (n : Nibble) : HasRow.Statement (.drwVxVyN x y n) :=
  ⟨⟨0xF000, 0xD000, fun w => .drwVxVyN (fieldX w) (fieldY w) (fieldN w)⟩, mem_opcodeTable (.inr (.inr (.inr (.inr (.inl (by simp [rowsDraw])))))),
    by simp only [Row.admits, encode, wordRegister_maskedHigh]; decide, by simp only [encode, fieldX_wordRegister, fieldY_wordRegister, fieldN_wordRegister]⟩

theorem HasRow.skpVx (x : Reg) : HasRow.Statement (.skpVx x) :=
  ⟨⟨0xF0FF, 0xE09E, fun w => .skpVx (fieldX w)⟩, mem_opcodeTable (.inr (.inr (.inr (.inr (.inr (by simp [rowsSub])))))),
    by simp only [Row.admits, encode, wordByte_maskedSub]; decide, by simp only [encode, fieldX_wordByte]⟩

theorem HasRow.sknpVx (x : Reg) : HasRow.Statement (.sknpVx x) :=
  ⟨⟨0xF0FF, 0xE0A1, fun w => .sknpVx (fieldX w)⟩, mem_opcodeTable (.inr (.inr (.inr (.inr (.inr (by simp [rowsSub])))))),
    by simp only [Row.admits, encode, wordByte_maskedSub]; decide, by simp only [encode, fieldX_wordByte]⟩

theorem HasRow.ldVxDt (x : Reg) : HasRow.Statement (.ldVxDt x) :=
  ⟨⟨0xF0FF, 0xF007, fun w => .ldVxDt (fieldX w)⟩, mem_opcodeTable (.inr (.inr (.inr (.inr (.inr (by simp [rowsSub])))))),
    by simp only [Row.admits, encode, wordByte_maskedSub]; decide, by simp only [encode, fieldX_wordByte]⟩

theorem HasRow.ldVxK (x : Reg) : HasRow.Statement (.ldVxK x) :=
  ⟨⟨0xF0FF, 0xF00A, fun w => .ldVxK (fieldX w)⟩, mem_opcodeTable (.inr (.inr (.inr (.inr (.inr (by simp [rowsSub])))))),
    by simp only [Row.admits, encode, wordByte_maskedSub]; decide, by simp only [encode, fieldX_wordByte]⟩

theorem HasRow.ldDtVx (x : Reg) : HasRow.Statement (.ldDtVx x) :=
  ⟨⟨0xF0FF, 0xF015, fun w => .ldDtVx (fieldX w)⟩, mem_opcodeTable (.inr (.inr (.inr (.inr (.inr (by simp [rowsSub])))))),
    by simp only [Row.admits, encode, wordByte_maskedSub]; decide, by simp only [encode, fieldX_wordByte]⟩

theorem HasRow.ldStVx (x : Reg) : HasRow.Statement (.ldStVx x) :=
  ⟨⟨0xF0FF, 0xF018, fun w => .ldStVx (fieldX w)⟩, mem_opcodeTable (.inr (.inr (.inr (.inr (.inr (by simp [rowsSub])))))),
    by simp only [Row.admits, encode, wordByte_maskedSub]; decide, by simp only [encode, fieldX_wordByte]⟩

theorem HasRow.addIVx (x : Reg) : HasRow.Statement (.addIVx x) :=
  ⟨⟨0xF0FF, 0xF01E, fun w => .addIVx (fieldX w)⟩, mem_opcodeTable (.inr (.inr (.inr (.inr (.inr (by simp [rowsSub])))))),
    by simp only [Row.admits, encode, wordByte_maskedSub]; decide, by simp only [encode, fieldX_wordByte]⟩

theorem HasRow.ldFVx (x : Reg) : HasRow.Statement (.ldFVx x) :=
  ⟨⟨0xF0FF, 0xF029, fun w => .ldFVx (fieldX w)⟩, mem_opcodeTable (.inr (.inr (.inr (.inr (.inr (by simp [rowsSub])))))),
    by simp only [Row.admits, encode, wordByte_maskedSub]; decide, by simp only [encode, fieldX_wordByte]⟩

theorem HasRow.ldBVx (x : Reg) : HasRow.Statement (.ldBVx x) :=
  ⟨⟨0xF0FF, 0xF033, fun w => .ldBVx (fieldX w)⟩, mem_opcodeTable (.inr (.inr (.inr (.inr (.inr (by simp [rowsSub])))))),
    by simp only [Row.admits, encode, wordByte_maskedSub]; decide, by simp only [encode, fieldX_wordByte]⟩

theorem HasRow.ldMemVx (x : Reg) : HasRow.Statement (.ldMemVx x) :=
  ⟨⟨0xF0FF, 0xF055, fun w => .ldMemVx (fieldX w)⟩, mem_opcodeTable (.inr (.inr (.inr (.inr (.inr (by simp [rowsSub])))))),
    by simp only [Row.admits, encode, wordByte_maskedSub]; decide, by simp only [encode, fieldX_wordByte]⟩

theorem HasRow.ldVxMem (x : Reg) : HasRow.Statement (.ldVxMem x) :=
  ⟨⟨0xF0FF, 0xF065, fun w => .ldVxMem (fieldX w)⟩, mem_opcodeTable (.inr (.inr (.inr (.inr (.inr (by simp [rowsSub])))))),
    by simp only [Row.admits, encode, wordByte_maskedSub]; decide, by simp only [encode, fieldX_wordByte]⟩

end Sys2Proof.Laws
end

