-- ==== Sys2Proof/Laws/Step.lean ====
section
/-! SUPPORT. What one event does (60_exceptions.md R252, R253), and how a run goes on. -/

namespace Sys2Proof.Machine

theorem fire_schedule (e : Event) (es : List Event) {s : State} (h : s.schedule = e :: es) :
    step s = fire e (s.setSchedule es) := by simp only [step, h]

theorem step_idle {s : State} (h : s.schedule = []) : step s = cpuStep s := by simp only [step, h]

/-- A run takes one step and goes on from there. -/
theorem run_succ {s t : State} (n : Nat) (h : step s = .next t) :
    Host.Core.run Sys2Proof.core (n + 1) s = Host.Core.run Sys2Proof.core n t := by
  simp only [Host.Core.run, Sys2Proof.core, h]

/-- Counting down a byte that may be zero already. -/
theorem byte_pred {b : Byte} (h : b ≠ 0) : b - 1 = BitVec.ofNat 8 (b.toNat - 1) := by
  have h0 : b.toNat ≠ 0 := fun e => h (BitVec.eq_of_toNat_eq (by simpa using e))
  have := b.isLt
  apply BitVec.eq_of_toNat_eq
  rw [BitVec.toNat_sub, BitVec.toNat_ofNat]
  have h1 : (1 : Byte).toNat = 1 := rfl
  omega

/-- Everything a tick of the delay cadence does (R255). -/
theorem State.tickDT_eq (s : State) : s.tickDT = s.setDT (BitVec.ofNat 8 (s.dt.toNat - 1)) := by
  unfold State.tickDT
  by_cases h : s.dt = 0
  · have : BitVec.ofNat 8 (s.dt.toNat - 1) = s.dt := by rw [h]; rfl
    rw [if_pos h, this]; rfl
  · rw [if_neg h, byte_pred h]

/-- Everything a tick of the sound cadence does (R256). -/
theorem State.tickST_eq (s : State) : s.tickST = s.setST (BitVec.ofNat 8 (s.st.toNat - 1)) := by
  unfold State.tickST
  by_cases h : s.st = 0
  · have : BitVec.ofNat 8 (s.st.toNat - 1) = s.st := by rw [h]; rfl
    rw [if_pos h, this]; rfl
  · rw [if_neg h, byte_pred h]

/-- Everything a CPU step that goes on can do: it runs an instruction, or records a fault of the fetch or of the decoder. -/
theorem cpuStep_cases {s t : State} (h : cpuStep s = .next t) : s.fault = none ∧
    ((∃ w i, fetch s = .ok w ∧ decodeWord w = .ok i ∧ exec i s = .next t) ∨ ∃ k, t = s.setFault (some k)) := by
  unfold cpuStep at h
  split at h
  · cases h
  · next hf =>
    refine ⟨hf, ?_⟩
    split at h
    · next w hw =>
      unfold runWord at h
      split at h
      · next i hi => exact .inl ⟨w, i, hw, hi, h⟩
      · injection h with h; exact .inr ⟨_, h.symm⟩
    · injection h with h; exact .inr ⟨_, h.symm⟩

/-- The states a step of the schedule may leave. -/
theorem step_cases {s t : State} (h : step s = .next t) :
    (s.schedule = [] ∧ cpuStep s = .next t) ∨
    ∃ e es, s.schedule = e :: es ∧
      ((e = .cpu ∧ cpuStep (s.setSchedule es) = .next t) ∨
       (e = .tickDT ∧ t = (s.setSchedule es).setDT (BitVec.ofNat 8 (s.dt.toNat - 1))) ∨
       (e = .tickST ∧ t = (s.setSchedule es).setST (BitVec.ofNat 8 (s.st.toNat - 1))) ∨
       (∃ k, e = .setKey k ∧ t = (s.setSchedule es).putKey k true) ∨
       (∃ k, e = .clearKey k ∧ t = (s.setSchedule es).putKey k false) ∨
       ∃ bytes, e = .loadProgram bytes ∧ t = (s.setSchedule es).loadProgram bytes) := by
  cases hs : s.schedule with
  | nil => exact .inl ⟨rfl, (step_idle hs).symm.trans h⟩
  | cons e es =>
    rw [fire_schedule e es hs] at h
    refine .inr ⟨e, es, rfl, ?_⟩
    cases e with
    | cpu => exact .inl ⟨rfl, h⟩
    | tickDT => injection h with h; exact .inr (.inl ⟨rfl, h.symm.trans (State.tickDT_eq _)⟩)
    | tickST => injection h with h; exact .inr (.inr (.inl ⟨rfl, h.symm.trans (State.tickST_eq _)⟩))
    | setKey k => injection h with h; exact .inr (.inr (.inr (.inl ⟨k, rfl, h.symm⟩)))
    | clearKey k => injection h with h; exact .inr (.inr (.inr (.inr (.inl ⟨k, rfl, h.symm⟩))))
    | loadProgram b => injection h with h; exact .inr (.inr (.inr (.inr (.inr ⟨b, rfl, h.symm⟩))))
    | teardown => exact absurd h (by simp [fire])

/-- What an instruction leaves is its writes, with the PC update made or a fault recorded. -/
theorem exec_cases {i : Instr} {s t : State} (h : exec i s = .next t) :
    (∃ a : Addr, a.toNat % 2 = 0 ∧ t = (s.effect i).setPC a) ∨ ∃ k, t = (s.effect i).setFault (some k) := by
  rcases exec_endsFrom_effect i s with ⟨a, ha, e⟩ | ⟨k, e⟩ <;> rw [h] at e <;> injection e with e
  · exact .inl ⟨a, ha, e⟩
  · exact .inr ⟨k, e⟩

end Sys2Proof.Machine
end

