-- ==== Sys2Proof/Laws/Runs.lean ====
section
/-! SUPPORT. No event reads or changes the schedule (log 2), so a run of events and a schedule of them are the same thing. -/

namespace Sys2Proof.Machine

/-- The outcome with the schedule replaced. -/
def Result.withSchedule (es : List Event) : Result → Result
  | .next s => .next (s.setSchedule es)
  | .fault r => .fault r
  | .refused r => .refused r

/-- The outcome of a part of a step with the schedule replaced. -/
def Res.withSchedule {α : Type} (es : List Event) : Res α → Res α
  | .done a s => .done a (s.setSchedule es)
  | .raised k s => .raised k (s.setSchedule es)

variable (es : List Event) (s : State)

theorem updatePC_setSchedule (t : Nat) :
    updatePC t (s.setSchedule es) = Result.withSchedule es (updatePC t s) := by
  rcases updatePC_cases t s with ⟨h, e⟩ | ⟨h, h', e⟩ | ⟨h, h', e⟩ <;> rw [e]
  · exact updatePC_beyond _ h
  · exact updatePC_odd _ h h'
  · exact updatePC_even _ h h'

theorem advance_setSchedule : advance (s.setSchedule es) = Result.withSchedule es (advance s) :=
  updatePC_setSchedule es s _

theorem thenAdvance_setSchedule (r : Res Unit) : (r.withSchedule es).thenAdvance = Result.withSchedule es r.thenAdvance := by
  cases r with
  | done _ s => exact advance_setSchedule es s
  | raised k s => rfl

theorem writeI_setSchedule (t : Nat) : writeI t (s.setSchedule es) = (writeI t s).withSchedule es := by
  unfold writeI; split <;> rfl

theorem push_setSchedule (v : BitVec 13) : push v (s.setSchedule es) = (push v s).withSchedule es := by
  by_cases h : s.sp.val < 16
  · rw [push, push, dif_pos h, dif_pos (by exact h)]; rfl
  · rw [push, push, dif_neg h, dif_neg (by exact h)]; rfl

theorem pop_setSchedule : pop (s.setSchedule es) = (pop s).withSchedule es := by
  by_cases h : 0 < s.sp.val
  · rw [pop, pop, dif_pos h, dif_pos (by exact h)]; rfl
  · rw [pop, pop, dif_neg h, dif_neg (by exact h)]; rfl

theorem memWrite_setSchedule (a : Nat) (b : Byte) : memWrite a b (s.setSchedule es) = (memWrite a b s).withSchedule es := by
  unfold memWrite; split <;> rfl

theorem storeBytes_setSchedule (bs : List Byte) : ∀ (a : Nat) (s : State),
    storeBytes a bs (s.setSchedule es) = (storeBytes a bs s).withSchedule es := by
  induction bs with
  | nil => intros; rfl
  | cons b bs ih =>
    intro a s
    rw [storeBytes, storeBytes, memWrite_setSchedule]
    cases memWrite a b s with
    | done _ u => exact ih (a + 1) u
    | raised k u => rfl

theorem loadRegs_setSchedule (rs : List Reg) : ∀ (a : Nat) (s : State),
    loadRegs a rs (s.setSchedule es) = (loadRegs a rs s).withSchedule es := by
  induction rs with
  | nil => intros; rfl
  | cons r rs ih =>
    intro a s
    rw [loadRegs, loadRegs, show memRead a (s.setSchedule es) = memRead a s from rfl]
    cases memRead a s with
    | ok b => exact ih (a + 1) (s.setReg r b)
    | error k => rfl

theorem drawRows_setSchedule (wide : Bool) (base x0 y0 count : Nat) : ∀ (r : Nat) (hit : Bool) (s : State),
    drawRows wide base x0 y0 count r hit (s.setSchedule es) = (drawRows wide base x0 y0 count r hit s).withSchedule es := by
  induction count with
  | zero => intros; rfl
  | succ count ih =>
    intro r hit s
    rw [drawRows, drawRows, show spriteRow wide base r (s.setSchedule es) = spriteRow wide base r s from rfl]
    cases spriteRow wide base r s with
    | ok row =>
      exact ih (r + 1) (hit || (drawRow s.mode x0 (y0 + r) row s.display).2)
        (s.setDisplay (drawRow s.mode x0 (y0 + r) row s.display).1)
    | error k => rfl

/-- The instructions that make their writes and fall through. -/
theorem exec_setSchedule_of_advance {i : Instr} (h : ∀ s, exec i s = advance (s.effect i))
    (he : (s.setSchedule es).effect i = (s.effect i).setSchedule es) :
    exec i (s.setSchedule es) = Result.withSchedule es (exec i s) := by
  rw [h, h, he, advance_setSchedule]

/-- No instruction reads or changes the schedule. -/
theorem exec_setSchedule (i : Instr) : exec i (s.setSchedule es) = Result.withSchedule es (exec i s) := by
  cases i with
  | cls | low | high | ldVxKk | addVxKk | ldVxVy | orVxVy | andVxVy | xorVxVy | addVxVy | subVxVy | shrVxVy
  | subnVxVy | shlVxVy | rndVxKk | ldVxDt | ldDtVx | ldStVx => exact exec_setSchedule_of_advance es s (fun _ => rfl) rfl
  | jpNnn | jpV0Nnn | seVxKk | sneVxKk | seVxVy | sneVxVy => exact updatePC_setSchedule es s _
  | ldINnn | addIVx =>
    exact (congrArg Res.thenAdvance (writeI_setSchedule es s _)).trans (thenAdvance_setSchedule es _)
  | ldBVx | ldMemVx =>
    exact (congrArg Res.thenAdvance (storeBytes_setSchedule es _ _ s)).trans (thenAdvance_setSchedule es _)
  | ldVxMem => exact (congrArg Res.thenAdvance (loadRegs_setSchedule es _ _ s)).trans (thenAdvance_setSchedule es _)
  | ret =>
    simp only [exec, execRet, pop_setSchedule]
    cases pop s with
    | done t u => exact updatePC_setSchedule es u _
    | raised k u => rfl
  | callNnn nnn =>
    simp only [exec, execCallNnn, push_setSchedule, State.setSchedule_pc]
    cases push (BitVec.ofNat 13 (s.pc.toNat + 2)) s with
    | done _ u => exact updatePC_setSchedule es u _
    | raised k u => rfl
  | drwVxVyN x y n =>
    simp only [exec, execDrwVxVyN, drawRows_setSchedule, State.setSchedule_mode, State.setSchedule_i,
      show ∀ r, (s.setSchedule es).reg r = s.reg r from fun _ => rfl]
    cases drawRows (isWide s.mode n) s.i.toNat (s.reg x).toNat (s.reg y).toNat (spriteRows s.mode n) 0 false s with
    | done hit u => exact advance_setSchedule es (u.setReg VF (flagByte hit))
    | raised k u => rfl
  | skpVx x =>
    simp only [exec, execSkpVx, show keyOperand x (s.setSchedule es) = keyOperand x s from rfl]
    cases keyOperand x s with
    | ok k => exact updatePC_setSchedule es s _
    | error k => rfl
  | sknpVx x =>
    simp only [exec, execSknpVx, show keyOperand x (s.setSchedule es) = keyOperand x s from rfl]
    cases keyOperand x s with
    | ok k => exact updatePC_setSchedule es s _
    | error k => rfl
  | ldVxK x =>
    simp only [exec, execLdVxK, show lowestPressed (s.setSchedule es) = lowestPressed s from rfl]
    cases lowestPressed s with
    | some k => exact advance_setSchedule es (s.setReg x _)
    | none => exact updatePC_setSchedule es s _
  | ldFVx x =>
    simp only [exec, execLdFVx, show (s.setSchedule es).reg x = s.reg x from rfl, State.setSchedule_fontBase]
    split
    · rfl
    · rw [writeI_setSchedule]; exact thenAdvance_setSchedule es _

theorem cpuStep_setSchedule : cpuStep (s.setSchedule es) = Result.withSchedule es (cpuStep s) := by
  simp only [cpuStep, State.setSchedule_fault, show fetch (s.setSchedule es) = fetch s from rfl]
  cases s.fault with
  | some k => rfl
  | none =>
    cases fetch s with
    | error k => rfl
    | ok w =>
      simp only [runWord]
      cases decodeWord w with
      | ok i => exact exec_setSchedule es s i
      | error k => rfl

/-- No event reads or changes the schedule. -/
theorem fire_setSchedule (e : Event) : fire e (s.setSchedule es) = Result.withSchedule es (fire e s) := by
  cases e with
  | cpu => exact cpuStep_setSchedule es s
  | tickDT => simp only [fire, State.tickDT_eq]; rfl
  | tickST => simp only [fire, State.tickST_eq]; rfl
  | setKey | clearKey | loadProgram | teardown => rfl

/-- An event at the head of the schedule takes the core where it takes a core with any other schedule. -/
theorem step_of_fire {e : Event} {s t : State} (h : fire e s = .next t) :
    step (s.setSchedule (e :: es)) = .next (t.setSchedule es) := by
  rw [fire_schedule e es rfl, show (s.setSchedule (e :: es)).setSchedule es = s.setSchedule es from rfl,
    fire_setSchedule, h]
  rfl

end Sys2Proof.Machine
end

