-- ==== Sys2Proof/Tests/Slice0.lean ====
section
/-! SUPPORT. The model's own tests: ill-formed terms refused, words written out from 30_encoding.md R80 decoded, single steps with the results that 95_test_vectors.md gives, and a witness for the hypotheses of each obligation. -/

open Sys2Proof Sys2Proof.Machine

namespace Sys2Proof.Tests

set_option Elab.async false

/-! ### Well-formedness: each check refuses an ill-formed term (R9, R71) -/

theorem test_field_x : (Field.x.fits 15, Field.x.fits 16) = (true, false) := by decide

theorem test_field_y : (Field.y.fits 15, Field.y.fits 16) = (true, false) := by decide

theorem test_field_n : (Field.n.fits 15, Field.n.fits 16) = (true, false) := by decide

theorem test_field_kk : (Field.kk.fits 255, Field.kk.fits 256) = (true, false) := by decide

theorem test_field_nnn : (Field.nnn.fits 4095, Field.nnn.fits 4096) = (true, false) := by decide

/-- Parameters at the edge of their domains: the font ends at 0x200, the extended font stands right below it. -/
def edgeParams : Params :=
  { shiftSrc := .y, fontBase := 0x1B0, font := List.replicate 80 0xAA, xfontBase := 0x110, xfont := List.replicate 160 0x55 }

theorem test_params_edge : edgeParams.wellFormed = true := by decide +kernel

theorem test_params_default : defaultParams.wellFormed = true := by decide +kernel

theorem test_params_fontSize :
    ({ edgeParams with font := [0] } : Params).fontSize = false ∧
    ({ edgeParams with font := [0] } : Params).wellFormed = false := by decide +kernel

theorem test_params_fontPlace :
    ({ edgeParams with fontBase := 0x1B1 } : Params).fontPlace = false ∧
    ({ edgeParams with fontBase := 0x1B1 } : Params).wellFormed = false := by decide +kernel

theorem test_params_xfontSize :
    ({ edgeParams with xfont := [0] } : Params).xfontSize = false ∧
    ({ edgeParams with xfont := [0] } : Params).wellFormed = false := by decide +kernel

theorem test_params_xfontPlace :
    ({ edgeParams with xfontBase := 0x161 } : Params).xfontPlace = false ∧
    ({ edgeParams with xfontBase := 0x161 } : Params).wellFormed = false := by decide +kernel

theorem test_params_fontsApart :
    ({ edgeParams with xfontBase := 0x111 } : Params).fontsApart = false ∧
    ({ edgeParams with xfontBase := 0x111 } : Params).wellFormed = false := by decide +kernel

/-! ### Decoding: the words of R80 with their fields filled in by hand -/

theorem test_decode_cls : decodeWord 0x00E0 = .ok (.cls) ∧ encode (.cls) = 0x00E0 := by decide +kernel

theorem test_decode_ret : decodeWord 0x00EE = .ok (.ret) ∧ encode (.ret) = 0x00EE := by decide +kernel

theorem test_decode_low : decodeWord 0x00FE = .ok (.low) ∧ encode (.low) = 0x00FE := by decide +kernel

theorem test_decode_high : decodeWord 0x00FF = .ok (.high) ∧ encode (.high) = 0x00FF := by decide +kernel

theorem test_decode_jpNnn : decodeWord 0x1FFE = .ok (.jpNnn 0xFFE) ∧ encode (.jpNnn 0xFFE) = 0x1FFE := by decide +kernel

theorem test_decode_callNnn : decodeWord 0x220E = .ok (.callNnn 0x20E) ∧ encode (.callNnn 0x20E) = 0x220E := by decide +kernel

theorem test_decode_seVxKk : decodeWord 0x3342 = .ok (.seVxKk 3 0x42) ∧ encode (.seVxKk 3 0x42) = 0x3342 := by decide +kernel

theorem test_decode_sneVxKk : decodeWord 0x4F01 = .ok (.sneVxKk 15 0x01) ∧ encode (.sneVxKk 15 0x01) = 0x4F01 := by decide +kernel

theorem test_decode_seVxVy : decodeWord 0x5120 = .ok (.seVxVy 1 2) ∧ encode (.seVxVy 1 2) = 0x5120 := by decide +kernel

theorem test_decode_ldVxKk : decodeWord 0x6AFF = .ok (.ldVxKk 10 0xFF) ∧ encode (.ldVxKk 10 0xFF) = 0x6AFF := by decide +kernel

theorem test_decode_addVxKk : decodeWord 0x7203 = .ok (.addVxKk 2 0x03) ∧ encode (.addVxKk 2 0x03) = 0x7203 := by decide +kernel

theorem test_decode_ldVxVy : decodeWord 0x8150 = .ok (.ldVxVy 1 5) ∧ encode (.ldVxVy 1 5) = 0x8150 := by decide +kernel

theorem test_decode_orVxVy : decodeWord 0x8121 = .ok (.orVxVy 1 2) ∧ encode (.orVxVy 1 2) = 0x8121 := by decide +kernel

theorem test_decode_andVxVy : decodeWord 0x8122 = .ok (.andVxVy 1 2) ∧ encode (.andVxVy 1 2) = 0x8122 := by decide +kernel

theorem test_decode_xorVxVy : decodeWord 0x8123 = .ok (.xorVxVy 1 2) ∧ encode (.xorVxVy 1 2) = 0x8123 := by decide +kernel

theorem test_decode_addVxVy : decodeWord 0x8F14 = .ok (.addVxVy 15 1) ∧ encode (.addVxVy 15 1) = 0x8F14 := by decide +kernel

theorem test_decode_subVxVy : decodeWord 0x8015 = .ok (.subVxVy 0 1) ∧ encode (.subVxVy 0 1) = 0x8015 := by decide +kernel

theorem test_decode_shrVxVy : decodeWord 0x8126 = .ok (.shrVxVy 1 2) ∧ encode (.shrVxVy 1 2) = 0x8126 := by decide +kernel

theorem test_decode_subnVxVy : decodeWord 0x8127 = .ok (.subnVxVy 1 2) ∧ encode (.subnVxVy 1 2) = 0x8127 := by decide +kernel

theorem test_decode_shlVxVy : decodeWord 0x812E = .ok (.shlVxVy 1 2) ∧ encode (.shlVxVy 1 2) = 0x812E := by decide +kernel

theorem test_decode_sneVxVy : decodeWord 0x9120 = .ok (.sneVxVy 1 2) ∧ encode (.sneVxVy 1 2) = 0x9120 := by decide +kernel

theorem test_decode_ldINnn : decodeWord 0xA123 = .ok (.ldINnn 0x123) ∧ encode (.ldINnn 0x123) = 0xA123 := by decide +kernel

theorem test_decode_jpV0Nnn : decodeWord 0xB300 = .ok (.jpV0Nnn 0x300) ∧ encode (.jpV0Nnn 0x300) = 0xB300 := by decide +kernel

theorem test_decode_rndVxKk : decodeWord 0xC30F = .ok (.rndVxKk 3 0x0F) ∧ encode (.rndVxKk 3 0x0F) = 0xC30F := by decide +kernel

theorem test_decode_drwVxVyN : decodeWord 0xD125 = .ok (.drwVxVyN 1 2 5) ∧ encode (.drwVxVyN 1 2 5) = 0xD125 := by decide +kernel

theorem test_decode_skpVx : decodeWord 0xE19E = .ok (.skpVx 1) ∧ encode (.skpVx 1) = 0xE19E := by decide +kernel

theorem test_decode_sknpVx : decodeWord 0xE1A1 = .ok (.sknpVx 1) ∧ encode (.sknpVx 1) = 0xE1A1 := by decide +kernel

theorem test_decode_ldVxDt : decodeWord 0xF507 = .ok (.ldVxDt 5) ∧ encode (.ldVxDt 5) = 0xF507 := by decide +kernel

theorem test_decode_ldVxK : decodeWord 0xF50A = .ok (.ldVxK 5) ∧ encode (.ldVxK 5) = 0xF50A := by decide +kernel

theorem test_decode_ldDtVx : decodeWord 0xF415 = .ok (.ldDtVx 4) ∧ encode (.ldDtVx 4) = 0xF415 := by decide +kernel

theorem test_decode_ldStVx : decodeWord 0xF418 = .ok (.ldStVx 4) ∧ encode (.ldStVx 4) = 0xF418 := by decide +kernel

theorem test_decode_addIVx : decodeWord 0xF21E = .ok (.addIVx 2) ∧ encode (.addIVx 2) = 0xF21E := by decide +kernel

theorem test_decode_ldFVx : decodeWord 0xF029 = .ok (.ldFVx 0) ∧ encode (.ldFVx 0) = 0xF029 := by decide +kernel

theorem test_decode_ldBVx : decodeWord 0xF733 = .ok (.ldBVx 7) ∧ encode (.ldBVx 7) = 0xF733 := by decide +kernel

theorem test_decode_ldMemVx : decodeWord 0xF255 = .ok (.ldMemVx 2) ∧ encode (.ldMemVx 2) = 0xF255 := by decide +kernel

theorem test_decode_ldVxMem : decodeWord 0xF265 = .ok (.ldVxMem 2) ∧ encode (.ldVxMem 2) = 0xF265 := by decide +kernel

theorem test_decode_unknown :
    ([0x0000, 0x00E1, 0x00FD, 0x0200, 0x5121, 0x8008, 0x9FF1, 0xE000, 0xF075, 0xFFFF] : List Word).map decodeWord =
    ([0x0000, 0x00E1, 0x00FD, 0x0200, 0x5121, 0x8008, 0x9FF1, 0xE000, 0xF075, 0xFFFF] : List Word).map
      fun w => .error (.unknownInstruction w) := by decide +kernel

theorem test_decode_short : decodeBytes [0x12] = .error (.truncated 1) ∧ decodeTableWord 16 0x0000 = none ∧
    decodeTableWord 16 0x00EE = some .ret := by decide +kernel

/-! ### Single steps, as 95_test_vectors.md gives them -/

/-- The construction state with `PC` and some registers set. -/
def start (a : Addr) (vs : List (Reg × Byte)) : State :=
  vs.foldl (fun s p => s.setReg p.1 p.2) (State.reset.setPC a)

/-- `s` with bytes stored from `a` on. -/
def holding (a : Nat) (bs : List Byte) (s : State) : State := s.setMem (Memory.writeBytes s.mem a bs)

/-- What is seen of the state after one step. -/
def seen {α : Type} (look : State → α) : Result → Option α
  | .next t => some (look t)
  | .fault _ => none
  | .refused _ => none

/-- What is seen after the step that runs a word placed at `PC`. -/
def after {α : Type} (w : Nat) (s : State) (look : State → α) : Option α := seen look (step (s.withFetchWord 16 w))

theorem test_construct : State.construct defaultParams = State.reset := by decide +kernel

theorem test_reset_wf : Memory.wf State.reset.mem = true := by decide

theorem test_reset_first_step :
    seen (fun t => (t.fault, t.pc)) (step State.reset) = some (some (.unknownInstruction 0x0000), 0x200) := by decide +kernel

theorem test_cls : after 0x00E0 ((start 0x200 [(15, 7)]).setDisplay (Vector.replicate 64 1)) (fun t => (t.display.pixel 0 0, t.display.pixel 0 63, t.reg 15, t.pc)) = some (false, false, 7, 0x202) := by decide +kernel

theorem test_ret : after 0x00EE ({ start 0x20E [] with stack := (Vector.replicate 16 0).set 0 0x206, sp := 1 }) (fun t => (t.pc, t.sp)) = some (0x206, 0) := by decide +kernel

theorem test_ret_to_end : after 0x00EE ({ start 0x400 [] with stack := (Vector.replicate 16 0).set 0 0x1000, sp := 1 }) (fun t => (t.pc, t.sp, t.fault)) = some (0x400, 0, some (.outOfBoundsAddress 0x1000)) := by decide +kernel

theorem test_low : after 0x00FE ({ start 0x200 [] with mode := .extended, display := (Vector.replicate 64 0).set 50 (BitVec.twoPow 128 100) }) (fun t => (t.mode, t.display.pixel 100 50, t.getPixel 100 50)) = some (.normal, true, none) := by decide +kernel

theorem test_high : after 0x00FF ({ start 0x200 [] with display := (Vector.replicate 64 0).set 50 (BitVec.twoPow 128 100) }) (fun t => (t.mode, t.getPixel 100 50, t.resolution)) = some (.extended, some true, (128, 64)) := by decide +kernel

theorem test_jp : after 0x1234 (start 0x200 []) (fun t => (t.pc, t.fault)) = some (0x234, none) := by decide +kernel

theorem test_jp_odd : after 0x1201 (start 0x200 []) (fun t => (t.pc, t.fault)) = some (0x200, some (.unmodelled .oddPC)) := by decide +kernel

theorem test_call_odd : after 0x2301 (start 0x200 []) (fun t => (t.stack[0], t.sp, t.pc, t.fault)) = some (0x202, 1, 0x200, some (.unmodelled .oddPC)) := by decide +kernel

theorem test_call_at_end : after 0x2400 (start 0xFFE []) (fun t => (t.stack[0], t.sp, t.pc, t.fault)) = some (0x1000, 1, 0x400, none) := by decide +kernel

theorem test_se_kk : after 0x3342 (start 0x200 [(3, 0x42)]) (fun t => t.pc) = some 0x204 := by decide +kernel

theorem test_se_kk_end : after 0x3105 (start 0xFFC [(1, 5)]) (fun t => (t.pc, t.fault)) = some (0xFFC, some (.outOfBoundsAddress 0x1000)) := by decide +kernel

theorem test_sne_kk : after 0x4342 (start 0x200 [(3, 0x41)]) (fun t => t.pc) = some 0x204 := by decide +kernel

theorem test_sne_kk_equal : after 0x4342 (start 0x200 [(3, 0x42)]) (fun t => t.pc) = some 0x202 := by decide +kernel

theorem test_se_vy : after 0x5120 (start 0x200 [(1, 7), (2, 7)]) (fun t => t.pc) = some 0x204 := by decide +kernel

theorem test_sne_vy : after 0x9120 (start 0x200 [(1, 7), (2, 8)]) (fun t => t.pc) = some 0x204 := by decide +kernel

theorem test_sne_vy_equal : after 0x9120 (start 0x200 [(1, 7), (2, 7)]) (fun t => t.pc) = some 0x202 := by decide +kernel

theorem test_ld_kk_end : after 0x6001 (start 0xFFE []) (fun t => (t.reg 0, t.pc, t.fault)) = some (1, 0xFFE, some (.outOfBoundsAddress 0x1000)) := by decide +kernel

theorem test_add_kk : after 0x7101 (start 0x200 [(1, 0xFF), (15, 1)]) (fun t => (t.reg 1, t.reg 15)) = some (0x00, 1) := by decide +kernel

theorem test_ld_vy : after 0x8120 (start 0x200 [(2, 0x33)]) (fun t => (t.reg 1, t.reg 2)) = some (0x33, 0x33) := by decide +kernel

theorem test_or : after 0x8121 (start 0x200 [(1, 0xF0), (2, 0x0F), (15, 1)]) (fun t => (t.reg 1, t.reg 15)) = some (0xFF, 1) := by decide +kernel

theorem test_and : after 0x8122 (start 0x200 [(1, 0xF0), (2, 0x3C), (15, 1)]) (fun t => (t.reg 1, t.reg 15)) = some (0x30, 1) := by decide +kernel

theorem test_xor : after 0x8123 (start 0x200 [(1, 0xF0), (2, 0x3C), (15, 1)]) (fun t => (t.reg 1, t.reg 15)) = some (0xCC, 1) := by decide +kernel

theorem test_add_vf_destination : after 0x8F14 (start 0x200 [(15, 0xFF), (1, 1)]) (fun t => t.reg 15) = some 1 := by decide +kernel

theorem test_add_vf_source : after 0x81F4 (start 0x200 [(15, 5), (1, 0x10)]) (fun t => (t.reg 1, t.reg 15)) = some (0x15, 0) := by decide +kernel

theorem test_sub_borrow : after 0x8125 (start 0x200 [(1, 7), (2, 0x14)]) (fun t => (t.reg 1, t.reg 15)) = some (0xF3, 0) := by decide +kernel

theorem test_sub_equal : after 0x8125 (start 0x200 [(1, 5), (2, 5)]) (fun t => (t.reg 1, t.reg 15)) = some (0, 1) := by decide +kernel

theorem test_shr : after 0x8106 (start 0x200 [(1, 0xFF)]) (fun t => (t.reg 1, t.reg 15)) = some (0x7F, 1) := by decide +kernel

theorem test_shr_even : after 0x8106 (start 0x200 [(1, 2), (15, 9)]) (fun t => (t.reg 1, t.reg 15)) = some (1, 0) := by decide +kernel

theorem test_subn_borrow : after 0x8127 (start 0x200 [(1, 10), (2, 3)]) (fun t => (t.reg 1, t.reg 15)) = some (0xF9, 0) := by decide +kernel

theorem test_subn : after 0x8127 (start 0x200 [(1, 3), (2, 10)]) (fun t => (t.reg 1, t.reg 15)) = some (7, 1) := by decide +kernel

theorem test_shl_src_x : after 0x812E (start 0x200 [(1, 4), (2, 0x81)]) (fun t => (t.reg 1, t.reg 15, t.reg 2)) = some (8, 0, 0x81) := by decide +kernel

theorem test_shl_src_y : after 0x812E ({ start 0x200 [(1, 4), (2, 0x81)] with shiftSrc := .y }) (fun t => (t.reg 1, t.reg 15, t.reg 2)) = some (2, 1, 0x81) := by decide +kernel

theorem test_ld_i : after 0xA123 (start 0x200 []) (fun t => (t.i, t.pc)) = some (0x123, 0x202) := by decide +kernel

theorem test_jp_v0 : after 0xB300 (start 0x200 [(0, 0x10)]) (fun t => t.pc) = some 0x310 := by decide +kernel

theorem test_jp_v0_beyond : after 0xBFFF (start 0x200 [(0, 1)]) (fun t => (t.pc, t.fault)) = some (0x200, some (.outOfBoundsAddress 0x1000)) := by decide +kernel

/-- A31, whatever the oracle supplies. -/
theorem test_rnd_masked : seen (fun t => (t.reg 3, t.draws)) (exec (.rndVxKk 3 0x00) State.reset) = some (0x00, 1) := by
  have h : Config.rng 0 &&& 0x00 = 0x00 := BitVec.and_zero
  show some ((Vector.set (Vector.replicate 16 0) 3 (Config.rng 0 &&& 0x00))[3], 1) = _
  rw [h]; rfl

theorem test_drw_past_end : after 0xD123 (holding 0xFFE [0x80, 0x80] ((start 0x200 [(15, 0x55)]).setI 0xFFE)) (fun t => ([(0, 0), (0, 1), (1, 0), (7, 0), (0, 2)].map (fun p => t.display.pixel p.1 p.2), t.reg 15, t.pc, t.fault)) = some ([true, true, false, false, false], 0x55, 0x200, some (.outOfBoundsAddress 0x1000)) := by decide +kernel

theorem test_drw_wide : after 0xD120 (holding 0x300 (List.replicate 32 0xFF) { start 0x200 [(1, 120), (2, 60)] with i := 0x300, mode := .extended }) (fun t => ([(120, 60), (127, 63), (7, 11), (119, 60), (8, 11), (7, 12), (120, 59)].map (fun p => t.display.pixel p.1 p.2), t.reg 15)) = some ([true, true, true, false, false, false, false], 0) := by decide +kernel

theorem test_skp : after 0xE19E ((start 0x200 [(1, 5)]).putKey 5 true) (fun t => t.pc) = some 0x204 := by decide +kernel

theorem test_skp_no_key : after 0xE19E (start 0x200 [(1, 0x10)]) (fun t => (t.pc, t.fault)) = some (0x200, some (.unmodelled .keyIndex)) := by decide +kernel

theorem test_sknp : after 0xE1A1 (start 0x200 [(1, 5)]) (fun t => t.pc) = some 0x204 := by decide +kernel

theorem test_sknp_pressed : after 0xE1A1 ((start 0x200 [(1, 5)]).putKey 5 true) (fun t => t.pc) = some 0x202 := by decide +kernel

theorem test_ld_vx_dt : after 0xF507 ((start 0x200 []).setDT 60) (fun t => (t.reg 5, t.dt)) = some (60, 60) := by decide +kernel

theorem test_ld_k : after 0xF50A (((start 0x230 []).putKey 3 true).putKey 7 true) (fun t => (t.reg 5, t.pc, t.key 3)) = some (3, 0x232, true) := by decide +kernel

theorem test_ld_k_waits : after 0xF50A (start 0x230 [(5, 9)]) (fun t => (t.reg 5, t.pc, t.fault)) = some (9, 0x230, none) := by decide +kernel

theorem test_ld_dt : after 0xF415 (start 0x200 [(4, 0x3C)]) (fun t => (t.dt, t.st)) = some (60, 0) := by decide +kernel

theorem test_ld_st : after 0xF418 ((start 0x200 [(4, 30)]).setDT 5) (fun t => (t.st, t.dt, t.tone)) = some (30, 5, true) := by decide +kernel

theorem test_add_i : after 0xF21E ((start 0x200 [(2, 0x10), (15, 3)]).setI 0x300) (fun t => (t.i, t.reg 15)) = some (0x310, 3) := by decide +kernel

theorem test_add_i_beyond : after 0xF21E ((start 0x200 [(2, 1)]).setI 0xFFF) (fun t => (t.i, t.pc, t.fault)) = some (0xFFF, 0x200, some (.outOfBoundsAddress 0x1000)) := by decide +kernel

theorem test_ld_f : after 0xF029 (start 0x200 [(0, 0x0F)]) (fun t => t.i) = some 0x04B := by decide +kernel

theorem test_ld_f_no_digit : after 0xF029 (start 0x200 [(0, 0x10)]) (fun t => (t.i, t.fault)) = some (0, some (.unmodelled .fontDigit)) := by decide +kernel

theorem test_ld_b : after 0xF733 ((start 0x200 [(7, 0x7B)]).setI 0x300) (fun t => ([0x300, 0x301, 0x302].map t.byteAt, t.i)) = some ([1, 2, 3], 0x300) := by decide +kernel

theorem test_ld_b_past_end : after 0xF733 ((start 0x200 [(7, 0xFF)]).setI 0xFFE) (fun t => ([0xFFE, 0xFFF].map t.byteAt, t.fault)) = some ([2, 5], some (.outOfBoundsAddress 0x1000)) := by decide +kernel

theorem test_ld_mem : after 0xF255 ((start 0x200 [(0, 1), (1, 2), (2, 3), (3, 4)]).setI 0x400) (fun t => ([0x400, 0x401, 0x402, 0x403].map t.byteAt, t.i)) = some ([1, 2, 3, 0], 0x400) := by decide +kernel

theorem test_ld_vx_mem : after 0xF265 (holding 0x300 [0, 1, 5] ((start 0x200 [(0, 9), (3, 9)]).setI 0x300)) (fun t => (t.reg 0, t.reg 1, t.reg 2, t.reg 3, t.i)) = some (0, 1, 5, 9, 0x300) := by decide +kernel

theorem test_ld_vx_mem_past_end : after 0xF165 (holding 0xFFF [0x77] ((start 0x200 [(1, 9)]).setI 0xFFF)) (fun t => (t.reg 0, t.reg 1, t.fault)) = some (0x77, 9, some (.outOfBoundsAddress 0x1000)) := by decide +kernel

theorem test_ticks : seen (fun t => (t.dt, t.st, t.schedule)) (step { State.reset with dt := 1, st := 1, schedule := [.tickDT] }) =
    some (0, 1, []) := by decide +kernel

theorem test_load_program :
    seen (fun t => ([0x200, 0x201, 0x202].map t.byteAt, t.pc, t.dt, t.stack[0], t.mode))
      (step { State.reset with dt := 1, stack := Vector.replicate 16 4, mode := .extended, mem := [(0x201, 8), (0x202, 9)], schedule := [.loadProgram [0x12, 0x00]] }) =
    some ([0x12, 0x00, 9], 0x200, 0, 4, .extended) := by decide +kernel

/-! ### Witnesses: concrete states and operands that meet the hypotheses of each obligation, at the edges of their ranges -/

theorem witness_DecodeOfEncodeIsTheInstruction :
    (Instr.drwVxVyN 15 15 15).wellFormed = true ∧ (Instr.jpNnn 0xFFF).wellFormed = true := by decide +kernel

theorem witness_EncodeOfDecodeIsTheWord :
    decodeWord 0xDFFF = .ok (.drwVxVyN 15 15 15) ∧ decodeWord 0x00E0 = .ok .cls := by decide +kernel

theorem witness_WordsOutsideTheTableAreUnknown :
    (0x8 = (0x800E : Word).toNat / 0x1000 ∧ 0xE = (0x800E : Word).toNat % 0x10 ∧ 0xE ∈ [0, 1, 2, 3, 4, 5, 6, 7, 0xE]) ∧
    (0x8 = (0x800F : Word).toNat / 0x1000 ∧ 0xF = (0x800F : Word).toNat % 0x10 ∧ ¬ 0xF ∈ [0, 1, 2, 3, 4, 5, 6, 7, 0xE]) ∧
    (0x0 = (0x00FD : Word).toNat / 0x1000 ∧ ¬ ((0x00FD : Word) = 0x00E0 ∨ (0x00FD : Word) = 0x00EE ∨ (0x00FD : Word) = 0x00FE ∨ (0x00FD : Word) = 0x00FF)) := by decide +kernel

theorem witness_EncodedWordsAreThePatternsOfTheTable :
    (0xF00 : Nat) = 0x100 * (15 : Reg).val ∧ (0xFF0 : Nat) = 0x100 * (15 : Reg).val + 0x10 * (15 : Reg).val := by decide +kernel

/-- `JP 0x200` at the last word of memory. -/
def jumpAtEnd : State := holding 0xFFE [0x12, 0x00] (start 0xFFE [])

theorem witness_StepRunsTheDecodedInstruction :
    jumpAtEnd.fault = none ∧ jumpAtEnd.pc.toNat + 1 < 0x1000 ∧
    decodeBytes [jumpAtEnd.byteAt jumpAtEnd.pc.toNat, jumpAtEnd.byteAt (jumpAtEnd.pc.toNat + 1)] = .ok (.jpNnn 0x200, []) ∧
    jumpAtEnd.schedule = [] ∧ (jumpAtEnd.setSchedule [.cpu, .tickDT]).schedule = .cpu :: [.tickDT] := by decide +kernel

theorem witness_PlacedWordRunsNext :
    Memory.wf (start 0xFFE []).mem = true ∧ (start 0xFFE []).pc.toNat + 1 < 0x1000 ∧
    decodeTableWord 16 0x1200 = some (.jpNnn 0x200) := by decide +kernel

theorem witness_UndecodableWordOnlyRecordsTheFault :
    (start 0xFFE []).fault = none ∧ (start 0xFFE []).pc.toNat + 1 < 0x1000 ∧
    (0x0000 : Word) = (start 0xFFE []).byteAt (start 0xFFE []).pc.toNat ++ (start 0xFFE []).byteAt ((start 0xFFE []).pc.toNat + 1) ∧
    ∀ i, decodeWord 0x0000 ≠ .ok i := by
  refine ⟨by decide +kernel, by decide +kernel, by decide +kernel, fun i h => ?_⟩
  have e : decodeWord 0x0000 = .error (.unknownInstruction 0x0000) := by decide +kernel
  rw [e] at h
  cases h

theorem witness_FetchIsBigEndian :
    (start 0xFFE []).pc.toNat + 1 < 0x1000 := by decide +kernel

theorem witness_AccessBeyondMemoryRaises :
    0x1000 ≤ 0x1000 ∧ 0xFFF < 0x1000 ∧ Memory.wf State.reset.mem = true := by decide +kernel

/-- A faulted core with both cadences running. -/
def faultedCore : State := { State.reset with dt := 1, st := 1, fault := some .stackUnderflow }

theorem witness_FaultedCoreTakesNoCpuStep :
    faultedCore.fault = some .stackUnderflow ∧ faultedCore.schedule = [] ∧ faultedCore.dt ≠ 0 ∧ faultedCore.st ≠ 0 ∧
    (faultedCore.setSchedule [.cpu]).schedule = .cpu :: [] ∧ (faultedCore.setSchedule [.tickDT]).schedule = .tickDT :: [] ∧
    (faultedCore.setSchedule [.tickST]).schedule = .tickST :: [] ∧
    (faultedCore.setSchedule [.loadProgram [0x12]]).schedule = .loadProgram [0x12] :: [] := by decide +kernel

theorem witness_TeardownLeavesNoState :
    (State.reset.setSchedule [.teardown]).schedule = .teardown :: [] := by decide +kernel

theorem witness_EveryStepKeepsTheInvariant :
    (State.reset.withFetchWord 16 0x2300).Inv ∧
    (seen (fun t => t.sp) (step (State.reset.withFetchWord 16 0x2300))).isSome = true ∧
    (State.reset.setSchedule [.loadProgram [1, 2]]).Inv := by decide +kernel

theorem witness_LoadProgramCopiesAndResets :
    Memory.wf State.reset.mem = true ∧
    (State.reset.setSchedule [.loadProgram (List.replicate 0xE01 1)]).schedule = .loadProgram (List.replicate 0xE01 1) :: [] := ⟨by decide, rfl⟩

theorem witness_ConstructionLoadsTheFonts :
    edgeParams.wellFormed = true ∧ 79 < edgeParams.font.length ∧ 159 < edgeParams.xfont.length ∧
    (0x10F < edgeParams.fontBase.toNat ∧ 0x10F < edgeParams.xfontBase.toNat) ∧
    (edgeParams.fontBase.toNat + edgeParams.font.length ≤ 0x200 ∧ edgeParams.xfontBase.toNat + edgeParams.xfont.length ≤ 0x200) ∧
    ({ edgeParams with font := [], xfont := [] } : Params).wellFormed = true := by decide +kernel

/-- A core with one return address on the stack. -/
def calledFrom (t : BitVec 13) : State := { State.reset with sp := 1, stack := (Vector.replicate 16 0).set 0 t }

theorem witness_RetPopsIntoPC :
    (calledFrom 0xFFE).sp.val = (0 : Fin 16).val + 1 ∧ 0xFFE = ((calledFrom 0xFFE).stack[(0 : Fin 16).val]).toNat ∧
    0xFFE < 0x1000 ∧ 0xFFE % 2 = 0 ∧ 0x1000 = ((calledFrom 0x1000).stack[(0 : Fin 16).val]).toNat := by decide +kernel

theorem witness_CallPushesTheAddressAfterItself :
    ({ State.reset with sp := 15 } : State).sp.val = (15 : Fin 16).val ∧ (0xFFE : Addr).toNat % 2 = 0 ∧
    (0xFFF : Addr).toNat % 2 = 1 := by decide +kernel

theorem witness_ReturnResumesAfterTheCall :
    (start 0xFFC []).sp ≠ 16 ∧ (start 0xFFC []).canFallThrough ∧ (0x300 : Addr).toNat % 2 = 0 ∧
    (seen (fun t => (t.pc, t.sp)) (exec (.callNnn 0x300) (start 0xFFC []))) = some (0x300, 1) := by decide +kernel

theorem witness_StackLimitsRaiseBeforeAnyWrite :
    ({ State.reset with sp := 16 } : State).sp = 16 ∧ State.reset.sp = 0 ∧ State.reset.fault = none ∧
    (∀ nnn ∈ List.replicate 16 (0x200 : Addr), nnn.toNat % 2 = 0) ∧ (List.replicate 16 (0x200 : Addr)).length = 16 := ⟨rfl, rfl, rfl, fun _ h => by rw [List.eq_of_mem_replicate h]; rfl, rfl⟩

theorem witness_ImmediateSkipsCompareWithTheByte :
    ((start 0xFFA [(1, 5)]).pc.toNat % 2 = 0 ∧ 0xFFE = (start 0xFFA [(1, 5)]).pc.toNat + (if (start 0xFFA [(1, 5)]).reg 1 = 5 then 4 else 2) ∧
      0xFFC = (start 0xFFA [(1, 5)]).pc.toNat + (if (start 0xFFA [(1, 5)]).reg 1 = 5 then 2 else 4)) ∧
    (0x1002 = (start 0xFFE [(1, 5)]).pc.toNat + (if (start 0xFFE [(1, 5)]).reg 1 = 5 then 4 else 2) ∧
      0x1000 = (start 0xFFE [(1, 5)]).pc.toNat + (if (start 0xFFE [(1, 5)]).reg 1 = 5 then 2 else 4)) := by decide +kernel

theorem witness_RegisterSkipsCompareTheRegisters :
    ((start 0xFFA [(1, 5)]).pc.toNat % 2 = 0 ∧ 0xFFC = (start 0xFFA [(1, 5)]).pc.toNat + (if (start 0xFFA [(1, 5)]).reg 1 = (start 0xFFA [(1, 5)]).reg 2 then 4 else 2) ∧
      0xFFE = (start 0xFFA [(1, 5)]).pc.toNat + (if (start 0xFFA [(1, 5)]).reg 1 = (start 0xFFA [(1, 5)]).reg 2 then 2 else 4)) ∧
    (0x1002 = (start 0xFFE []).pc.toNat + (if (start 0xFFE []).reg 1 = (start 0xFFE []).reg 2 then 4 else 2) ∧
      0x1000 = (start 0xFFE []).pc.toNat + (if (start 0xFFE []).reg 1 = (start 0xFFE []).reg 2 then 2 else 4)) := by decide +kernel

theorem witness_JumpsGoToTheirTarget :
    (0xFFE : Addr).toNat % 2 = 0 ∧ (0xFFF : Addr).toNat % 2 = 1 ∧
    0xFFE = (0xFFD : Addr).toNat + ((start 0x200 [(0, 1)]).reg 0).toNat ∧
    0xFFF = (0xFFE : Addr).toNat + ((start 0x200 [(0, 1)]).reg 0).toNat ∧
    0x1000 = (0xFFF : Addr).toNat + ((start 0x200 [(0, 1)]).reg 0).toNat := by decide +kernel

theorem witness_LoadsWriteTheDestination :
    (start 0xFFC []).canFallThrough ∧ (start 0xFFE []).pc = 0xFFE := by decide +kernel

theorem witness_AddImmediateWrapsWithoutFlag :
    (start 0xFFC []).canFallThrough ∧ (start 0xFFE []).pc = 0xFFE := by decide +kernel

theorem witness_BitwiseOperationsLeaveVF :
    (start 0xFFC []).canFallThrough ∧ (start 0xFFE []).pc = 0xFFE := by decide +kernel

theorem witness_TimerInstructionsMoveOneByte :
    (start 0xFFC []).canFallThrough ∧ (start 0xFFE []).pc = 0xFFE := by decide +kernel

theorem witness_ClsClearsTheWholeGrid :
    (start 0xFFC []).canFallThrough ∧ (start 0xFFE []).pc = 0xFFE := by decide +kernel

theorem witness_ModeInstructionsKeepThePixels :
    (start 0xFFC []).canFallThrough ∧ (start 0xFFE []).pc = 0xFFE := by decide +kernel

theorem witness_AddWritesSumThenCarry :
    (255 = ((start 0xFFC [(1, 255), (2, 1)]).reg 1).toNat ∧ 1 = ((start 0xFFC [(1, 255), (2, 1)]).reg 2).toNat) ∧
    (start 0xFFC [(1, 255), (2, 1)]).canFallThrough ∧ (start 0xFFE [(1, 254), (2, 1)]).pc = 0xFFE := by decide +kernel

theorem witness_SubtractionsWriteDifferenceThenNoBorrow :
    (7 = ((start 0xFFC [(1, 7), (2, 7)]).reg 1).toNat ∧ 7 = ((start 0xFFC [(1, 7), (2, 7)]).reg 2).toNat) ∧
    (start 0xFFC [(1, 7), (2, 7)]).canFallThrough ∧ (start 0xFFE [(1, 6), (2, 7)]).pc = 0xFFE := by decide +kernel

theorem witness_ShiftsWriteResultThenDroppedBit :
    129 = ((match ({ start 0xFFC [(1, 4), (2, 0x81)] with shiftSrc := .y } : State).shiftSrc with
      | .x => (start 0xFFC [(1, 4), (2, 0x81)]).reg 1
      | .y => (start 0xFFC [(1, 4), (2, 0x81)]).reg 2) : Byte).toNat ∧
    (start 0xFFC [(1, 4), (2, 0x81)]).canFallThrough ∧ (start 0xFFE []).pc = 0xFFE := by decide +kernel

theorem witness_RndMasksTheDraw :
    (0x00 : Byte) = 0 ∧ (start 0xFFC []).canFallThrough ∧ (start 0xFFE []).pc = 0xFFE := by decide +kernel

theorem witness_IndexWritesStayInRange :
    0xFFF = ((start 0xFFC [(2, 1)]).setI 0xFFE).i.toNat + (((start 0xFFC [(2, 1)]).setI 0xFFE).reg 2).toNat ∧
    0x1000 = ((start 0xFFC [(2, 1)]).setI 0xFFF).i.toNat + (((start 0xFFC [(2, 1)]).setI 0xFFF).reg 2).toNat ∧
    ((start 0xFFC [(2, 1)]).setI 0xFFE).canFallThrough ∧ ((start 0xFFE [(2, 1)]).setI 0xFFE).pc = 0xFFE := by decide +kernel

theorem witness_FontPointerIsTheGlyphOfTheDigit :
    ({ start 0xFFC [(0, 15), (1, 16)] with fontBase := 0x1B0 } : State).fontBase.toNat + 80 ≤ 0x200 ∧
    15 = ((start 0xFFC [(0, 15), (1, 16)]).reg 0).toNat ∧ 0xF < ((start 0xFFC [(0, 15), (1, 16)]).reg 1).toNat ∧ (start 0xFFC []).canFallThrough ∧ (start 0xFFE []).pc = 0xFFE := by decide +kernel

theorem witness_BcdStoresThreeDigits :
    255 = (((start 0xFFC [(7, 255)]).setI 0xFFD).reg 7).toNat ∧ 0xFFD = ((start 0xFFC [(7, 255)]).setI 0xFFD).i.toNat ∧
    Memory.wf ((start 0xFFC [(7, 255)]).setI 0xFFD).mem = true ∧ 0xFFD + 2 < 0x1000 ∧
    ((start 0xFFC [(7, 255)]).setI 0xFFD).canFallThrough ∧ ((start 0xFFE [(7, 255)]).setI 0xFFD).pc = 0xFFE ∧
    0x1000 ≤ ((start 0xFFC [(7, 255)]).setI 0xFFE).i.toNat + 2 := by decide +kernel

theorem witness_BlockStoreWritesRegistersInOrder :
    0xFF0 = ((start 0xFFC []).setI 0xFF0).i.toNat ∧ Memory.wf ((start 0xFFC []).setI 0xFF0).mem = true ∧
    0xFF0 + (15 : Reg).val < 0x1000 ∧ ((start 0xFFC []).setI 0xFF0).canFallThrough ∧ ((start 0xFFE []).setI 0xFF0).pc = 0xFFE ∧
    0x1000 ≤ ((start 0xFFC []).setI 0xFF1).i.toNat + (15 : Reg).val ∧ 0xFF1 + (14 : Reg).val < 0x1000 := by decide +kernel

theorem witness_BlockLoadReadsMemoryInOrder :
    0xFF0 = ((start 0xFFC []).setI 0xFF0).i.toNat ∧ Memory.wf ((start 0xFFC []).setI 0xFF0).mem = true ∧
    0xFF0 + (15 : Reg).val < 0x1000 ∧ ((start 0xFFC []).setI 0xFF0).canFallThrough ∧ ((start 0xFFE []).setI 0xFF0).pc = 0xFFE ∧
    0x1000 ≤ ((start 0xFFC []).setI 0xFF1).i.toNat + (15 : Reg).val ∧ 0xFF1 + (14 : Reg).val < 0x1000 := by decide +kernel

theorem witness_TicksCountDownAndStopAtZero :
    ({ State.reset with dt := 1, schedule := [.tickDT, .tickDT, .cpu] } : State).schedule = List.replicate 2 .tickDT ++ [.cpu] ∧
    ({ State.reset with st := 2, schedule := [.tickST, .tickST] } : State).schedule = List.replicate 2 .tickST ++ [] := by decide +kernel

theorem witness_ToneEndsOnlyByTickOrWriteOfZero :
    (({ State.reset with st := 1, schedule := [.tickST] } : State).tone = true ∧
      seen State.tone (step { State.reset with st := 1, schedule := [.tickST] }) = some false) ∧
    seen State.tone (step { State.reset with st := 9, schedule := [.loadProgram []] }) = some false ∧
    after 0xF018 { State.reset with st := 9 } State.tone = some false := by decide +kernel

theorem witness_KeySkipsTestTheNamedKey :
    (((start 0xFFA [(1, 15)]).putKey 15 true).reg 1).toNat = (15 : Key).val ∧ (start 0xFFA [(1, 15)]).pc.toNat % 2 = 0 ∧
    0xFFE = (start 0xFFA [(1, 15)]).pc.toNat + (if ((start 0xFFA [(1, 15)]).putKey 15 true).key 15 = true then 4 else 2) ∧
    0xFFC = (start 0xFFA [(1, 15)]).pc.toNat + (if ((start 0xFFA [(1, 15)]).putKey 15 true).key 15 = true then 2 else 4) ∧
    0x1002 = (start 0xFFE [(1, 15)]).pc.toNat + (if ((start 0xFFE [(1, 15)]).putKey 15 true).key 15 = true then 4 else 2) ∧
    0x1000 = (start 0xFFE [(1, 15)]).pc.toNat + (if ((start 0xFFE [(1, 15)]).putKey 15 true).key 15 = true then 2 else 4) ∧
    0xF < ((start 0xFFA [(1, 16)]).reg 1).toNat := by decide +kernel

theorem witness_KeyWaitTakesTheLowestPressedKey :
    ((∀ k : Key, State.reset.key k = false) ∧ State.reset.pc.toNat % 2 = 0) ∧
    (((start 0xFFC []).putKey 15 true).key 15 = true ∧ ∀ j : Key, j < 15 → ((start 0xFFC []).putKey 15 true).key j = false) ∧
    ((start 0xFFC []).putKey 15 true).canFallThrough ∧ ((start 0xFFE []).putKey 15 true).pc = 0xFFE := by decide +kernel

theorem witness_OnlyTheHostWritesKeys :
    (State.reset.putKey 3 true).key 3 = true ∧ State.reset.key 3 = false ∧
    (State.reset.setSchedule [.setKey 15]).schedule = .setKey 15 :: [] ∧ (State.reset.setSchedule [.clearKey 0]).schedule = .clearKey 0 :: [] ∧
    seen (fun t => t.pc) (exec .cls State.reset) = some 0x202 := by decide +kernel

/-- A sprite of 16 rows of 16 pixels that ends at the last byte of memory, drawn across the corner of the large screen. -/
def wideSprite : State := { start 0xFFC [(1, 127), (2, 63)] with i := 0xFE0, mode := .extended, mem := [(0xFE0, 0x80)], display := (Vector.replicate 64 0).set 63 (BitVec.twoPow 128 127) }

theorem witness_DrawXorsTheSpriteAndReportsCollision :
    true = decide (wideSprite.mode = .extended ∧ (0 : Nibble) = 0) ∧ 16 = (if true = true then 16 else (0 : Nibble).toNat) ∧
    127 = (wideSprite.reg 1).toNat ∧ 63 = (wideSprite.reg 2).toNat ∧ wideSprite.i.toNat + 16 * rowBytes true ≤ 0x1000 ∧
    (wideSprite.display.pixel 127 63 = true ∧ wideSprite.spriteCovers true 16 127 63 127 63 = true) ∧
    (wideSprite.setDisplay Display.blank).display.pixel 127 63 = false ∧ wideSprite.canFallThrough ∧ (wideSprite.setPC 0xFFE).pc = 0xFFE := by decide +kernel

/-- On a blank screen no pixel that the sprite covers is set. -/
theorem witness_DrawXorsTheSprite_noCollision (px py : Nat) : Display.blank.pixel px py ≠ true := by
  unfold Display.pixel Display.blank
  split <;> simp

theorem witness_DrawPastTheEndStopsAtTheMissingRow :
    true = decide (wideSprite.mode = .extended ∧ (0 : Nibble) = 0) ∧ 16 = (if true = true then 16 else (0 : Nibble).toNat) ∧
    127 = (wideSprite.reg 1).toNat ∧ 63 = (wideSprite.reg 2).toNat ∧ 0x1000 < (wideSprite.setI 0xFE1).i.toNat + 16 * rowBytes true ∧
    false = decide (State.reset.mode = .extended ∧ (2 : Nibble) = 0) ∧ 2 = (if false = true then 16 else (2 : Nibble).toNat) ∧
    0x1000 < (State.reset.setI 0xFFF).i.toNat + 2 * rowBytes false := by decide +kernel

/-- The first of the two draws of `DrawingTwiceRestoresThePixels`; the state after it is drawn on again. -/
theorem witness_DrawingTwiceRestoresThePixels :
    wideSprite.canFallThrough ∧ wideSprite.fault = none ∧ seen (fun t => (t.fault, t.display == wideSprite.display)) (exec (.drwVxVyN 1 2 0) wideSprite) = some (none, false) ∧
    seen (fun t => decide (t.mem = wideSprite.mem ∧ t.mode = wideSprite.mode ∧ t.i = wideSprite.i ∧ t.reg 1 = wideSprite.reg 1 ∧ t.reg 2 = wideSprite.reg 2 ∧
      (t.setPC 0xFFC).canFallThrough)) (exec (.drwVxVyN 1 2 0) wideSprite) = some true := by decide +kernel

theorem witness_DrawCoordinatesWrap :
    (start 0xFFC [(1, 63), (2, 31)]).canFallThrough ∧
    start 0xFFC [(1, 127), (2, 63)] = { start 0xFFC [(1, 63), (2, 31)] with v := (start 0xFFC [(1, 127), (2, 63)]).v } ∧
    ((start 0xFFC [(1, 127), (2, 63)]).reg 1).toNat % Mode.normal.width = ((start 0xFFC [(1, 63), (2, 31)]).reg 1).toNat % Mode.normal.width ∧
    ((start 0xFFC [(1, 127), (2, 63)]).reg 2).toNat % Mode.normal.height = ((start 0xFFC [(1, 63), (2, 31)]).reg 2).toNat % Mode.normal.height ∧
    (start 0xFFC [(1, 63), (2, 31)]).mode = .normal := by decide +kernel

theorem witness_HostReadsSeeTheActiveRegion :
    State.reset.mode = .normal ∧ ({ State.reset with mode := .extended } : State).mode = .extended ∧
    (63 < State.reset.resolution.1 ∧ 31 < State.reset.resolution.2) ∧ ¬ (64 < State.reset.resolution.1 ∧ 31 < State.reset.resolution.2) ∧
    ¬ (63 < State.reset.resolution.1 ∧ 32 < State.reset.resolution.2) := by decide +kernel

theorem witness_EveryInstructionAnswersAndFaultsKeepPC :
    State.reset.fault = none ∧ seen (fun t => decide (t.fault ≠ none)) (exec .ret State.reset) = some true ∧
    seen (fun t => t.fault) (exec .cls State.reset) = some none := by decide +kernel

/-- Meets the premises of `EachFaultHasItsCause`: an invariant state in which the instruction records the fault. -/
def records (i : Instr) (s : State) (k : FaultKind) : Bool :=
  decide s.Inv && decide (s.fault = none) && decide (seen (fun t => t.fault) (exec i s) = some (some k))

theorem witness_EachFaultHasItsCause_goingOn :
    (records .cls (start 0xFFE []) (.outOfBoundsAddress 0x1000) ∧ (start 0xFFE []).stride .cls = some 2) ∧
    (records (.seVxKk 1 5) (start 0xFFC [(1, 5)]) (.outOfBoundsAddress 0x1000) ∧ (start 0xFFC [(1, 5)]).stride (.seVxKk 1 5) = some 4) ∧
    (records (.sknpVx 1) (start 0xFFE [(1, 15)]) (.outOfBoundsAddress 0x1002) ∧ (start 0xFFE [(1, 15)]).stride (.sknpVx 1) = some 4) ∧
    (records (.sneVxKk 1 5) (start 0xFFE [(1, 5)]) (.outOfBoundsAddress 0x1000) ∧ (start 0xFFE [(1, 5)]).stride (.sneVxKk 1 5) = some 2) ∧
    (start 0xFFE []).stride (.ldVxK 1) = some 0 := by decide +kernel

theorem witness_EachFaultHasItsCause_address :
    records (.jpV0Nnn 0xFFF) (start 0x200 [(0, 1)]) (.outOfBoundsAddress 0x1000) ∧
    records (.addIVx 1) ((start 0x200 [(1, 1)]).setI 0xFFF) (.outOfBoundsAddress 0x1000) ∧
    records .ret (calledFrom 0x1000) (.outOfBoundsAddress 0x1000) ∧
    records (.ldBVx 1) ((start 0x200 []).setI 0xFFE) (.outOfBoundsAddress 0x1000) ∧
    records (.ldMemVx 1) ((start 0x200 []).setI 0xFFF) (.outOfBoundsAddress 0x1000) ∧
    records (.ldVxMem 1) ((start 0x200 []).setI 0xFFF) (.outOfBoundsAddress 0x1000) ∧
    records (.drwVxVyN 1 2 2) ((start 0x200 []).setI 0xFFF) (.outOfBoundsAddress 0x1000) ∧
    records (.drwVxVyN 1 2 0) (wideSprite.setI 0xFE1) (.outOfBoundsAddress 0x1000) := by decide +kernel

theorem witness_EachFaultHasItsCause_others :
    records (.callNnn 0x200) { State.reset with sp := 16 } .stackOverflow ∧ records .ret State.reset .stackUnderflow ∧
    records (.jpNnn 0xFFF) State.reset (.unmodelled .oddPC) ∧ records (.callNnn 0x201) { State.reset with sp := 15 } (.unmodelled .oddPC) ∧
    records (.jpV0Nnn 0xFFE) (start 0x200 [(0, 1)]) (.unmodelled .oddPC) ∧
    records (.ldFVx 1) (start 0x200 [(1, 16)]) (.unmodelled .fontDigit) ∧
    records (.skpVx 1) (start 0x200 [(1, 16)]) (.unmodelled .keyIndex) ∧ records (.sknpVx 1) (start 0x200 [(1, 16)]) (.unmodelled .keyIndex) := by decide +kernel

theorem witness_OnlyNamedInstructionsWriteTheSingleRegisters :
    seen (fun t => decide (t.i ≠ State.reset.i)) (exec (.ldINnn 1) State.reset) = some true ∧
    seen (fun t => decide (t.sp ≠ State.reset.sp ∧ t.stack ≠ State.reset.stack)) (exec (.callNnn 0x300) State.reset) = some true ∧
    seen (fun t => decide (t.dt ≠ 0)) (exec (.ldDtVx 1) (start 0x200 [(1, 1)])) = some true ∧
    seen (fun t => decide (t.st ≠ 0)) (exec (.ldStVx 1) (start 0x200 [(1, 1)])) = some true ∧
    seen (fun t => decide (t.mode ≠ .normal)) (exec .high State.reset) = some true ∧
    seen (fun t => decide (t.draws ≠ 0)) (exec (.rndVxKk 0 0) State.reset) = some true := by decide +kernel

theorem witness_OnlyStoresChangeMemory :
    Memory.wf ((start 0x200 [(0, 7), (1, 8)]).setI 0xFFE).mem = true ∧
    seen (fun t => (t.byteAt 0xFFF, ((start 0x200 [(0, 7), (1, 8)]).setI 0xFFE).byteAt 0xFFF)) (exec (.ldMemVx 1) ((start 0x200 [(0, 7), (1, 8)]).setI 0xFFE)) = some (8, 0) ∧
    seen (fun t => t.byteAt 0xFFF) (exec (.ldBVx 1) ((start 0x200 [(1, 8)]).setI 0xFFD)) = some 8 := by decide +kernel

theorem witness_OnlyStoresAndTheLoadChangeMemory :
    Memory.wf State.reset.mem = true ∧
    seen (fun t => t.byteAt 0x200) (step (State.reset.setSchedule [.loadProgram [1]])) = some 1 ∧ State.reset.byteAt 0x200 = 0 ∧ State.reset.byteAt 0xFFF = 0 ∧
    after 0xF155 ((start 0x200 [(1, 8)]).setI 0xFFE) (fun t => t.byteAt 0xFFF) = some 8 ∧
    after 0xF133 ((start 0x200 [(1, 8)]).setI 0xFFD) (fun t => t.byteAt 0xFFF) = some 8 := by decide +kernel

theorem witness_OnlyClsAndDrwChangePixels :
    wideSprite.display.pixel 127 63 = true ∧ seen (fun t => t.display.pixel 127 63) (exec .cls wideSprite) = some false ∧
    seen (fun t => t.display.pixel 127 63) (exec (.drwVxVyN 1 2 0) wideSprite) = some false := by decide +kernel

theorem witness_OnlyDestinationsAndFlagsChangeRegisters :
    seen (fun t => (t.reg 1, t.reg VF)) (exec (.addVxVy 1 1) (start 0x200 [(1, 0x81)])) = some (2, 1) ∧
    seen (fun t => t.reg 15) (exec (.ldVxMem 15) (holding 0xFFF [7] ((start 0x200 []).setI 0xFF0))) = some 7 ∧
    seen (fun t => t.reg VF) (exec (.drwVxVyN 1 2 0) wideSprite) = some 1 := by decide +kernel

theorem witness_StoreIsSeenByTheNextFetch :
    Memory.wf ((start 0xFFC [(0, 0x12)]).setI 0xFFE).mem = true ∧ 1 ≤ (1 : Reg).val ∧ ((start 0xFFC [(0, 0x12)]).setI 0xFFE).pc.toNat % 2 = 0 ∧
    ((start 0xFFC [(0, 0x12)]).setI 0xFFE).i.toNat = ((start 0xFFC [(0, 0x12)]).setI 0xFFE).pc.toNat + 2 ∧
    ((start 0xFFC [(0, 0x12)]).setI 0xFFE).i.toNat + (1 : Reg).val < 0x1000 := by decide +kernel

theorem witness_HaltedStepChangesNothing :
    (holding 0xFFE [0x1F, 0xFE] (start 0xFFE [])).haltedAt 0xFFE ∧ (0xFFE : Addr).toNat % 2 = 0 ∧
    (holding 0xFFE [0x1F, 0xFE] (start 0xFFE [])).schedule = [] := by decide +kernel

/-- A core halted at 0x200 (R268). -/
def spinning (dt : Byte) : State := holding 0x200 [0x12, 0x00] { State.reset with dt := dt }

theorem spinning_fetch (dt : Byte) : fetch (spinning dt) = .ok 0x1200 := by
  have h : fetch (spinning 0) = .ok 0x1200 := by decide +kernel
  exact Eq.trans (by simp only [fetch, memRead]; rfl) h

theorem spinning_cpu (dt : Byte) : cpuStep (spinning dt) = .next (spinning dt) := by
  have h : decodeWord 0x1200 = .ok (.jpNnn 0x200) := by decide +kernel
  have hf : (spinning dt).fault = none := rfl
  simp only [cpuStep, hf, spinning_fetch, runWord, h]
  rfl

theorem spinning_writes_no_timer (dt : Byte) (x : Reg) :
    fetch (spinning dt) ≠ .ok (encode (.ldDtVx x)) ∧ fetch (spinning dt) ≠ .ok (encode (.ldStVx x)) := by
  rw [spinning_fetch]
  constructor <;> intro h <;> injection h with h <;> revert h x <;> decide

/-- One tick, then the CPU for ever. -/
def tickThenCpu : Nat → Event
  | 0 => .tickDT
  | _ + 1 => .cpu

def tickedStates : Nat → State
  | 0 => spinning 1
  | _ + 1 => spinning 0

/-- A weakly fair run with a timer that comes to zero, and no instruction writes a timer. -/
theorem witness_FairRunsStopTheTimers : IsRun tickedStates tickThenCpu ∧ WeaklyFair tickedStates tickThenCpu ∧
    ∀ m x, fetch (tickedStates m) ≠ .ok (encode (.ldDtVx x)) ∧ fetch (tickedStates m) ≠ .ok (encode (.ldStVx x)) := by
  refine ⟨fun n => ?_, ⟨fun n _ => ⟨n + 1, Nat.le_succ n, rfl⟩, fun n h => ?_, fun n h => ?_⟩, fun m x => ?_⟩
  · cases n with
    | zero => exact ⟨rfl, rfl⟩
    | succ n => exact ⟨rfl, spinning_cpu 0⟩
  · exact absurd (h (n + 1) (Nat.le_succ n)) (by rw [tickedStates]; decide)
  · exact absurd (h (n + 1) (Nat.le_succ n)) (by rw [tickedStates]; decide)
  · cases m with
    | zero => exact spinning_writes_no_timer 1 x
    | succ m => exact spinning_writes_no_timer 0 x

/-- The CPU alone for ever beside a running timer: a run, and no instruction writes a timer. -/
theorem witness_FairRunsStopTheTimers_cpuAlone : IsRun (fun _ => spinning 1) (fun _ => .cpu) ∧
    (∀ m, 0 ≤ m → (fun _ => Event.cpu) m = .cpu) ∧ (spinning 1).dt ≠ 0 ∧
    ∀ x, fetch (spinning 1) ≠ .ok (encode (.ldDtVx x)) ∧ fetch (spinning 1) ≠ .ok (encode (.ldStVx x)) :=
  ⟨fun _ => ⟨rfl, spinning_cpu 1⟩, fun _ _ => rfl, by decide, spinning_writes_no_timer 1⟩

end Sys2Proof.Tests
end

-- ==== Proofs of the family 20_memory.md ====
section
/-! SUPPORT. What one store does on either side of the end of memory (20_memory.md R51), and the proofs of the memory statements. -/

namespace Sys2Proof.Machine

theorem memWrite_ok {a : Nat} (b : Byte) (s : State) (h : a < 0x1000) :
    memWrite a b s = .done () (s.setMem (Memory.write s.mem a b)) := if_pos h

theorem memWrite_beyond {a : Nat} (b : Byte) (s : State) (h : 0x1000 ≤ a) :
    memWrite a b s = .raised (.outOfBoundsAddress a) s := if_neg (Nat.not_lt.mpr h)

/-- Settles O10: the fetched word is the first byte appended to the second, whose value is the big-endian number. -/
theorem fetchIsBigEndian : Obligations.FetchIsBigEndian := by
  intro s hpc
  exact ⟨s.byteAt s.pc.toNat ++ s.byteAt (s.pc.toNat + 1), fetch_eq hpc, append_toNat _ _⟩

/-- Settles O11: the laws of one read and one store on either side of 0x1000, and read after write for what the store leaves. -/
theorem accessBeyondMemoryRaises : Obligations.AccessBeyondMemoryRaises := by
  intro s a b
  constructor
  · intro hbeyond
    exact ⟨memRead_beyond s hbeyond, memWrite_beyond b s hbeyond⟩
  · intro hinside hwf
    exact ⟨memRead_ok s hinside, Memory.write s.mem a b, memWrite_ok b s hinside,
      fun c => Memory.read_write a c b hwf⟩

end Sys2Proof.Machine
end

-- ==== Proofs of the family 40_cycle_and_control.md ====
section
/-! SUPPORT. What a CPU step does with the word it fetched (40_cycle_and_control.md R100, R107), and the proofs of the cycle statements. -/

namespace Sys2Proof.Machine

/-- The part of a CPU step after the fetch, on a core with no fault recorded (R100). -/
theorem cpuStep_of_fetch {s : State} {w : Word} (hfault : s.fault = none) (hw : fetch s = .ok w) :
    cpuStep s = runWord w s := by
  simp only [cpuStep, hfault, hw]

theorem runWord_of_undecodable {w : Word} (s : State) (h : ∀ i, decodeWord w ≠ .ok i) :
    runWord w s = raise (.unknownInstruction w) s := by
  unfold runWord
  split
  · next i hi => exact absurd hi (h i)
  · rfl

/-- Settles O9: the step runs the word it fetches, and an undecodable word only raises, which writes the fault state alone. -/
theorem undecodableWordOnlyRecordsTheFault : Obligations.UndecodableWordOnlyRecordsTheFault := by
  rintro s w hfault hpc rfl hundecodable
  calc cpuStep s
      = runWord (s.byteAt s.pc.toNat ++ s.byteAt (s.pc.toNat + 1)) s := cpuStep_of_fetch hfault (fetch_eq hpc)
    _ = raise (.unknownInstruction _) s := runWord_of_undecodable s hundecodable

end Sys2Proof.Machine
end

-- ==== Proofs of the family 45_display.md ====
section
/-! SUPPORT. What `CLS` does before the PC update (45_display.md R217), and the proof of its statement. -/

namespace Sys2Proof.Machine

theorem exec_cls (s : State) : exec .cls s = advance (s.setDisplay Display.blank) := rfl

/-- Settles O44: the instruction writes the blank grid and falls through, and the fall through reads `PC` alone. -/
theorem clsClearsTheWholeGrid : Obligations.ClsClearsTheWholeGrid := by
  intro s
  refine ⟨Display.blank, Display.pixel_blank, fun hfall => ?_, fun hlast => ?_⟩
  · calc exec .cls s
        = advance (s.setDisplay Display.blank) := exec_cls s
      _ = .next ((s.setDisplay Display.blank).setPC (s.pc + 2)) := advance_next hfall
  · calc exec .cls s
        = advance (s.setDisplay Display.blank) := exec_cls s
      _ = .next ((s.setDisplay Display.blank).setFault (some (.outOfBoundsAddress 0x1000))) := advance_last hlast

end Sys2Proof.Machine
end

-- ==== Proofs of the family 60_exceptions.md ====
section
/-! SUPPORT. The call stack at its two limits and in between (10_state.md R28), nested calls, and the proof of the stack statement. -/

namespace Sys2Proof.Machine

/-! ### The stack at its limits -/

theorem push_full {s : State} (v : BitVec 13) (h : s.sp = 16) : push v s = .raised .stackOverflow s :=
  dif_neg (by simp [h])

theorem push_free {s : State} (v : BitVec 13) (h : s.sp.val < 16) :
    push v s = .done () (s.setStack (s.stack.set s.sp.val v) ⟨s.sp.val + 1, by omega⟩) := dif_pos h

theorem pop_empty {s : State} (h : s.sp = 0) : pop s = .raised .stackUnderflow s :=
  dif_neg (by simp [h])

/-! ### `CALL` and `RET` -/

theorem exec_callNnn_full {s : State} (nnn : Addr) (h : s.sp = 16) :
    exec (.callNnn nnn) s = raise .stackOverflow s := by
  simp only [exec, execCallNnn, push_full _ h]

theorem exec_ret_empty {s : State} (h : s.sp = 0) : exec .ret s = raise .stackUnderflow s := by
  simp only [exec, execRet, pop_empty h]

/-- A call with a free slot and an even target pushes and jumps (R112). -/
theorem exec_callNnn_even {s : State} {nnn : Addr} (hfree : s.sp.val < 16) (heven : nnn.toNat % 2 = 0) :
    exec (.callNnn nnn) s =
      .next ((s.setStack (s.stack.set s.sp.val (BitVec.ofNat 13 (s.pc.toNat + 2))) ⟨s.sp.val + 1, by omega⟩).setPC nnn) := by
  simp only [exec, execCallNnn, push_free _ hfree, updatePC_even _ nnn.isLt heven, BitVec.ofNat_toNat,
    BitVec.setWidth_eq]

theorem execAll_cons_of_next {i : Instr} {s t : State} (is : List Instr) (hexec : exec i s = .next t)
    (hfault : t.fault = none) : execAll (i :: is) s = execAll is t := by
  simp only [execAll, hexec, if_pos hfault]

/-- Nested calls to even targets succeed as long as the slots last, and each one adds one entry. -/
theorem execAll_calls (targets : List Addr) : ∀ s : State, s.fault = none →
    (∀ nnn ∈ targets, nnn.toNat % 2 = 0) → s.sp.val + targets.length ≤ 16 →
    ∃ t, execAll (targets.map .callNnn) s = some t ∧ t.sp.val = s.sp.val + targets.length := by
  induction targets with
  | nil => exact fun s _ _ _ => ⟨s, rfl, rfl⟩
  | cons nnn rest ih =>
    intro s hfault heven hroom
    obtain ⟨hhead, hrest⟩ := List.forall_mem_cons.mp heven
    rw [List.length_cons] at hroom ⊢
    obtain ⟨called, hcall, hnofault, hpushed⟩ : ∃ called, exec (.callNnn nnn) s = .next called ∧
        called.fault = none ∧ called.sp.val = s.sp.val + 1 :=
      ⟨_, exec_callNnn_even (by omega) hhead, hfault, rfl⟩
    obtain ⟨t, hrun, hsp⟩ := ih called hnofault hrest (by omega)
    exact ⟨t, (execAll_cons_of_next _ hcall hnofault).trans hrun, by omega⟩

/-- Settles O22: at its limits the stack operation raises on the state as it is, and 16 nested calls fill an empty stack. -/
theorem stackLimitsRaiseBeforeAnyWrite : Obligations.StackLimitsRaiseBeforeAnyWrite := by
  refine ⟨fun s nnn hfull => exec_callNnn_full nnn hfull, fun s hempty => exec_ret_empty hempty, ?_⟩
  intro s targets last hempty hfault heven hlength
  have hsp0 : s.sp.val = 0 := congrArg Fin.val hempty
  obtain ⟨t, hrun, hsp⟩ := execAll_calls targets s hfault heven (by omega)
  have hfull : t.sp = 16 := Fin.ext (by rw [hsp, hsp0, hlength]; rfl)
  exact ⟨t, hrun, hfull, exec_callNnn_full last hfull⟩

end Sys2Proof.Machine
end

-- ==== Proofs of the family other ====
section
/-! SUPPORT. The proofs of the remaining statements, and the laws they need: the encoding, the cycle, the single instructions, the display, the frames, the faults and the runs. -/

namespace Sys2Proof

/-! ### One row for each word -/

/-- Every instruction has its row of the table, constructor by constructor. -/
theorem hasRow : ∀ i : Instr, Laws.HasRow.Statement i
  | .cls => Laws.HasRow.cls
  | .ret => Laws.HasRow.ret
  | .low => Laws.HasRow.low
  | .high => Laws.HasRow.high
  | .jpNnn nnn => Laws.HasRow.jpNnn nnn
  | .callNnn nnn => Laws.HasRow.callNnn nnn
  | .seVxKk x kk => Laws.HasRow.seVxKk x kk
  | .sneVxKk x kk => Laws.HasRow.sneVxKk x kk
  | .seVxVy x y => Laws.HasRow.seVxVy x y
  | .ldVxKk x kk => Laws.HasRow.ldVxKk x kk
  | .addVxKk x kk => Laws.HasRow.addVxKk x kk
  | .ldVxVy x y => Laws.HasRow.ldVxVy x y
  | .orVxVy x y => Laws.HasRow.orVxVy x y
  | .andVxVy x y => Laws.HasRow.andVxVy x y
  | .xorVxVy x y => Laws.HasRow.xorVxVy x y
  | .addVxVy x y => Laws.HasRow.addVxVy x y
  | .subVxVy x y => Laws.HasRow.subVxVy x y
  | .shrVxVy x y => Laws.HasRow.shrVxVy x y
  | .subnVxVy x y => Laws.HasRow.subnVxVy x y
  | .shlVxVy x y => Laws.HasRow.shlVxVy x y
  | .sneVxVy x y => Laws.HasRow.sneVxVy x y
  | .ldINnn nnn => Laws.HasRow.ldINnn nnn
  | .jpV0Nnn nnn => Laws.HasRow.jpV0Nnn nnn
  | .rndVxKk x kk => Laws.HasRow.rndVxKk x kk
  | .drwVxVyN x y n => Laws.HasRow.drwVxVyN x y n
  | .skpVx x => Laws.HasRow.skpVx x
  | .sknpVx x => Laws.HasRow.sknpVx x
  | .ldVxDt x => Laws.HasRow.ldVxDt x
  | .ldVxK x => Laws.HasRow.ldVxK x
  | .ldDtVx x => Laws.HasRow.ldDtVx x
  | .ldStVx x => Laws.HasRow.ldStVx x
  | .addIVx x => Laws.HasRow.addIVx x
  | .ldFVx x => Laws.HasRow.ldFVx x
  | .ldBVx x => Laws.HasRow.ldBVx x
  | .ldMemVx x => Laws.HasRow.ldMemVx x
  | .ldVxMem x => Laws.HasRow.ldVxMem x

/-- Two rows of the table that both match a word are the same row. -/
theorem Row.eq_of_admits {r q : Row} {w : Word} (hr : r ∈ opcodeTable) (hq : q ∈ opcodeTable)
    (har : r.admits w = true) (haq : q.admits w = true) : r = q := by
  have : Std.Symm fun r q : Row => r.pattern &&& q.mask ≠ q.pattern &&& r.mask := ⟨fun _ _ h e => h e.symm⟩
  by_contra hne
  exact opcodeTable_apart.forall hr hq hne (Row.agree_of_admits har haq)

/-- A word decodes to what its row builds, wherever that row stands in the table. -/
theorem decodeWord_of_row {r : Row} {w : Word} (hr : r ∈ opcodeTable) (ha : r.admits w = true) :
    decodeWord w = .ok (r.build w) := by
  obtain ⟨i, hi⟩ := decodeWord_of_admits hr ha
  obtain ⟨q, hq, haq, rfl⟩ := decodeWord_ok hi
  rw [hi, Row.eq_of_admits hr hq ha haq]

theorem decodeWord_encode (i : Instr) : decodeWord (encode i) = .ok i := by
  obtain ⟨r, hr, ha, hb⟩ := hasRow i
  rw [decodeWord_of_row hr ha, hb]

/-- The types of the operands carry their widths, so every instruction is well formed. -/
theorem instr_wellFormed : ∀ i : Instr, i.wellFormed = true := by
  intro i
  cases i <;> simp [Instr.wellFormed, Instr.fields, Laws.fits_x, Laws.fits_y, Laws.fits_n, Laws.fits_kk, Laws.fits_nnn]

/-! ### Words as bytes -/

theorem highByte_append_lowByte (w : Word) : highByte w ++ lowByte w = w := by
  apply BitVec.eq_of_toNat_eq
  have := w.isLt
  simp only [Machine.append_toNat, highByte, lowByte, BitVec.extractLsb'_toNat, Nat.shiftRight_eq_div_pow]
  omega

theorem decodeBytes_wordBytes {w : Word} {i : Instr} (h : decodeWord w = .ok i) (rest : List Byte) :
    decodeBytes (wordBytes w ++ rest) = .ok (i, rest) := by
  simp only [wordBytes, List.cons_append, List.nil_append, decodeBytes, highByte_append_lowByte, h]

theorem tableWord_toNat (w : Word) : tableWord 16 w.toNat = w := by
  rw [tableWord, Nat.mod_eq_of_lt w.isLt, BitVec.ofNat_toNat, BitVec.setWidth_eq]

theorem decodeTableWord_of_decodeWord {nbits w : Nat} {i : Instr} (h : decodeWord (tableWord nbits w) = .ok i) :
    decodeTableWord nbits w = some i := by
  have hbytes := decodeBytes_wordBytes h []
  rw [List.append_nil] at hbytes
  rw [decodeTableWord, hbytes]

/-- Settles O1: the word of an instruction matches the row of the instruction, and no other. -/
theorem decodeOfEncodeIsTheInstruction : Obligations.DecodeOfEncodeIsTheInstruction := by
  intro i rest _
  have h := decodeWord_encode i
  exact ⟨h, decodeBytes_wordBytes h rest, decodeTableWord_of_decodeWord (by rw [tableWord_toNat, h])⟩

/-! ### Every word is made of the fields its row reads -/

theorem wordAddress_of_op {w : Word} {op : Nibble} (h : w.toNat / 0x1000 = op.toNat) :
    wordAddress op (fieldNNN w) = w := by
  have hop : opField w = op := BitVec.eq_of_toNat_eq ((opField_toNat w).trans h)
  rw [← hop, ← word_eq_address]

theorem wordByte_of_op {w : Word} {op : Nibble} (h : w.toNat / 0x1000 = op.toNat) :
    wordByte op (fieldX w) (fieldKK w) = w := by
  have hop : opField w = op := BitVec.eq_of_toNat_eq ((opField_toNat w).trans h)
  rw [← hop, ← word_eq_byte]

theorem wordByte_of_ends {w : Word} {op : Nibble} {kk : Byte}
    (h : w.toNat / 0x1000 = op.toNat ∧ w.toNat % 0x100 = kk.toNat) : wordByte op (fieldX w) kk = w := by
  have hkk : fieldKK w = kk := BitVec.eq_of_toNat_eq ((fieldKK_toNat w).trans h.2)
  rw [← hkk, wordByte_of_op h.1]

theorem wordRegister_of_op {w : Word} {op : Nibble} (h : w.toNat / 0x1000 = op.toNat) :
    wordRegister op (fieldX w) (fieldY w) (fieldN w) = w := by
  have hop : opField w = op := BitVec.eq_of_toNat_eq ((opField_toNat w).trans h)
  rw [← hop, ← word_eq_register]

theorem wordRegister_of_ends {w : Word} {op n : Nibble}
    (h : w.toNat / 0x1000 = op.toNat ∧ w.toNat % 0x10 = n.toNat) :
    wordRegister op (fieldX w) (fieldY w) n = w := by
  have hn : fieldN w = n := BitVec.eq_of_toNat_eq ((fieldN_toNat w).trans h.2)
  rw [← hn, wordRegister_of_op h.1]

/-! ### What a row builds encodes back, format by format -/

/-- The rows of a list build, from each word they match, the instruction whose word it is. -/
def BuildsItsWord (rows : List Row) : Prop := ∀ r ∈ rows, ∀ w, r.admits w = true → encode (r.build w) = w

theorem rowsFixed_buildsItsWord : BuildsItsWord rowsFixed := by
  simp only [BuildsItsWord, rowsFixed, List.forall_mem_cons, Row.admits_all]
  refine ⟨?_, ?_, ?_, ?_, by simp⟩ <;> exact fun w h => h.symm

theorem rowsAddress_buildsItsWord : BuildsItsWord rowsAddress := by
  simp only [BuildsItsWord, rowsAddress, List.forall_mem_cons]
  refine ⟨?_, ?_, ?_, ?_, by simp⟩ <;>
    exact fun w h => wordAddress_of_op ((Row.admits_high _ _ w (by decide)).mp h)

theorem rowsByte_buildsItsWord : BuildsItsWord rowsByte := by
  simp only [BuildsItsWord, rowsByte, List.forall_mem_cons]
  refine ⟨?_, ?_, ?_, ?_, ?_, by simp⟩ <;>
    exact fun w h => wordByte_of_op ((Row.admits_high _ _ w (by decide)).mp h)

theorem rowsRegister_buildsItsWord : BuildsItsWord rowsRegister := by
  simp only [BuildsItsWord, rowsRegister, List.forall_mem_cons]
  refine ⟨?_, ?_, ?_, ?_, ?_, ?_, ?_, ?_, ?_, ?_, ?_, by simp⟩ <;>
    exact fun w h => wordRegister_of_ends ((Row.admits_ends _ _ w (by decide)).mp h)

theorem rowsDraw_buildsItsWord : BuildsItsWord rowsDraw := by
  simp only [BuildsItsWord, rowsDraw, List.forall_mem_cons]
  exact ⟨fun w h => wordRegister_of_op ((Row.admits_high _ _ w (by decide)).mp h), by simp⟩

theorem rowsSub_buildsItsWord : BuildsItsWord rowsSub := by
  simp only [BuildsItsWord, rowsSub, List.forall_mem_cons]
  refine ⟨?_, ?_, ?_, ?_, ?_, ?_, ?_, ?_, ?_, ?_, ?_, by simp⟩ <;>
    exact fun w h => wordByte_of_ends ((Row.admits_sub _ _ w (by decide)).mp h)

theorem opcodeTable_buildsItsWord : BuildsItsWord opcodeTable := by
  simp only [BuildsItsWord, opcodeTable, List.forall_mem_append]
  exact ⟨⟨⟨⟨⟨rowsFixed_buildsItsWord, rowsAddress_buildsItsWord⟩, rowsByte_buildsItsWord⟩,
    rowsRegister_buildsItsWord⟩, rowsDraw_buildsItsWord⟩, rowsSub_buildsItsWord⟩

theorem encode_of_decodeWord {w : Word} {i : Instr} (h : decodeWord w = .ok i) : encode i = w := by
  obtain ⟨r, hr, ha, rfl⟩ := decodeWord_ok h
  exact opcodeTable_buildsItsWord r hr w ha

/-- Settles O2: each row builds, from a word it matches, the instruction with that word; the widths of the operands are in their types. -/
theorem encodeOfDecodeIsTheWord : Obligations.EncodeOfDecodeIsTheWord := by
  intro w i h
  exact ⟨encode_of_decodeWord h, instr_wellFormed i⟩

/-! ### No word has two rows, and which words have one -/

/-- Of the elements of a list, no two of which satisfy `p` together, at most one satisfies it. -/
theorem countP_le_one_of_pairwise {α : Type} {p : α → Bool} {l : List α}
    (h : l.Pairwise fun a b => ¬ (p a = true ∧ p b = true)) : l.countP p ≤ 1 := by
  induction h with
  | nil => exact Nat.zero_le _
  | @cons a l hhead _ ih =>
    by_cases ha : p a = true
    · have hrest : l.countP p = 0 := List.countP_eq_zero.mpr fun b hb hpb => hhead b hb ⟨ha, hpb⟩
      rw [List.countP_cons_of_pos ha, hrest]
    · rwa [List.countP_cons_of_neg ha]

/-- Settles O3: rows that match one word agree where both masks look, and no two rows of the table do. -/
theorem opcodeRowsAreDisjoint : Obligations.OpcodeRowsAreDisjoint := by
  intro w
  refine countP_le_one_of_pairwise (opcodeTable_apart.imp fun hapart hboth => ?_)
  exact hapart (Row.agree_of_admits hboth.1 hboth.2)

/-- Some row of the list admits the word. -/
def HasRowIn (rows : List Row) (w : Word) : Prop := ∃ r ∈ rows, r.admits w = true

section
variable (w : Word)

theorem hasRowIn_fixed : HasRowIn rowsFixed w ↔ w = 0x00E0 ∨ w = 0x00EE ∨ w = 0x00FE ∨ w = 0x00FF := by
  simp only [HasRowIn, rowsFixed, List.exists_mem_cons_iff, Row.admits_all]
  simp

theorem hasRowIn_address : HasRowIn rowsAddress w ↔ w.toNat / 0x1000 ∈ [0x1, 0x2, 0xA, 0xB] := by
  simp (disch := decide) only [HasRowIn, rowsAddress, List.exists_mem_cons_iff, Row.admits_high]
  simp

theorem hasRowIn_byte : HasRowIn rowsByte w ↔ w.toNat / 0x1000 ∈ [0x3, 0x4, 0x6, 0x7, 0xC] := by
  simp (disch := decide) only [HasRowIn, rowsByte, List.exists_mem_cons_iff, Row.admits_high]
  simp

theorem hasRowIn_register : HasRowIn rowsRegister w ↔
    (w.toNat / 0x1000 = 0x5 ∧ w.toNat % 0x10 = 0) ∨
    (w.toNat / 0x1000 = 0x8 ∧ w.toNat % 0x10 ∈ [0, 1, 2, 3, 4, 5, 6, 7, 0xE]) ∨
    (w.toNat / 0x1000 = 0x9 ∧ w.toNat % 0x10 = 0) := by
  simp (disch := decide) only [HasRowIn, rowsRegister, List.exists_mem_cons_iff, Row.admits_ends]
  simp [and_or_left, or_assoc]

theorem hasRowIn_draw : HasRowIn rowsDraw w ↔ w.toNat / 0x1000 = 0xD := by
  simp (disch := decide) only [HasRowIn, rowsDraw, List.exists_mem_cons_iff, Row.admits_high]
  simp

theorem hasRowIn_sub : HasRowIn rowsSub w ↔
    (w.toNat / 0x1000 = 0xE ∧ w.toNat % 0x100 ∈ [0x9E, 0xA1]) ∨
    (w.toNat / 0x1000 = 0xF ∧ w.toNat % 0x100 ∈ [0x07, 0x0A, 0x15, 0x18, 0x1E, 0x29, 0x33, 0x55, 0x65]) := by
  simp (disch := decide) only [HasRowIn, rowsSub, List.exists_mem_cons_iff, Row.admits_sub]
  simp [and_or_left, or_assoc]

theorem hasRowIn_append (rows rows' : List Row) :
    HasRowIn (rows ++ rows') w ↔ HasRowIn rows w ∨ HasRowIn rows' w := by
  simp only [HasRowIn, List.mem_append, or_and_right, exists_or]

/-- The words of the table, by their nibbles: one group of rows after the other. -/
theorem hasRowIn_opcodeTable : HasRowIn opcodeTable w ↔
    w = 0x00E0 ∨ w = 0x00EE ∨ w = 0x00FE ∨ w = 0x00FF ∨
      w.toNat / 0x1000 ∈ [0x1, 0x2, 0xA, 0xB, 0x3, 0x4, 0x6, 0x7, 0xC, 0xD] ∨
      (w.toNat / 0x1000 ∈ [0x5, 0x9] ∧ w.toNat % 0x10 = 0) ∨
      (w.toNat / 0x1000 = 0x8 ∧ w.toNat % 0x10 ∈ [0, 1, 2, 3, 4, 5, 6, 7, 0xE]) ∨
      (w.toNat / 0x1000 = 0xE ∧ w.toNat % 0x100 ∈ [0x9E, 0xA1]) ∨
      (w.toNat / 0x1000 = 0xF ∧ w.toNat % 0x100 ∈ [0x07, 0x0A, 0x15, 0x18, 0x1E, 0x29, 0x33, 0x55, 0x65]) := by
  have hhigh : w.toNat / 0x1000 ∈ [0x1, 0x2, 0xA, 0xB, 0x3, 0x4, 0x6, 0x7, 0xC, 0xD] ↔
      w.toNat / 0x1000 ∈ [0x1, 0x2, 0xA, 0xB] ∨ w.toNat / 0x1000 ∈ [0x3, 0x4, 0x6, 0x7, 0xC] ∨
        w.toNat / 0x1000 = 0xD := by
    simp [or_assoc]
  have hends : w.toNat / 0x1000 ∈ [0x5, 0x9] ∧ w.toNat % 0x10 = 0 ↔
      (w.toNat / 0x1000 = 0x5 ∧ w.toNat % 0x10 = 0) ∨ (w.toNat / 0x1000 = 0x9 ∧ w.toNat % 0x10 = 0) := by
    simp [or_and_right]
  simp only [opcodeTable, hasRowIn_append, hasRowIn_fixed, hasRowIn_address, hasRowIn_byte, hasRowIn_register,
    hasRowIn_draw, hasRowIn_sub, hhigh, hends]
  ac_nf

end

/-- Settles O4: a word that some row matches decodes, a word that none matches is unknown, and the rows that match a word are told by
its nibbles. -/
theorem wordsOutsideTheTableAreUnknown : Obligations.WordsOutsideTheTableAreUnknown := by
  rintro w op n kk rfl rfl rfl
  rw [← hasRowIn_opcodeTable]
  constructor
  · rintro ⟨r, hr, ha⟩
    exact decodeWord_of_admits hr ha
  · intro hnone
    exact decodeWord_error fun r hr => Bool.eq_false_iff.mpr fun ha => hnone ⟨r, hr, ha⟩

/-- Settles O5: the word of each format as a number, at the format's fixed digits. -/
theorem encodedWordsAreThePatternsOfTheTable : Obligations.EncodedWordsAreThePatternsOfTheTable := by
  rintro x y n kk nnn _ _ rfl rfl
  refine ⟨rfl, rfl, rfl, rfl, ?_⟩
  simp [encode, wordAddress_toNat, wordByte_toNat, wordRegister_toNat]
  omega

/-- Settles O6: each sample is the encoding of its instruction, and 00FD is outside the table by its nibbles. -/
theorem sampleWordsDecode : Obligations.SampleWordsDecode :=
  ⟨decodeWord_encode (.callNnn 0x20E), decodeWord_encode (.subVxVy 0 1), decodeWord_encode (.seVxKk 3 0x42),
    decodeWord_encode (.ldBVx 7), decodeWord_encode (.ldDtVx 4), decodeWord_encode (.skpVx 1),
    decodeWord_encode (.drwVxVyN 1 2 5),
    (wordsOutsideTheTableAreUnknown 0x00FD _ _ _ rfl rfl rfl).2 (by decide)⟩

end Sys2Proof

namespace Sys2Proof.Machine

/-! ### What an instruction writes, said once

`Writes` lists the ways in which the writes of an instruction (`State.effect`) differ from the state before it. Every statement on who
writes what is a case analysis of it. -/

/-- The registers an instruction may write: its destination, VF where it has a flag, and the block of a load (10_state.md R21). -/
def MayWriteReg (i : Instr) (r : Reg) : Prop :=
  (∃ kk, i = .ldVxKk r kk ∨ i = .addVxKk r kk ∨ i = .rndVxKk r kk) ∨
  (∃ y, i = .ldVxVy r y ∨ i = .orVxVy r y ∨ i = .andVxVy r y ∨ i = .xorVxVy r y) ∨
  (∃ x y, (r = x ∨ r = VF) ∧
    (i = .addVxVy x y ∨ i = .subVxVy x y ∨ i = .subnVxVy x y ∨ i = .shrVxVy x y ∨ i = .shlVxVy x y)) ∨
  (∃ x y n, r = VF ∧ i = .drwVxVyN x y n) ∨
  i = .ldVxDt r ∨ i = .ldVxK r ∨ (∃ x : Reg, r.val ≤ x.val ∧ i = .ldVxMem x)

/-- The register files that differ from that of `s` at most where the instruction may write. -/
def RegsWrittenBy (i : Instr) (s : State) (v' : Vector Byte 16) : Prop :=
  ∀ r : Reg, v'[r.val] ≠ s.reg r → MayWriteReg i r

/-- The states that the writes of an instruction may leave, `PC` and the fault state aside: one constructor for each kind of write. -/
inductive Writes : Instr → State → State → Prop
  | nothing (i : Instr) (s : State) : Writes i s s
  | registers {i : Instr} {s : State} {v' : Vector Byte 16} (h : RegsWrittenBy i s v') : Writes i s { s with v := v' }
  | draw {x : Reg} {kk : Byte} {s : State} {v' : Vector Byte 16} (h : RegsWrittenBy (.rndVxKk x kk) s v') :
      Writes (.rndVxKk x kk) s { s with v := v', draws := s.draws + 1 }
  | index {i : Instr} (s : State) (a : Addr)
      (h : (∃ nnn, i = .ldINnn nnn) ∨ (∃ x, i = .addIVx x) ∨ ∃ x, i = .ldFVx x) : Writes i s (s.setI a)
  | call (nnn : Addr) {s : State} (k : Vector (BitVec 13) 16) (p : Fin 17)
      (h : ∀ j : Fin 16, k[j.val] = s.stack[j.val] ∨ k[j.val] = BitVec.ofNat 13 (s.pc.toNat + 2)) :
      Writes (.callNnn nnn) s (s.setStack k p)
  | ret (s : State) (p : Fin 17) : Writes .ret s (s.setStack s.stack p)
  | delay (x : Reg) (s : State) : Writes (.ldDtVx x) s (s.setDT (s.reg x))
  | sound (x : Reg) (s : State) : Writes (.ldStVx x) s (s.setST (s.reg x))
  | low (s : State) : Writes .low s (s.setMode .normal)
  | high (s : State) : Writes .high s (s.setMode .extended)
  | bcd (x : Reg) (s : State) :
      Writes (.ldBVx x) s (s.setMem (Memory.writeBytes s.mem s.i.toNat (bcdDigits (s.reg x))))
  | block (x : Reg) (s : State) :
      Writes (.ldMemVx x) s (s.setMem (Memory.writeBytes s.mem s.i.toNat ((regsUpTo x).map s.reg)))
  | clear (s : State) : Writes .cls s (s.setDisplay Display.blank)
  | sprite {x y : Reg} {n : Nibble} {s : State} {d : Display} {v' : Vector Byte 16}
      (hd : ∀ px py, d.pixel px py ≠ s.display.pixel px py → px < s.mode.width ∧ py < s.mode.height)
      (hv : RegsWrittenBy (.drwVxVyN x y n) s v') :
      Writes (.drwVxVyN x y n) s { s with display := d, v := v' }

/-- The register file after one write, and after a write of a result and then a flag. -/
theorem regsWrittenBy_set {i : Instr} (s : State) {x : Reg} (b : Byte) (h : MayWriteReg i x) :
    RegsWrittenBy i s (s.v.set x.val b) := by
  intro r hr
  by_cases hx : r = x
  · rwa [hx]
  · rw [setReg_get, if_neg hx] at hr
    exact absurd rfl hr

theorem regsWrittenBy_setFlag {i : Instr} (s : State) {x : Reg} (b c : Byte) (hx : MayWriteReg i x)
    (hf : MayWriteReg i VF) : RegsWrittenBy i s ((s.v.set x.val b).set 15 c) := by
  intro r hr
  by_cases hrf : r = VF
  · rwa [hrf]
  by_cases hrx : r = x
  · rwa [hrx]
  · rw [setReg_flag_get, if_neg hrf, if_neg hrx] at hr
    exact absurd rfl hr

theorem Writes.result {i : Instr} (s : State) {x : Reg} (b : Byte) (h : MayWriteReg i x) : Writes i s (s.setReg x b) :=
  .registers (regsWrittenBy_set s b h)

theorem Writes.resultFlag {i : Instr} (s : State) {x : Reg} (b c : Byte) (hx : MayWriteReg i x) (hf : MayWriteReg i VF) :
    Writes i s ((s.setReg x b).setReg VF c) :=
  .registers (regsWrittenBy_setFlag s b c hx hf)

theorem Writes.writeI {i : Instr} (s : State) (t : Nat)
    (h : (∃ nnn, i = .ldINnn nnn) ∨ (∃ x, i = .addIVx x) ∨ ∃ x, i = .ldFVx x) : Writes i s (writeI t s).state := by
  rw [writeI_state]
  exact .index s _ h

theorem writes_ldVxMem (x : Reg) (s : State) : Writes (.ldVxMem x) s (s.effect (.ldVxMem x)) := by
  rw [effect_ldVxMem]
  refine .registers fun r hr => ?_
  have hmem : r ∈ regsUpTo x := by
    by_contra hn
    exact hr (State.loadedFrom_reg_of_not_mem _ _ s r hn)
  have hle := (mem_regsUpTo x r).mp hmem
  simpa [MayWriteReg] using hle

theorem writes_drwVxVyN (x y : Reg) (n : Nibble) (s : State) :
    Writes (.drwVxVyN x y n) s (s.effect (.drwVxVyN x y n)) := by
  obtain ⟨d, hpixel, heffect⟩ := drawn_state s x y n
  have hd : ∀ px py, d.pixel px py ≠ s.display.pixel px py → px < s.mode.width ∧ py < s.mode.height := by
    intro px py hne
    by_contra hout
    rw [hpixel] at hne
    simp only [State.spriteCovers, ← Bool.decide_and, hout] at hne
    simp at hne
  rcases heffect with he | ⟨b, he⟩ <;> rw [he]
  · exact .sprite (v' := s.v) hd fun r hr => absurd rfl hr
  · exact .sprite hd (regsWrittenBy_set s b (by simp [MayWriteReg]))

/-- The writes of every instruction are of one of these kinds. -/
theorem effect_writes (i : Instr) (s : State) : Writes i s (s.effect i) := by
  cases i with
  | jpNnn | jpV0Nnn | seVxKk | sneVxKk | seVxVy | sneVxVy | skpVx | sknpVx => exact .nothing _ s
  | ldVxKk | addVxKk | ldVxVy | orVxVy | andVxVy | xorVxVy | ldVxDt => exact .result s _ (by simp [MayWriteReg])
  | addVxVy | subVxVy | shrVxVy | subnVxVy | shlVxVy =>
    exact .resultFlag s _ _ (by simp [MayWriteReg]) (by simp [MayWriteReg])
  | rndVxKk x kk => exact .draw (regsWrittenBy_set s _ (by simp [MayWriteReg]))
  | ldINnn | addIVx => exact .writeI s _ (by simp)
  | ldFVx x =>
    simp only [State.effect]
    split
    · exact .nothing _ s
    · exact .writeI s _ (by simp)
  | ldVxK x =>
    simp only [State.effect]
    split
    · exact .result s _ (by simp [MayWriteReg])
    · exact .nothing _ s
  | callNnn nnn =>
    obtain ⟨k, p, he, hk⟩ := push_state (BitVec.ofNat 13 (s.pc.toNat + 2)) s
    simp only [State.effect, he]
    exact .call nnn k p hk
  | ret =>
    obtain ⟨p, he⟩ := pop_state s
    simp only [State.effect, he]
    exact .ret s p
  | ldDtVx x => exact .delay x s
  | ldStVx x => exact .sound x s
  | low => exact .low s
  | high => exact .high s
  | cls => exact .clear s
  | ldBVx x => rw [effect_ldBVx]; exact .bcd x s
  | ldMemVx x => rw [effect_ldMemVx]; exact .block x s
  | ldVxMem x => exact writes_ldVxMem x s
  | drwVxVyN x y n => exact writes_drwVxVyN x y n s

/-- What an instruction leaves is its writes, with another `PC` or fault state. -/
theorem exec_writes {i : Instr} {s t : State} (h : exec i s = .next t) :
    ∃ u a f, Writes i s u ∧ t = (u.setPC a).setFault f := by
  rcases exec_cases h with ⟨a, -, ht⟩ | ⟨k, ht⟩
  · exact ⟨_, a, (s.effect i).fault, effect_writes i s, ht⟩
  · exact ⟨_, (s.effect i).pc, some k, effect_writes i s, ht⟩

/-! ### Who writes what -/

/-- Settles O53: only the writes of the named instructions touch the field. -/
theorem onlyNamedInstructionsWriteTheSingleRegisters : Obligations.OnlyNamedInstructionsWriteTheSingleRegisters := by
  intro i s t h
  obtain ⟨u, a, f, hw, rfl⟩ := exec_writes h
  cases hw with
  | index _ _ hi => simp [hi]
  | _ => simp

/-- Settles O57: every kind of write keeps to the registers that the instruction may write. -/
theorem onlyDestinationsAndFlagsChangeRegisters : Obligations.OnlyDestinationsAndFlagsChangeRegisters := by
  intro i s t r h hr
  obtain ⟨u, a, f, hw, rfl⟩ := exec_writes h
  cases hw with
  | registers hv => exact hv r hr
  | draw hv => exact hv r hr
  | sprite _ hv => exact hv r hr
  | _ => exact absurd rfl hr

/-- Settles O56: the grid is written by the blank grid and by the rows of a sprite, which stay inside the active region. -/
theorem onlyClsAndDrwChangePixels : Obligations.OnlyClsAndDrwChangePixels := by
  intro i s t px py h hpx
  obtain ⟨u, a, f, hw, rfl⟩ := exec_writes h
  cases hw with
  | clear => exact .inl rfl
  | @sprite x y n _ _ _ hd _ => exact .inr ⟨x, y, n, rfl, hd px py hpx⟩
  | _ => exact absurd rfl hpx

/-- A byte that a run of stores changes is one of the addresses stored to. -/
theorem writeBytes_changed {m : Memory} {a c : Nat} {bs : List Byte} (hwf : Memory.wf m = true)
    (h : Memory.read (Memory.writeBytes m a bs) c ≠ Memory.read m c) : a ≤ c ∧ c < a + bs.length ∧ c < 0x1000 := by
  by_contra hout
  exact h ((Memory.read_writeBytes bs a c hwf).trans (if_neg hout))

/-- Settles O54: the two kinds of store write at their own addresses. -/
theorem onlyStoresChangeMemory : Obligations.OnlyStoresChangeMemory := by
  intro i s t a hwf h ha
  obtain ⟨u, pc, f, hw, rfl⟩ := exec_writes h
  cases hw with
  | bcd x =>
    obtain ⟨hlo, hhi, hsize⟩ := writeBytes_changed hwf ha
    have hlen : (bcdDigits (s.reg x)).length = 3 := rfl
    exact ⟨hsize, hlo, .inl ⟨x, rfl, by omega⟩⟩
  | block x =>
    obtain ⟨hlo, hhi, hsize⟩ := writeBytes_changed hwf ha
    rw [List.length_map, regsUpTo_length] at hhi
    exact ⟨hsize, hlo, .inr ⟨x, rfl, by omega⟩⟩
  | _ => exact absurd rfl ha

theorem exec_keys {i : Instr} {s t : State} (h : exec i s = .next t) : t.keys = s.keys := by
  obtain ⟨u, a, f, hw, rfl⟩ := exec_writes h
  cases hw <;> rfl

/-- Settles O51: an instruction's own writes leave `PC` and the fault state, and its end either moves `PC` or records a fault. -/
theorem everyInstructionAnswersAndFaultsKeepPC : Obligations.EveryInstructionAnswersAndFaultsKeepPC := by
  intro i s
  obtain ⟨hpc, hfault⟩ := effect_pc_fault i s
  rcases exec_endsFrom_effect i s with ⟨a, -, he⟩ | ⟨k, he⟩
  · exact ⟨_, he, fun hs ht => absurd (hfault.trans hs) ht, fun ht => hfault.symm.trans ht⟩
  · exact ⟨_, he, fun _ _ => hpc, fun ht => absurd ht (Option.some_ne_none k)⟩

end Sys2Proof.Machine

namespace Sys2Proof.Machine

/-! ### The cycle -/

theorem runWord_of_decodeWord {w : Word} {i : Instr} (s : State) (h : decodeWord w = .ok i) : runWord w s = exec i s := by
  simp only [runWord, h]

theorem decodeWord_of_decodeBytes {hi lo : Byte} {i : Instr} (h : decodeBytes [hi, lo] = .ok (i, [])) :
    decodeWord (hi ++ lo) = .ok i := by
  simp only [decodeBytes] at h
  split at h
  · next hj => rw [hj]; injection h with h; injection h with h; rw [h]
  · cases h

/-- The CPU step of a core with no fault, where the two bytes at `PC` are an instruction (R100). -/
theorem cpuStep_eq_exec {s : State} {i : Instr} (hfault : s.fault = none) (hpc : s.pc.toNat + 1 < 0x1000)
    (hdecode : decodeWord (s.byteAt s.pc.toNat ++ s.byteAt (s.pc.toNat + 1)) = .ok i) : cpuStep s = exec i s :=
  (cpuStep_of_fetch hfault (fetch_eq hpc)).trans (runWord_of_decodeWord s hdecode)

/-- Settles O7: the CPU step is the meaning of the decoded instruction, whichever way the schedule asks for it. -/
theorem stepRunsTheDecodedInstruction : Obligations.StepRunsTheDecodedInstruction := by
  intro s i hfault hpc hbytes
  have hdecode := decodeWord_of_decodeBytes hbytes
  constructor
  · intro hidle
    rw [step_idle hidle, cpuStep_eq_exec hfault hpc hdecode]
  · intro es hes
    rw [fire_schedule .cpu es hes]
    exact cpuStep_eq_exec (s := s.setSchedule es) hfault hpc hdecode

theorem placeByte_inside {a : Nat} (b : Byte) (s : State) (h : a < 0x1000) :
    placeByte a b s = s.setMem (Memory.write s.mem a b) := if_pos h

/-- What `withFetchWord` leaves where both bytes exist (log 9). -/
theorem withFetchWord_eq (s : State) (nbits w : Nat) (hpc : s.pc.toNat + 1 < 0x1000) :
    s.withFetchWord nbits w = (((s.setMem (Memory.write (Memory.write s.mem s.pc.toNat (highByte (tableWord nbits w)))
      (s.pc.toNat + 1) (lowByte (tableWord nbits w)))).clearFault).setSchedule []) := by
  rw [State.withFetchWord, placeWord, placeByte_inside _ _ hpc, placeByte_inside _ _ (by omega)]
  rfl

theorem decodeWord_of_decodeTableWord {nbits w : Nat} {i : Instr} (h : decodeTableWord nbits w = some i) :
    decodeWord (tableWord nbits w) = .ok i := by
  simp only [decodeTableWord, wordBytes, decodeBytes, highByte_append_lowByte] at h
  cases hd : decodeWord (tableWord nbits w) with
  | ok j => simp only [hd, Option.some.injEq] at h; rw [h]
  | error e => simp [hd] at h

/-- Settles O8: the two bytes at `PC` are those of the placed word, by read after write. -/
theorem placedWordRunsNext : Obligations.PlacedWordRunsNext := by
  intro s nbits w i hwf hpc htable
  have hdecode := decodeWord_of_decodeTableWord htable
  rw [withFetchWord_eq s nbits w hpc]
  refine ⟨?_, rfl, rfl⟩
  have hwf' := Memory.wf_write (highByte (tableWord nbits w)) hwf (show s.pc.toNat < 0x1000 by omega)
  refine (step_idle rfl).trans (cpuStep_eq_exec rfl hpc ?_)
  rw [← hdecode, ← highByte_append_lowByte (tableWord nbits w)]
  simp [State.byteAt, State.clearFault, Memory.read_write _ _ _ hwf', Memory.read_write _ _ _ hwf,
    highByte_append_lowByte]

/-- Settles O59: the two bytes are those of the jump to `a`, and the jump's PC update writes the address that `PC` holds. -/
theorem haltedStepChangesNothing : Obligations.HaltedStepChangesNothing := by
  rintro s a ⟨rfl, hfault, hhi, hlo⟩ heven hidle
  have hlt := s.pc.isLt
  have hword : s.byteAt s.pc.toNat ++ s.byteAt (s.pc.toNat + 1) = encode (.jpNnn s.pc) := by
    apply BitVec.eq_of_toNat_eq
    simp only [append_toNat, State.byteAt, hhi, hlo, encode, wordAddress_toNat, BitVec.toNat_ofNat]
    show _ = 1 * 0x1000 + _
    omega
  calc step s
      = cpuStep s := step_idle hidle
    _ = exec (.jpNnn s.pc) s := cpuStep_eq_exec hfault (by omega) (by rw [hword, decodeWord_encode])
    _ = .next (s.setPC (BitVec.ofNat 12 s.pc.toNat)) := updatePC_even s hlt heven
    _ = .next s := by rw [BitVec.ofNat_toNat, BitVec.setWidth_eq, State.setPC_self]

/-- A CPU step that goes on runs the instruction whose word it fetched, or records a fault of the fetch or the decoder. -/
theorem cpuStep_runs {s t : State} (h : cpuStep s = .next t) :
    (∃ i, fetch s = .ok (encode i) ∧ exec i s = .next t) ∨ ∃ k, t = s.setFault (some k) := by
  obtain ⟨-, ⟨w, i, hw, hdecode, hexec⟩ | ⟨k, hk⟩⟩ := cpuStep_cases h
  · exact .inl ⟨i, by rw [hw, encode_of_decodeWord hdecode], hexec⟩
  · exact .inr ⟨k, hk⟩

/-! ### The host's events -/

theorem State.tickDT_running {s : State} (h : s.dt ≠ 0) : s.tickDT = s.setDT (s.dt - 1) := if_neg h

theorem State.tickST_running {s : State} (h : s.st ≠ 0) : s.tickST = s.setST (s.st - 1) := if_neg h

/-- Settles O12: the CPU's event stops the run, and each other event reads and writes its own fields only. -/
theorem faultedCoreTakesNoCpuStep : Obligations.FaultedCoreTakesNoCpuStep := by
  intro s k es hfault
  have hcpu : cpuStep s = .fault (.stopped k) := by simp only [cpuStep, hfault]
  refine ⟨fun h => ?_, fun h => ?_, fun h hdt => ?_, fun h hst => ?_, fun bytes h => ?_⟩
  · rw [step_idle h, hcpu]
  · rw [fire_schedule _ _ h, fire, cpuStep_setSchedule, hcpu]
    rfl
  · exact (fire_schedule _ _ h).trans (congrArg Host.Outcome.next (State.tickDT_running (s := s.setSchedule es) hdt))
  · exact (fire_schedule _ _ h).trans (congrArg Host.Outcome.next (State.tickST_running (s := s.setSchedule es) hst))
  · exact ⟨_, fire_schedule _ _ h, rfl, rfl⟩

/-- Settles O13: the event itself stops the run. -/
theorem teardownLeavesNoState : Obligations.TeardownLeavesNoState := by
  intro s es h
  have hstep : step s = .fault .tornDown := fire_schedule .teardown es h
  refine ⟨hstep, fun n => ?_⟩
  have hcore : Sys2Proof.core.step s = .fault .tornDown := hstep
  simp only [Host.Core.run, hcore]

theorem setKeys_self (s : State) (k : Key) : s.keys.set k.val (s.key k) = s.keys := by
  simp [State.key]

/-- Settles O43: the two key events write one key each, and no kind of write of an instruction touches the keypad. -/
theorem onlyTheHostWritesKeys : Obligations.OnlyTheHostWritesKeys := by
  refine ⟨fun s k es => ?_, fun i s t h => exec_keys h⟩
  refine ⟨s.keys.set k.val true, s.keys.set k.val false, fun j => State.key_putKey s k j true, fun h => ?_,
    fun j => State.key_putKey s k j false, fun h => ?_, fun h => ?_, fun h => ?_⟩
  · rw [← h, setKeys_self]
  · rw [← h, setKeys_self]
  · rw [fire_schedule _ _ h]
    rfl
  · rw [fire_schedule _ _ h]
    rfl

/-! ### The two timers, said once for both -/

/-- The timers of the core, each with a cadence of its own (R29, R255, R256). -/
inductive Timer
  | delay
  | sound

def Timer.tick : Timer → Event
  | .delay => .tickDT
  | .sound => .tickST

def Timer.get : Timer → State → Byte
  | .delay, s => s.dt
  | .sound, s => s.st

def Timer.set : Timer → Byte → State → State
  | .delay, b, s => s.setDT b
  | .sound, b, s => s.setST b

/-- The instruction that writes the timer (R191, R192). -/
def Timer.load : Timer → Reg → Instr
  | .delay, x => .ldDtVx x
  | .sound, x => .ldStVx x

theorem Timer.get_set (c : Timer) (b : Byte) (s : State) : c.get (c.set b s) = b := by cases c <;> rfl

theorem Timer.set_set (c : Timer) (a b : Byte) (s : State) : c.set a (c.set b s) = c.set a s := by cases c <;> rfl

theorem Timer.schedule_set (c : Timer) (b : Byte) (s : State) : (c.set b s).schedule = s.schedule := by cases c <;> rfl

theorem Timer.set_setSchedule (c : Timer) (b : Byte) (s : State) (es : List Event) :
    (c.set b s).setSchedule es = c.set b (s.setSchedule es) := by cases c <;> rfl

theorem Timer.get_setSchedule (c : Timer) (s : State) (es : List Event) : c.get (s.setSchedule es) = c.get s := by
  cases c <;> rfl

theorem Timer.set_get (c : Timer) (s : State) : c.set (c.get s) s = s := by cases c <;> rfl

theorem Timer.fire_tick (c : Timer) (s : State) :
    fire c.tick s = .next (c.set (BitVec.ofNat 8 ((c.get s).toNat - 1)) s) := by
  cases c with
  | delay => exact congrArg Host.Outcome.next (State.tickDT_eq s)
  | sound => exact congrArg Host.Outcome.next (State.tickST_eq s)

/-- `n` ticks of one cadence, one after the other. -/
theorem run_ticks (c : Timer) (es : List Event) (n : Nat) : ∀ s : State, s.schedule = List.replicate n c.tick ++ es →
    Host.Core.run Sys2Proof.core n s = .next ((c.set (BitVec.ofNat 8 ((c.get s).toNat - n)) s).setSchedule es) := by
  induction n with
  | zero =>
    rintro s rfl
    rw [Nat.sub_zero, BitVec.ofNat_toNat, BitVec.setWidth_eq, Timer.set_get]
    rfl
  | succ n ih =>
    intro s h
    have hstep := (fire_schedule c.tick _ h).trans (c.fire_tick _)
    have hlt := (c.get s).isLt
    rw [run_succ n hstep, ih _ (c.schedule_set _ _), Timer.get_set, Timer.set_set, Timer.get_setSchedule,
      BitVec.toNat_ofNat, Nat.mod_eq_of_lt (by omega), Nat.sub_sub, Nat.add_comm 1 n, ← Timer.set_setSchedule]
    rfl

/-- The tone sounds while the counter has not come to zero. -/
theorem tone_eq (s : State) : s.tone = decide (0 < s.st.toNat) := by
  rw [State.tone, Bool.eq_iff_iff, decide_eq_true_eq, decide_eq_true_eq, Nat.pos_iff_ne_zero, ne_eq, ne_eq,
    ← BitVec.toNat_inj]
  rfl

/-- Settles O39: the runs of ticks, and what the tone reads of the counter they leave. -/
theorem ticksCountDownAndStopAtZero : Obligations.TicksCountDownAndStopAtZero := by
  intro n s es
  refine ⟨run_ticks .delay es n s, fun h => ⟨_, run_ticks .sound es n s h, rfl, ?_⟩⟩
  have := s.st.isLt
  rw [tone_eq]
  show decide (0 < (BitVec.ofNat 8 (s.st.toNat - n)).toNat) = _
  rw [BitVec.toNat_ofNat, Nat.mod_eq_of_lt (by omega)]
  simp

/-! ### The timers over a CPU step -/

/-- A CPU step that changes a timer runs the instruction that writes it. -/
theorem cpuStep_timer (c : Timer) {s t : State} (h : cpuStep s = .next t) (hne : c.get t ≠ c.get s) :
    ∃ x, fetch s = .ok (encode (c.load x)) ∧ c.get t = s.reg x := by
  rcases cpuStep_runs h with ⟨i, hfetch, hexec⟩ | ⟨k, rfl⟩
  · obtain ⟨u, a, f, hw, rfl⟩ := exec_writes hexec
    cases hw with
    | delay x =>
      cases c with
      | delay => exact ⟨x, hfetch, rfl⟩
      | sound => exact absurd rfl hne
    | sound x =>
      cases c with
      | delay => exact absurd rfl hne
      | sound => exact ⟨x, hfetch, rfl⟩
    | _ => cases c <;> exact absurd rfl hne
  · cases c <;> exact absurd rfl hne

/-- A CPU step that ends the tone runs `LD ST,Vx` with a zero register. -/
theorem cpuStep_endsTone {s t : State} (h : cpuStep s = .next t) (hs : s.tone = true) (ht : t.tone = false) :
    ∃ x, fetch s = .ok (encode (.ldStVx x)) ∧ s.reg x = 0 := by
  simp only [State.tone, decide_eq_true_eq, decide_eq_false_iff_not, not_not] at hs ht
  have hne : Timer.sound.get t ≠ Timer.sound.get s := fun e => hs (e.symm.trans ht)
  obtain ⟨x, hfetch, hx⟩ := cpuStep_timer .sound h hne
  exact ⟨x, hfetch, hx.symm.trans ht⟩

/-- Settles O40: the other events leave `ST` as it is. -/
theorem toneEndsOnlyByTickOrWriteOfZero : Obligations.ToneEndsOnlyByTickOrWriteOfZero := by
  intro s t h hs ht
  rcases step_cases h with ⟨hidle, hcpu⟩ | ⟨e, es, hes, ⟨rfl, hcpu⟩ | ⟨rfl, rfl⟩ | ⟨rfl, rfl⟩ | ⟨k, rfl, rfl⟩ |
    ⟨k, rfl, rfl⟩ | ⟨bytes, rfl, -⟩⟩
  · obtain ⟨x, hfetch, hx⟩ := cpuStep_endsTone hcpu hs ht
    exact .inr (.inr ⟨x, hfetch, hx, .inl hidle⟩)
  · obtain ⟨x, hfetch, hx⟩ := cpuStep_endsTone (s := s.setSchedule es) hcpu hs ht
    exact .inr (.inr ⟨x, hfetch, hx, .inr ⟨es, hes⟩⟩)
  · exact absurd (hs.symm.trans ht) Bool.true_eq_false.mp
  · refine .inl ⟨es, hes, BitVec.eq_of_toNat_eq ?_⟩
    have hlt := s.st.isLt
    simp only [tone_eq, decide_eq_true_eq, decide_eq_false_iff_not, State.setST_st, BitVec.toNat_ofNat] at hs ht
    show _ = 1
    omega
  · exact absurd (hs.symm.trans ht) Bool.true_eq_false.mp
  · exact absurd (hs.symm.trans ht) Bool.true_eq_false.mp
  · exact .inr (.inl ⟨bytes, es, hes⟩)

/-! ### Memory over a step -/

/-- A CPU step that changes a byte runs one of the two stores. -/
theorem cpuStep_byteAt {s t : State} {a : Nat} (hwf : Memory.wf s.mem = true) (h : cpuStep s = .next t)
    (ha : t.byteAt a ≠ s.byteAt a) : a < 0x1000 ∧ s.fault = none ∧
      ∃ w, fetch s = .ok w ∧ ∃ x, decodeWord w = .ok (.ldBVx x) ∨ decodeWord w = .ok (.ldMemVx x) := by
  obtain ⟨hfault, ⟨w, i, hw, hdecode, hexec⟩ | ⟨k, rfl⟩⟩ := cpuStep_cases h
  · obtain ⟨hsize, -, ⟨x, rfl, -⟩ | ⟨x, rfl, -⟩⟩ := onlyStoresChangeMemory i s t a hwf hexec ha
    · exact ⟨hsize, hfault, w, hw, x, .inl hdecode⟩
    · exact ⟨hsize, hfault, w, hw, x, .inr hdecode⟩
  · exact absurd rfl ha

/-- Settles O55: besides the CPU step only the program load writes memory, from its base on. -/
theorem onlyStoresAndTheLoadChangeMemory : Obligations.OnlyStoresAndTheLoadChangeMemory := by
  intro s t a hwf h ha
  rcases step_cases h with ⟨hidle, hcpu⟩ | ⟨e, es, hes, ⟨rfl, hcpu⟩ | ⟨rfl, rfl⟩ | ⟨rfl, rfl⟩ | ⟨k, rfl, rfl⟩ |
    ⟨k, rfl, rfl⟩ | ⟨bytes, rfl, rfl⟩⟩
  · obtain ⟨hsize, hstore⟩ := cpuStep_byteAt hwf hcpu ha
    exact ⟨hsize, .inr ⟨.inl hidle, hstore⟩⟩
  · obtain ⟨hsize, hstore⟩ := cpuStep_byteAt (s := s.setSchedule es) hwf hcpu ha
    exact ⟨hsize, .inr ⟨.inr ⟨es, hes⟩, hstore⟩⟩
  · exact absurd rfl ha
  · exact absurd rfl ha
  · exact absurd rfl ha
  · exact absurd rfl ha
  · obtain ⟨hbase, -, hsize⟩ := writeBytes_changed hwf ha
    exact ⟨hsize, .inl ⟨bytes, es, hes, hbase⟩⟩

end Sys2Proof.Machine

namespace Sys2Proof.Machine

/-! ### Reset and construction -/

theorem defaultFont_length : defaultFont.length = 80 := rfl

theorem Memory.unlisted_beyond {a : Nat} (h : 80 ≤ a) : Memory.unlisted a = 0 :=
  List.getD_eq_default _ _ (by rwa [defaultFont_length])

theorem asConstructed_reset : State.reset.asConstructed := by
  refine ⟨?_, rfl, rfl, rfl, ?_, rfl, rfl, Display.pixel_blank, rfl, ?_, rfl⟩ <;> decide

/-- Settles O14: the fields of the reset state, and the 80 bytes of the default font before the zeros. -/
theorem resetIsTheConstructionState : Obligations.ResetIsTheConstructionState :=
  ⟨asConstructed_reset, rfl, rfl, rfl, fun _ => Memory.unlisted_beyond⟩

/-- Settles O15: `PC` is 0x200, the slots are zero, and memory lists nothing. -/
theorem resetMeetsTheInvariant : Obligations.ResetMeetsTheInvariant :=
  ⟨rfl, by decide, rfl, by decide⟩

/-- Before the fonts are placed, construction leaves zero everywhere. -/
theorem read_zeroed (a : Nat) : Memory.read (Memory.writeBytes [] 0 (List.replicate 80 0)) a = 0 := by
  rw [Memory.read_writeBytes _ _ _ rfl, List.length_replicate]
  split
  · next h => exact List.getD_replicate _ (by omega)
  · next h => exact Memory.unlisted_beyond (by simp only [Memory.size] at h; omega)

theorem wf_zeroed : Memory.wf (Memory.writeBytes [] 0 (List.replicate 80 0)) = true := Memory.wf_writeBytes _ 0 rfl

theorem wf_constructMemory (p : Params) : Memory.wf (constructMemory p) = true :=
  Memory.wf_writeBytes _ _ (Memory.wf_writeBytes _ _ wf_zeroed)

/-- What construction places at an address: a byte of the extended font, else one of the font, else zero (R280, R281). -/
theorem read_constructMemory (p : Params) (a : Nat) :
    Memory.read (constructMemory p) a =
      if p.xfontBase.toNat ≤ a ∧ a < p.xfontBase.toNat + p.xfont.length ∧ a < 0x1000
      then p.xfont.getD (a - p.xfontBase.toNat) 0
      else if p.fontBase.toNat ≤ a ∧ a < p.fontBase.toNat + p.font.length ∧ a < 0x1000
      then p.font.getD (a - p.fontBase.toNat) 0 else 0 := by
  rw [constructMemory, Memory.read_writeBytes _ _ _ (Memory.wf_writeBytes _ _ wf_zeroed),
    Memory.read_writeBytes _ _ _ wf_zeroed, read_zeroed]
  rfl

/-- The domains of R9 as inequalities between numbers. -/
theorem Params.bounds {p : Params} (h : p.wellFormed = true) :
    p.font.length ≤ 80 ∧ p.fontBase.toNat + 80 ≤ 0x200 ∧ p.xfont.length ≤ 160 ∧ p.xfontBase.toNat + 160 ≤ 0x200 ∧
    (p.fontBase.toNat + 80 ≤ p.xfontBase.toNat ∨ p.xfontBase.toNat + 160 ≤ p.fontBase.toNat) := by
  simp only [Params.wellFormed, Params.fontSize, Params.fontPlace, Params.xfontSize, Params.xfontPlace,
    Params.fontsApart, Bool.and_eq_true, Bool.or_eq_true, beq_iff_eq, decide_eq_true_eq, List.isEmpty_iff_length_eq_zero] at h
  omega

/-- A memory in canonical form that reads as unlisted everywhere lists nothing. -/
theorem Memory.eq_nil_of_read {m : Memory} (hwf : Memory.wf m = true) (h : ∀ a, Memory.read m a = Memory.unlisted a) :
    m = [] := Memory.ext_of_read hwf rfl h

theorem construct_defaultParams : State.construct defaultParams = State.reset := by
  have hx : defaultParams.xfontBase.toNat = 0x50 := rfl
  have hxfont : defaultParams.xfont = [] := rfl
  have hf : defaultParams.fontBase.toNat = 0 := rfl
  have hfont : defaultParams.font = defaultFont := rfl
  have hmem : constructMemory defaultParams = [] := by
    refine Memory.eq_nil_of_read (wf_constructMemory _) fun a => ?_
    rw [read_constructMemory, hx, hxfont, hf, hfont, defaultFont_length, List.length_nil, if_neg (by omega)]
    by_cases ha : a < 80
    · rw [if_pos (by omega)]
      rfl
    · rw [if_neg (by omega)]
      exact (Memory.unlisted_beyond (by omega)).symm
  rw [State.construct, hmem]
  rfl

/-- Settles O18: the fonts stand apart, so each byte of either is the one that construction placed. -/
theorem constructionLoadsTheFonts : Obligations.ConstructionLoadsTheFonts := by
  refine ⟨fun p hp => ?_, construct_defaultParams⟩
  obtain ⟨hlen, hplace, hxlen, hxplace, hapart⟩ := Params.bounds hp
  obtain ⟨hpc, hstack, -, -⟩ := resetMeetsTheInvariant
  have hread : ∀ a, (State.construct p).byteAt a = _ := read_constructMemory p
  refine ⟨asConstructed_reset, ⟨hpc, hstack, wf_constructMemory p, hplace⟩, rfl, rfl, fun j hj => ?_, fun j hj => ?_,
    fun a hfont hxfont => ?_⟩
  · rw [hread, if_neg (by omega), if_pos (by omega), Nat.add_sub_cancel_left]
  · rw [hread, if_pos (by omega), Nat.add_sub_cancel_left]
  · rw [hread, if_neg (by omega), if_neg (by omega)]

/-! ### The program load -/

/-- Memory after a program load: the image from 0x200 on, cut at 0xE00 bytes (R282, R283). -/
theorem read_loadProgram {s : State} (bytes : List Byte) (hwf : Memory.wf s.mem = true) (a : Nat) :
    Memory.read (s.loadProgram bytes).mem a =
      if 0x200 ≤ a ∧ a < 0x200 + min bytes.length 0xE00 then bytes.getD (a - 0x200) 0 else s.byteAt a := by
  refine (Memory.read_writeBytes (bytes.take maxImage) progBase a hwf).trans ?_
  simp only [List.length_take, maxImage, progBase, Memory.size]
  by_cases ha : 0x200 ≤ a ∧ a < 0x200 + min bytes.length 0xE00
  · rw [if_pos (by omega), if_pos ha, List.getD_eq_getElem?_getD, List.getElem?_take_of_lt (by omega),
      List.getD_eq_getElem?_getD]
  · rw [if_neg (by omega), if_neg ha]
    rfl

/-- Settles O17: the event is `State.loadProgram`, whose memory is read byte by byte. -/
theorem loadProgramCopiesAndResets : Obligations.LoadProgramCopiesAndResets := by
  intro s bytes es hwf hes
  refine ⟨(s.loadProgram bytes).mem, Vector.replicate 16 0, fire_schedule _ es hes, fun r => ?_,
    read_loadProgram bytes hwf⟩
  exact Vector.getElem_replicate _

/-! ### The invariant -/

/-- The address after an instruction, as a stack slot (R112). -/
theorem slot_toNat (s : State) : (BitVec.ofNat 13 (s.pc.toNat + 2)).toNat = s.pc.toNat + 2 := by
  have := s.pc.isLt
  rw [BitVec.toNat_ofNat, Nat.mod_eq_of_lt (by omega)]

/-- No write of an instruction breaks the invariant: only `CALL` and the two stores touch a field that it speaks of. -/
theorem Writes.inv {i : Instr} {s u : State} (hw : Writes i s u) (h : s.Inv) : u.Inv := by
  obtain ⟨hpc, hstack, hmem, hfont⟩ := h
  cases hw with
  | call nnn k p hk =>
    refine ⟨hpc, fun j => ?_, hmem, hfont⟩
    rcases hk j with hj | hj
    · rw [State.setStack_stack, hj]
      exact hstack j
    · have := s.pc.isLt
      rw [State.setStack_stack, hj, slot_toNat]
      omega
  | bcd x => exact ⟨hpc, hstack, Memory.wf_writeBytes _ _ hmem, hfont⟩
  | block x => exact ⟨hpc, hstack, Memory.wf_writeBytes _ _ hmem, hfont⟩
  | _ => exact ⟨hpc, hstack, hmem, hfont⟩

theorem exec_inv {i : Instr} {s t : State} (hexec : exec i s = .next t) (h : s.Inv) : t.Inv := by
  obtain ⟨hpc, hstack, hmem, hfont⟩ := (effect_writes i s).inv h
  rcases exec_cases hexec with ⟨a, ha, rfl⟩ | ⟨k, rfl⟩
  · exact ⟨ha, hstack, hmem, hfont⟩
  · exact ⟨hpc, hstack, hmem, hfont⟩

theorem cpuStep_inv {s t : State} (hcpu : cpuStep s = .next t) (h : s.Inv) : t.Inv := by
  rcases cpuStep_runs hcpu with ⟨i, -, hexec⟩ | ⟨k, rfl⟩
  · exact exec_inv hexec h
  · exact h

theorem loadProgram_inv {s : State} (bytes : List Byte) (h : s.Inv) : (s.loadProgram bytes).Inv := by
  obtain ⟨-, hstack, hmem, hfont⟩ := h
  exact ⟨(by decide : (0x200 : Addr).toNat % 2 = 0), hstack, Memory.wf_writeBytes _ _ hmem, hfont⟩

/-- Settles O16: the CPU step and the program load keep the invariant, and the other events write no field that it speaks of. -/
theorem everyStepKeepsTheInvariant : Obligations.EveryStepKeepsTheInvariant := by
  intro s t h hstep
  rcases step_cases hstep with ⟨-, hcpu⟩ | ⟨e, es, -, ⟨-, hcpu⟩ | ⟨-, rfl⟩ | ⟨-, rfl⟩ | ⟨k, -, rfl⟩ | ⟨k, -, rfl⟩ |
    ⟨bytes, -, rfl⟩⟩
  · exact cpuStep_inv hcpu h
  · exact cpuStep_inv (s := s.setSchedule es) hcpu h
  · exact h
  · exact h
  · exact h
  · exact h
  · exact loadProgram_inv (s := s.setSchedule es) bytes h

end Sys2Proof.Machine

namespace Sys2Proof.Machine

/-! ### Registers after a write, as numbers -/

theorem toNat_setReg_get (s : State) (x r : Reg) (b : Byte) :
    ((s.v.set x.val b)[r.val]).toNat = if r = x then b.toNat else (s.reg r).toNat := by
  rw [setReg_get, apply_ite BitVec.toNat]

theorem toNat_setReg_flag_get (s : State) (x r : Reg) (b c : Byte) :
    (((s.v.set x.val b).set 15 c)[r.val]).toNat =
      if r = VF then c.toNat else if r = x then b.toNat else (s.reg r).toNat := by
  rw [setReg_flag_get, apply_ite BitVec.toNat, apply_ite BitVec.toNat]

/-! ### `CALL`, `RET` and the jumps -/

/-- A pop with entries in use takes the newest one (R28). -/
theorem pop_used {s : State} {k : Fin 16} (h : s.sp.val = k.val + 1) :
    pop s = .done s.stack[k.val] (s.setStack s.stack k.castSucc) := by
  rcases pop_cases s with ⟨hempty, -⟩ | ⟨hused, he⟩
  · rw [hempty] at h
    exact absurd h (Nat.zero_ne_add_one _)
  · rw [he]
    simp only [h, Nat.add_sub_cancel]
    rfl

theorem exec_ret_used {s : State} {k : Fin 16} (h : s.sp.val = k.val + 1) :
    exec .ret s = updatePC (s.stack[k.val]).toNat (s.setStack s.stack k.castSucc) := by
  simp only [exec, execRet, pop_used h]

/-- A push with a free slot fills the slot at `SP` (R28). -/
theorem push_at {s : State} {k : Fin 16} (v : BitVec 13) (h : s.sp.val = k.val) :
    push v s = .done () (s.setStack (s.stack.set k.val v) k.succ) := by
  rw [push_free v (by omega)]
  simp only [h]
  rfl

theorem exec_callNnn_at {s : State} {k : Fin 16} (nnn : Addr) (h : s.sp.val = k.val) :
    exec (.callNnn nnn) s =
      updatePC nnn.toNat (s.setStack (s.stack.set k.val (BitVec.ofNat 13 (s.pc.toNat + 2))) k.succ) := by
  simp only [exec, execCallNnn, push_at _ h]

theorem exists_slot_of_not_full {s : State} (h : s.sp ≠ 16) : ∃ k : Fin 16, s.sp.val = k.val := by
  have hne : s.sp.val ≠ 16 := fun e => h (Fin.ext e)
  exact ⟨⟨s.sp.val, by omega⟩, rfl⟩

theorem exists_slot_of_not_empty {s : State} (h : s.sp ≠ 0) : ∃ k : Fin 16, s.sp.val = k.val + 1 := by
  have hne : s.sp.val ≠ 0 := fun e => h (Fin.ext e)
  exact ⟨⟨s.sp.val - 1, by omega⟩, (Nat.succ_pred_eq_of_ne_zero hne).symm⟩

/-- A PC update to an address of the address type. -/
theorem updatePC_addr {a : Addr} (s : State) (h : a.toNat % 2 = 0) : updatePC a.toNat s = .next (s.setPC a) := by
  rw [updatePC_even s a.isLt h, BitVec.ofNat_toNat, BitVec.setWidth_eq]

/-- The stack after a push, slot by slot. -/
theorem pushed_slot (s : State) (k j : Fin 16) :
    ((s.stack.set k.val (BitVec.ofNat 13 (s.pc.toNat + 2)))[j.val]).toNat =
      if j = k then s.pc.toNat + 2 else (s.stack[j.val]).toNat := by
  rw [Vector.getElem_set]
  by_cases h : j = k
  · rw [if_pos (congrArg Fin.val h.symm), if_pos h, slot_toNat]
  · rw [if_neg fun e => h (Fin.ext e.symm), if_neg h]

/-- Settles O19: the pop, and the PC update with the entry it took. -/
theorem retPopsIntoPC : Obligations.RetPopsIntoPC := by
  rintro s k t hsp rfl
  rw [exec_ret_used hsp]
  constructor
  · intro hlt heven
    exact updatePC_even _ hlt heven
  · intro hend
    rw [hend]
    exact updatePC_beyond _ (le_refl _)

/-- Settles O20: the push, and the PC update with the target. -/
theorem callPushesTheAddressAfterItself : Obligations.CallPushesTheAddressAfterItself := by
  intro s nnn k hsp
  refine ⟨s.stack.set k.val (BitVec.ofNat 13 (s.pc.toNat + 2)), pushed_slot s k, fun heven => ?_, fun hodd => ?_⟩
  · exact (exec_callNnn_at nnn hsp).trans (updatePC_addr _ heven)
  · exact (exec_callNnn_at nnn hsp).trans (updatePC_odd _ nnn.isLt hodd)

/-- Settles O21: the `RET` pops the slot that the `CALL` pushed, which holds the address after the `CALL`. -/
theorem returnResumesAfterTheCall : Obligations.ReturnResumesAfterTheCall := by
  intro s nnn hfree hfall heven
  obtain ⟨k, hk⟩ := exists_slot_of_not_full hfree
  refine ⟨_, (exec_callNnn_at nnn hk).trans (updatePC_addr _ heven), rfl, fun u hstack hsp => ?_⟩
  have hused : u.sp.val = k.val + 1 := congrArg Fin.val hsp
  have hslot : (u.stack[k.val]).toNat = s.pc.toNat + 2 := by
    rw [hstack]
    exact (pushed_slot s k k).trans (if_pos rfl)
  obtain ⟨hpc, hnext⟩ := hfall
  refine ⟨_, (exec_ret_used hused).trans (updatePC_even _ (by omega) (by omega)), ?_, Fin.ext hk.symm, rfl⟩
  show BitVec.ofNat 12 (u.stack[k.val]).toNat = s.pc + 2
  rw [hslot, ofNat_add_of_pc]
  rfl

/-- Settles O25: each jump is one PC update. -/
theorem jumpsGoToTheirTarget : Obligations.JumpsGoToTheirTarget := by
  rintro s nnn sum rfl
  exact ⟨updatePC_addr s, updatePC_odd s nnn.isLt, updatePC_even s, updatePC_odd s, updatePC_beyond s⟩

/-! ### Skips -/

/-- A skip and its opposite, from an even address. -/
theorem skipIf_pair (taken : Bool) {s : State} {eq ne : Nat} (heven : s.pc.toNat % 2 = 0)
    (heq : eq = s.pc.toNat + if taken = true then 4 else 2) (hne : ne = s.pc.toNat + if taken = true then 2 else 4) :
    (eq < 0x1000 → skipIf taken s = .next { s with pc := BitVec.ofNat 12 eq }) ∧
    (0x1000 ≤ eq → skipIf taken s = .next { s with fault := some (.outOfBoundsAddress eq) }) ∧
    (ne < 0x1000 → skipIf (!taken) s = .next { s with pc := BitVec.ofNat 12 ne }) ∧
    (0x1000 ≤ ne → skipIf (!taken) s = .next { s with fault := some (.outOfBoundsAddress ne) }) := by
  obtain ⟨hin, hout⟩ := skipIf_spec taken heven heq
  obtain ⟨hin', hout'⟩ := skipIf_spec (!taken) (t := ne) heven (by rw [hne]; cases taken <;> rfl)
  exact ⟨hin, hout, hin', hout'⟩

/-- The skips that test a proposition, and the skips that test its negation. -/
theorem skipIf_decide_pair (p : Prop) [Decidable p] {s : State} {eq ne : Nat} (heven : s.pc.toNat % 2 = 0)
    (heq : eq = s.pc.toNat + if p then 4 else 2) (hne : ne = s.pc.toNat + if p then 2 else 4) :
    (eq < 0x1000 → skipIf (decide p) s = .next { s with pc := BitVec.ofNat 12 eq }) ∧
    (0x1000 ≤ eq → skipIf (decide p) s = .next { s with fault := some (.outOfBoundsAddress eq) }) ∧
    (ne < 0x1000 → skipIf (decide (¬ p)) s = .next { s with pc := BitVec.ofNat 12 ne }) ∧
    (0x1000 ≤ ne → skipIf (decide (¬ p)) s = .next { s with fault := some (.outOfBoundsAddress ne) }) := by
  rw [decide_not]
  exact skipIf_pair (decide p) heven (by simpa using heq) (by simpa using hne)

/-- Settles O23: the two instructions are a skip and its opposite. -/
theorem immediateSkipsCompareWithTheByte : Obligations.ImmediateSkipsCompareWithTheByte := by
  intro s x kk eq ne heven heq hne
  exact skipIf_decide_pair (s.reg x = kk) heven heq hne

/-- Settles O24: the two instructions are a skip and its opposite. -/
theorem registerSkipsCompareTheRegisters : Obligations.RegisterSkipsCompareTheRegisters := by
  intro s x y eq ne heven heq hne
  exact skipIf_decide_pair (s.reg x = s.reg y) heven heq hne

/-- The key that a register names (R201). -/
theorem keyOperand_ok {s : State} {x : Reg} {k : Key} (h : (s.reg x).toNat = k.val) : keyOperand x s = .ok k := by
  have hlt : (s.reg x).toNat < 16 := by omega
  rw [keyOperand, dif_pos hlt]
  exact congrArg Except.ok (Fin.ext h)

theorem keyOperand_none {s : State} {x : Reg} (h : 0xF < (s.reg x).toNat) :
    keyOperand x s = .error (.unmodelled .keyIndex) := dif_neg (by omega)

/-- Everything the key operand can be (R201, R202). -/
theorem keyOperand_cases (x : Reg) (s : State) :
    (0xF < (s.reg x).toNat ∧ keyOperand x s = .error (.unmodelled .keyIndex)) ∨
    ∃ k : Key, (s.reg x).toNat = k.val ∧ keyOperand x s = .ok k := by
  by_cases h : (s.reg x).toNat < 16
  · exact .inr ⟨⟨_, h⟩, rfl, keyOperand_ok rfl⟩
  · exact .inl ⟨by omega, keyOperand_none (by omega)⟩

/-- The key that a register names is pressed iff some key of that number is. -/
theorem namedKey_pressed {s : State} {x : Reg} {k : Key} (h : (s.reg x).toNat = k.val) :
    (∃ j : Key, j.val = (s.reg x).toNat ∧ s.key j = true) ↔ s.key k = true := by
  constructor
  · rintro ⟨j, hj, hpressed⟩
    rwa [← Fin.ext (hj.trans h)]
  · exact fun hpressed => ⟨k, h.symm, hpressed⟩

/-- Settles O41: a value that is a key names it, and the two instructions are then a skip and its opposite. -/
theorem keySkipsTestTheNamedKey : Obligations.KeySkipsTestTheNamedKey := by
  intro s x k dn up heven hdn hup
  constructor
  · intro hkey
    have hskp : exec (.skpVx x) s = skipIf (s.key k) s := by simp only [exec, execSkpVx, keyOperand_ok hkey]
    have hsknp : exec (.sknpVx x) s = skipIf (!s.key k) s := by simp only [exec, execSknpVx, keyOperand_ok hkey]
    rw [hskp, hsknp]
    exact skipIf_pair (s.key k) heven hdn hup
  · intro hbig
    constructor
    · simp only [exec, execSkpVx, keyOperand_none hbig]
      rfl
    · simp only [exec, execSknpVx, keyOperand_none hbig]
      rfl

theorem lowestPressed_eq {s : State} {k : Key} (hk : s.key k = true) (hlower : ∀ j : Key, j < k → s.key j = false) :
    lowestPressed s = some k := by
  refine List.find?_eq_some_iff_getElem.mpr ⟨hk, k.val, by simp, by simp, fun j hj => ?_⟩
  simpa using hlower ⟨j, by omega⟩ hj

/-- Settles O42: the search for the lowest pressed key, which either finds none or the one that the statement names. -/
theorem keyWaitTakesTheLowestPressedKey : Obligations.KeyWaitTakesTheLowestPressedKey := by
  intro s x
  constructor
  · intro hnone heven
    have hsearch : lowestPressed s = none := List.find?_eq_none.mpr fun k _ => by simp [hnone k]
    simp only [exec, execLdVxK, hsearch]
    exact updatePC_addr s heven
  · intro k hk hlower
    have hsearch : lowestPressed s = some k := lowestPressed_eq hk hlower
    have hexec : exec (.ldVxK x) s = resultOnly x (BitVec.ofNat 8 k.val) s := by
      simp only [exec, execLdVxK, hsearch]
    rw [hexec]
    refine ⟨s.v.set x.val (BitVec.ofNat 8 k.val), fun r => ?_, resultOnly_next x _, resultOnly_last x _⟩
    rw [toNat_setReg_get, BitVec.toNat_ofNat, Nat.mod_eq_of_lt (by omega)]

end Sys2Proof.Machine

namespace Sys2Proof.Machine

/-! ### The results and flags of the ALU, as numbers (41_register_ops.md R153) -/

theorem sumByte_toNat (a b : Byte) : (sumByte a b).toNat = (a.toNat + b.toNat) % 256 := by
  rw [sumByte, BitVec.toNat_ofNat]
  omega

theorem diffByte_toNat (a b : Byte) : ((diffByte a b).toNat : Int) = ((a.toNat : Int) - b.toNat) % 256 := by
  have := a.isLt
  have := b.isLt
  rw [diffByte, BitVec.toNat_ofNat]
  omega

theorem flagByte_toNat (p : Prop) [Decidable p] : (flagByte (decide p)).toNat = if p then 1 else 0 := by
  by_cases h : p <;> simp [flagByte, h]

theorem flagByte_testBit_toNat (a n : Nat) : (flagByte (a.testBit n)).toNat = a / 2 ^ n % 2 := by
  rw [Nat.testBit_eq_decide_div_mod_eq, flagByte_toNat]
  split <;> omega

theorem droppedLow_toNat (a : Byte) : (droppedLow a).toNat = a.toNat % 2 := by
  rw [droppedLow, flagByte_testBit_toNat, pow_zero, Nat.div_one]

theorem droppedHigh_toNat (a : Byte) : (droppedHigh a).toNat = a.toNat / 128 := by
  have := a.isLt
  rw [droppedHigh, flagByte_testBit_toNat]
  omega

theorem shiftRight1_toNat (a : Byte) : (shiftRight1 a).toNat = a.toNat / 2 := by
  have := a.isLt
  rw [shiftRight1, BitVec.toNat_ofNat, Nat.shiftRight_eq_div_pow]
  omega

theorem shiftLeft1_toNat (a : Byte) : (shiftLeft1 a).toNat = 2 * a.toNat % 256 := by
  rw [shiftLeft1, BitVec.toNat_ofNat, Nat.shiftLeft_eq]
  omega

/-! ### Register instructions -/

/-- Settles O26: each load is one result. -/
theorem loadsWriteTheDestination : Obligations.LoadsWriteTheDestination := by
  intro s x y kk
  exact ⟨_, _, fun r => setReg_get s x r kk, fun r => setReg_get s x r (s.reg y),
    fun h => ⟨resultOnly_next x kk h, resultOnly_next x _ h⟩, fun h => ⟨resultOnly_last x kk h, resultOnly_last x _ h⟩⟩

/-- Settles O27: one result, the sum modulo 256, and no flag. -/
theorem addImmediateWrapsWithoutFlag : Obligations.AddImmediateWrapsWithoutFlag := by
  intro s x kk
  refine ⟨s.v.set x.val (sumByte (s.reg x) kk), fun r => ?_, resultOnly_next x _, resultOnly_last x _⟩
  rw [toNat_setReg_get, sumByte_toNat]

theorem getLsbD_setReg_get (s : State) (x r : Reg) (b : Byte) (n : Nat) :
    ((s.v.set x.val b)[r.val]).getLsbD n = if r = x then b.getLsbD n else (s.reg r).getLsbD n := by
  rw [setReg_get, apply_ite (BitVec.getLsbD · n)]

/-- Settles O28: one result each, bit by bit. -/
theorem bitwiseOperationsLeaveVF : Obligations.BitwiseOperationsLeaveVF := by
  intro s x y
  refine ⟨s.v.set x.val (s.reg x ||| s.reg y), s.v.set x.val (s.reg x &&& s.reg y), s.v.set x.val (s.reg x ^^^ s.reg y),
    fun r b => ?_, fun r b => ?_, fun r b => ?_,
    fun h => ⟨resultOnly_next x _ h, resultOnly_next x _ h, resultOnly_next x _ h⟩,
    fun h => ⟨resultOnly_last x _ h, resultOnly_last x _ h, resultOnly_last x _ h⟩⟩
  · rw [getLsbD_setReg_get, BitVec.getLsbD_or]
  · rw [getLsbD_setReg_get, BitVec.getLsbD_and]
  · rw [getLsbD_setReg_get, BitVec.getLsbD_xor]

/-- Settles O29: the sum, and then the flag of the true sum. -/
theorem addWritesSumThenCarry : Obligations.AddWritesSumThenCarry := by
  rintro s x y a b rfl rfl
  refine ⟨(s.v.set x.val (sumByte (s.reg x) (s.reg y))).set 15 (carryOut (s.reg x) (s.reg y)), fun r => ?_,
    resultThenFlag_next x _ _, resultThenFlag_last x _ _⟩
  rw [toNat_setReg_flag_get, carryOut, flagByte_toNat, sumByte_toNat]

/-- The registers after a subtraction, as integers. -/
theorem subtracted_get (s : State) (x r : Reg) (a b : Byte) :
    ((((s.v.set x.val (diffByte a b)).set 15 (noBorrow a b))[r.val]).toNat : Int) =
      if r = VF then (if b.toNat ≤ a.toNat then 1 else 0)
      else if r = x then ((a.toNat : Int) - b.toNat) % 256 else (s.reg r).toNat := by
  rw [toNat_setReg_flag_get, Nat.cast_ite, Nat.cast_ite, diffByte_toNat, noBorrow, flagByte_toNat]
  simp

/-- Settles O30: the difference, and then the flag that compares the two operands. -/
theorem subtractionsWriteDifferenceThenNoBorrow : Obligations.SubtractionsWriteDifferenceThenNoBorrow := by
  rintro s x y a b rfl rfl
  exact ⟨_, _, fun r => subtracted_get s x r (s.reg x) (s.reg y), fun r => subtracted_get s x r (s.reg y) (s.reg x),
    fun h => ⟨resultThenFlag_next x _ _ h, resultThenFlag_next x _ _ h⟩,
    fun h => ⟨resultThenFlag_last x _ _ h, resultThenFlag_last x _ _ h⟩⟩

/-- Settles O31: the shifted operand, and then the bit that the shift drops. -/
theorem shiftsWriteResultThenDroppedBit : Obligations.ShiftsWriteResultThenDroppedBit := by
  intro s x y o ho
  have hoperand : (shiftOperand x y s).toNat = o := ho.symm
  refine ⟨(s.v.set x.val (shiftRight1 (shiftOperand x y s))).set 15 (droppedLow (shiftOperand x y s)),
    (s.v.set x.val (shiftLeft1 (shiftOperand x y s))).set 15 (droppedHigh (shiftOperand x y s)), fun r => ?_, fun r => ?_,
    fun h => ⟨resultThenFlag_next x _ _ h, resultThenFlag_next x _ _ h⟩,
    fun h => ⟨resultThenFlag_last x _ _ h, resultThenFlag_last x _ _ h⟩⟩
  · rw [toNat_setReg_flag_get, droppedLow_toNat, shiftRight1_toNat, hoperand]
  · rw [toNat_setReg_flag_get, droppedHigh_toNat, shiftLeft1_toNat, hoperand]

/-- Settles O32: one result, the draw under the mask, whatever the draw is. -/
theorem rndMasksTheDraw : Obligations.RndMasksTheDraw := by
  intro s x kk
  refine ⟨s.v.set x.val (Config.rng s.draws &&& kk), fun r b => ?_, ?_,
    resultOnly_next (s := s.countDraw) x _, resultOnly_last (s := s.countDraw) x _⟩
  · rw [getLsbD_setReg_get, BitVec.getLsbD_and]
  · rintro rfl
    rw [setReg_get, if_pos rfl]
    exact BitVec.and_zero

/-- Settles O38: three writes of one byte, and the fall through after each. -/
theorem timerInstructionsMoveOneByte : Obligations.TimerInstructionsMoveOneByte := by
  intro s x
  refine ⟨s.v.set x.val s.dt, fun r => setReg_get s x r s.dt, fun h => ?_, fun h => ?_⟩
  · exact ⟨advance_next (s := s.setDT (s.reg x)) h, advance_next (s := s.setST (s.reg x)) h, resultOnly_next x s.dt h⟩
  · exact ⟨advance_last (s := s.setDT (s.reg x)) h, advance_last (s := s.setST (s.reg x)) h, resultOnly_last x s.dt h⟩

/-- Settles O45: the mode is written and nothing else, and the fall through follows. -/
theorem modeInstructionsKeepThePixels : Obligations.ModeInstructionsKeepThePixels := by
  intro s
  refine ⟨fun h => ?_, fun h => ?_⟩
  · exact ⟨advance_next (s := s.setMode .normal) h, advance_next (s := s.setMode .extended) h⟩
  · exact ⟨advance_last (s := s.setMode .normal) h, advance_last (s := s.setMode .extended) h⟩

/-! ### The address register -/

theorem writeI_inside {t : Nat} (s : State) (h : t < 0x1000) : writeI t s = .done () (s.setI (BitVec.ofNat 12 t)) :=
  if_neg (by omega)

theorem writeI_beyond {t : Nat} (s : State) (h : 0x1000 ≤ t) : writeI t s = .raised (.outOfBoundsAddress t) s := if_pos h

/-- A write of `I` and the fall through after it (R26, R103, R105). -/
theorem writeI_thenAdvance {t : Nat} (s : State) (h : t < 0x1000) :
    (s.canFallThrough → (writeI t s).thenAdvance = .next { s with i := BitVec.ofNat 12 t, pc := s.pc + 2 }) ∧
    (s.pc = 0xFFE → (writeI t s).thenAdvance =
      .next { s with i := BitVec.ofNat 12 t, fault := some (.outOfBoundsAddress 0x1000) }) := by
  rw [writeI_inside s h]
  exact ⟨fun hfall => advance_next (s := s.setI _) hfall, fun hlast => advance_last (s := s.setI _) hlast⟩

/-- Settles O33: both are a write of `I`, and an address from the instruction is always in range. -/
theorem indexWritesStayInRange : Obligations.IndexWritesStayInRange := by
  rintro s nnn x sum rfl
  obtain ⟨hnext, hlast⟩ := writeI_thenAdvance s nnn.isLt
  rw [BitVec.ofNat_toNat, BitVec.setWidth_eq] at hnext hlast
  refine ⟨hnext, hlast, fun h => (writeI_thenAdvance s h).1, fun h => (writeI_thenAdvance s h).2, fun h => ?_⟩
  exact congrArg Res.thenAdvance (writeI_beyond s h)

theorem exec_ldFVx_digit {s : State} {x : Reg} (h : (s.reg x).toNat ≤ 0xF) :
    exec (.ldFVx x) s = (writeI (s.fontBase.toNat + 5 * (s.reg x).toNat) s).thenAdvance :=
  if_neg (Nat.not_lt.mpr h)

/-- Settles O34: a digit's glyph lies below 0x200 with the font, so the write of `I` is in range. -/
theorem fontPointerIsTheGlyphOfTheDigit : Obligations.FontPointerIsTheGlyphOfTheDigit := by
  rintro s x d rfl hfont
  refine ⟨fun hd => ?_, fun hd => ?_, fun hd => if_pos hd⟩
  · rw [exec_ldFVx_digit hd]
    exact (writeI_thenAdvance s (by omega)).1
  · rw [exec_ldFVx_digit hd]
    exact (writeI_thenAdvance s (by omega)).2

/-! ### Stores and loads -/

/-- An instruction that ends in stores at `I`: what it leaves, and when it raises (R106, R170). -/
theorem storeBytes_thenAdvance (bs : List Byte) (s : State) :
    (s.i.toNat + bs.length ≤ 0x1000 → s.canFallThrough → (storeBytes s.i.toNat bs s).thenAdvance =
      .next { s with mem := Memory.writeBytes s.mem s.i.toNat bs, pc := s.pc + 2 }) ∧
    (s.i.toNat + bs.length ≤ 0x1000 → s.pc = 0xFFE → (storeBytes s.i.toNat bs s).thenAdvance =
      .next { s with mem := Memory.writeBytes s.mem s.i.toNat bs, fault := some (.outOfBoundsAddress 0x1000) }) ∧
    (0x1000 < s.i.toNat + bs.length → (storeBytes s.i.toNat bs s).thenAdvance =
      .next { s with mem := Memory.writeBytes s.mem s.i.toNat bs, fault := some (.outOfBoundsAddress 0x1000) }) := by
  rw [storeBytes_eq bs _ s (by omega)]
  refine ⟨fun hin hfall => ?_, fun hin hlast => ?_, fun hout => ?_⟩
  · rw [if_pos hin]
    exact advance_next (s := s.setMem _) hfall
  · rw [if_pos hin]
    exact advance_last (s := s.setMem _) hlast
  · rw [if_neg (by omega)]
    rfl

/-- The digits of a byte where they are stored. -/
theorem bcd_toNat (m : Memory) {i : Nat} (b : Byte) (hwf : Memory.wf m = true) (hi : i < 0x1000) (a : Nat) :
    (Memory.read (Memory.writeBytes m i (bcdDigits b)) a).toNat =
      if a = i then b.toNat / 100
      else if a = i + 1 ∧ a < 0x1000 then b.toNat / 10 % 10
      else if a = i + 2 ∧ a < 0x1000 then b.toNat % 10
      else (Memory.read m a).toNat := by
  have hb := b.isLt
  have hlen : (bcdDigits b).length = 3 := rfl
  rw [Memory.read_writeBytes _ _ _ hwf, hlen, Memory.size]
  by_cases h0 : a = i
  · rw [if_pos (by omega), if_pos h0, h0, Nat.sub_self]
    exact Nat.mod_eq_of_lt (by omega)
  by_cases h1 : a = i + 1 ∧ a < 0x1000
  · rw [if_pos (by omega), if_neg h0, if_pos h1, h1.1, Nat.add_sub_cancel_left]
    exact Nat.mod_eq_of_lt (by omega)
  by_cases h2 : a = i + 2 ∧ a < 0x1000
  · rw [if_pos (by omega), if_neg h0, if_neg h1, if_pos h2, h2.1, Nat.add_sub_cancel_left]
    exact Nat.mod_eq_of_lt (by omega)
  · rw [if_neg (by omega), if_neg h0, if_neg h1, if_neg h2]

/-- Settles O35: three stores at `I`, one for each digit. -/
theorem bcdStoresThreeDigits : Obligations.BcdStoresThreeDigits := by
  rintro s x b i rfl rfl hwf
  obtain ⟨hnext, hlast, hout⟩ := storeBytes_thenAdvance (bcdDigits (s.reg x)) s
  have hlen : (bcdDigits (s.reg x)).length = 3 := rfl
  exact ⟨Memory.writeBytes s.mem s.i.toNat (bcdDigits (s.reg x)), bcd_toNat s.mem (s.reg x) hwf s.i.isLt,
    fun hin => hnext (by omega), fun hin => hlast (by omega), fun hend => hout (by omega)⟩

theorem length_regsUpTo_map (s : State) (x : Reg) : ((regsUpTo x).map s.reg).length = x.val + 1 := by
  rw [List.length_map, regsUpTo_length]

/-- The bytes of a block store where they are stored. -/
theorem read_blockStore {s : State} (x k : Reg) (hwf : Memory.wf s.mem = true) (hk : k.val ≤ x.val)
    (hin : s.i.toNat + k.val < 0x1000) :
    Memory.read (Memory.writeBytes s.mem s.i.toNat ((regsUpTo x).map s.reg)) (s.i.toNat + k.val) = s.reg k := by
  have hj : k.val < ((regsUpTo x).map s.reg).length := by rw [length_regsUpTo_map]; omega
  rw [Memory.read_writeBytes _ _ _ hwf, if_pos ⟨by omega, by omega, hin⟩, Nat.add_sub_cancel_left,
    List.getD_eq_getElem _ _ hj, List.getElem_map, regsUpTo_getElem]

/-- Settles O36: a run of stores at `I`, one for each register of the block. -/
theorem blockStoreWritesRegistersInOrder : Obligations.BlockStoreWritesRegistersInOrder := by
  rintro s x i rfl hwf
  obtain ⟨hnext, hlast, hout⟩ := storeBytes_thenAdvance ((regsUpTo x).map s.reg) s
  have hlen := length_regsUpTo_map s x
  refine ⟨Memory.writeBytes s.mem s.i.toNat ((regsUpTo x).map s.reg), fun k hk hin => read_blockStore x k hwf hk hin,
    fun a ha => ?_, fun hin => hnext (by omega), fun hin => hlast (by omega), fun hend => hout (by omega)⟩
  by_contra hne
  obtain ⟨hlo, hhi, hsize⟩ := writeBytes_changed hwf hne
  omega

/-- Settles O58: the two bytes of the next fetch are the first two of the block. -/
theorem storeIsSeenByTheNextFetch : Obligations.StoreIsSeenByTheNextFetch := by
  intro s x hwf hx heven hi hin
  have hpc : (s.pc + 2).toNat = s.i.toNat := by
    rw [BitVec.toNat_add, hi]
    show (s.pc.toNat + 2) % 4096 = _
    omega
  have hlen := length_regsUpTo_map s x
  refine ⟨_, (storeBytes_thenAdvance _ s).1 (by omega) ⟨heven, by omega⟩, rfl, ?_⟩
  refine (fetch_eq (show (s.pc + 2).toNat + 1 < 0x1000 by omega)).trans ?_
  simp only [hpc]
  have h0 := read_blockStore x 0 hwf (Nat.zero_le _) (show s.i.toNat + 0 < 0x1000 by omega)
  have h1 := read_blockStore x 1 hwf hx (show s.i.toNat + 1 < 0x1000 by omega)
  exact congrArg₂ (fun a b : Byte => Except.ok (a ++ b : Word)) h0 h1

/-- The registers after a block load: the bytes of the addresses that exist (R176). -/
theorem reg_blockLoad (s : State) (x r : Reg) :
    (s.loadedFrom s.i.toNat (regsUpTo x)).v[r.val] =
      if r.val ≤ x.val ∧ s.i.toNat + r.val < 0x1000 then s.byteAt (s.i.toNat + r.val) else s.reg r := by
  by_cases hr : r.val ≤ x.val
  · have hj : r.val < (regsUpTo x).length := by rw [regsUpTo_length]; omega
    have hload := State.loadedFrom_reg (regsUpTo x) s.i.toNat s r.val hj (regsUpTo_nodup x)
    rw [regsUpTo_getElem] at hload
    simp only [hr, true_and]
    exact hload
  · rw [if_neg fun h => hr h.1]
    exact State.loadedFrom_reg_of_not_mem _ _ s r fun hmem => hr ((mem_regsUpTo x r).mp hmem)

/-- Settles O37: a run of loads from `I`, one for each register of the block, which writes nothing but registers. -/
theorem blockLoadReadsMemoryInOrder : Obligations.BlockLoadReadsMemoryInOrder := by
  rintro s x i rfl
  have hexec : exec (.ldVxMem x) s = (loadRegs s.i.toNat (regsUpTo x) s).thenAdvance := rfl
  rw [hexec, loadRegs_eq _ _ s (by omega), regsUpTo_length, State.loadedFrom_frame]
  refine ⟨(s.loadedFrom s.i.toNat (regsUpTo x)).v, reg_blockLoad s x, fun hin hfall => ?_, fun hin hlast => ?_,
    fun hout => ?_⟩
  · rw [if_pos (by omega)]
    exact advance_next (by exact hfall)
  · rw [if_pos (by omega)]
    exact advance_last (by exact hlast)
  · rw [if_neg (by omega)]
    rfl

end Sys2Proof.Machine

namespace Sys2Proof.Machine

/-! ### `DRW` -/

/-- Whether `DRW Vx,Vy,n` inverts the pixel: a row of the sprite whose bytes exist covers it (R212, R218, R222). -/
def State.drawCovers (s : State) (x y : Reg) (n : Nibble) (px py : Nat) : Bool :=
  s.spriteCovers (isWide s.mode n) (min (spriteRows s.mode n) (s.rowsInMemory (isWide s.mode n)))
    (s.reg x).toNat (s.reg y).toNat px py

/-- The whole sprite of the draw exists in memory. -/
def State.spriteFits (s : State) (n : Nibble) : Prop :=
  spriteRows s.mode n ≤ s.rowsInMemory (isWide s.mode n)

/-- Everything `DRW` can do: it inverts the pixels it covers, and either writes the flag and falls through or raises. -/
theorem exec_drwVxVyN (s : State) (x y : Reg) (n : Nibble) : ∃ (d : Display) (hit : Bool),
    (∀ px py, d.pixel px py = (s.display.pixel px py ^^ s.drawCovers x y n px py)) ∧
    (hit = true ↔ ∃ px py, s.display.pixel px py = true ∧ s.drawCovers x y n px py = true) ∧
    (s.spriteFits n → exec (.drwVxVyN x y n) s = resultOnly VF (flagByte hit) (s.setDisplay d)) ∧
    (¬ s.spriteFits n → exec (.drwVxVyN x y n) s = raise (.outOfBoundsAddress 0x1000) (s.setDisplay d)) := by
  obtain ⟨d, hit, hpixel, hhit, hrows⟩ := drawRows_spec (isWide s.mode n) (s.reg x).toNat (s.reg y).toNat
    (spriteRows s.mode n) 0 false s (by have := (spriteRows_le s.mode n).2; omega) (Nat.zero_le _)
  simp only [Nat.sub_zero, State.coveredByRows_zero, Nat.zero_add, Bool.false_eq_true, false_or] at hpixel hhit hrows
  refine ⟨d, hit, hpixel, hhit, fun hfits => ?_, fun hfits => ?_⟩
  · simp only [exec, execDrwVxVyN, hrows.trans (if_pos hfits)]
  · simp only [exec, execDrwVxVyN, hrows.trans (if_neg hfits)]

/-- What the statements on `DRW` say of the sprite, in the terms of the model. -/
theorem spriteFits_iff (s : State) (n : Nibble) :
    s.spriteFits n ↔ s.i.toNat + spriteRows s.mode n * rowBytes (isWide s.mode n) ≤ 0x1000 :=
  le_rowsInMemory s _ _

theorem drawCovers_of_fits {s : State} (x y : Reg) {n : Nibble} (h : s.spriteFits n) (px py : Nat) :
    s.drawCovers x y n px py =
      s.spriteCovers (isWide s.mode n) (spriteRows s.mode n) (s.reg x).toNat (s.reg y).toNat px py := by
  rw [State.drawCovers, Nat.min_eq_left h]

theorem drawCovers_of_not_fits {s : State} (x y : Reg) {n : Nibble} (h : ¬ s.spriteFits n) (px py : Nat) :
    s.drawCovers x y n px py =
      s.spriteCovers (isWide s.mode n) (s.rowsInMemory (isWide s.mode n)) (s.reg x).toNat (s.reg y).toNat px py := by
  rw [State.drawCovers, Nat.min_eq_right (Nat.le_of_not_le h)]

theorem flagByte_of_hit {hit : Bool} (h : hit = true) : flagByte hit = 1 := if_pos h

theorem flagByte_of_no_hit {hit : Bool} (h : ¬ hit = true) : flagByte hit = 0 := if_neg h

/-- Settles O46: with the whole sprite in memory the draw covers what the sprite covers, and the flag tells of a collision. -/
theorem drawXorsTheSpriteAndReportsCollision : Obligations.DrawXorsTheSpriteAndReportsCollision := by
  rintro s x y n wide rows x0 y0 hwide hrows rfl rfl hend
  obtain rfl : wide = isWide s.mode n := hwide.trans (isWide_eq _ _).symm
  obtain rfl : rows = spriteRows s.mode n := hrows
  have hfits := (spriteFits_iff s n).mpr hend
  obtain ⟨d, hit, hpixel, hhit, hexec, -⟩ := exec_drwVxVyN s x y n
  simp only [drawCovers_of_fits x y hfits] at hpixel hhit
  have hVF : (s.v.set VF.val (flagByte hit))[VF.val] = flagByte hit := (setReg_get s VF VF _).trans (if_pos rfl)
  refine ⟨d, s.v.set VF.val (flagByte hit), hpixel, fun r hr => ?_, fun hcollision => ?_, fun hfree => ?_, fun hfall => ?_,
    fun hlast => ?_⟩
  · rw [setReg_get, if_neg hr]
  · rw [hVF, flagByte_of_hit (hhit.mpr hcollision)]
  · rw [hVF, flagByte_of_no_hit fun h => ?_]
    obtain ⟨px, py, hset, hcovered⟩ := hhit.mp h
    exact absurd hcovered (by simp [hfree px py hset])
  · exact (hexec hfits).trans (resultOnly_next (s := s.setDisplay d) VF _ hfall)
  · exact (hexec hfits).trans (resultOnly_last (s := s.setDisplay d) VF _ hlast)

/-- Settles O47: the draw covers what the existing rows cover, and then raises. -/
theorem drawPastTheEndStopsAtTheMissingRow : Obligations.DrawPastTheEndStopsAtTheMissingRow := by
  rintro s x y n wide rows x0 y0 hwide hrows rfl rfl hend
  obtain rfl : wide = isWide s.mode n := hwide.trans (isWide_eq _ _).symm
  obtain rfl : rows = spriteRows s.mode n := hrows
  have hfits : ¬ s.spriteFits n := fun h => Nat.not_lt.mpr ((spriteFits_iff s n).mp h) hend
  obtain ⟨d, hit, hpixel, -, -, hexec⟩ := exec_drwVxVyN s x y n
  simp only [drawCovers_of_not_fits x y hfits] at hpixel
  exact ⟨d, hpixel, hexec hfits⟩

/-- What a draw covers depends on the mode, memory, `I` and the two coordinates modulo the active size (R213). -/
theorem drawCovers_congr {s u : State} (x y : Reg) (n : Nibble) (hmode : u.mode = s.mode) (hmem : u.mem = s.mem)
    (hi : u.i = s.i) (hx : (u.reg x).toNat % s.mode.width = (s.reg x).toNat % s.mode.width)
    (hy : (u.reg y).toNat % s.mode.height = (s.reg y).toNat % s.mode.height) :
    u.drawCovers x y n = s.drawCovers x y n := by
  funext px py
  simp only [State.drawCovers, State.spriteCovers, State.spriteBit, State.byteAt, State.rowsInMemory, wrapDistance,
    hmode, hmem, hi, hx, hy]; rfl

theorem spriteFits_congr {s u : State} (n : Nibble) (hmode : u.mode = s.mode) (hi : u.i = s.i) :
    u.spriteFits n ↔ s.spriteFits n := by
  simp only [State.spriteFits, State.rowsInMemory, hmode, hi]

/-- A draw that records no fault had its whole sprite in memory. -/
theorem spriteFits_of_no_fault {s t : State} {x y : Reg} {n : Nibble} (hexec : exec (.drwVxVyN x y n) s = .next t)
    (hfault : t.fault = none) : s.spriteFits n := by
  by_contra hfits
  obtain ⟨d, hit, -, -, -, hraise⟩ := exec_drwVxVyN s x y n
  rw [hraise hfits] at hexec
  injection hexec with ht
  rw [← ht] at hfault
  cases hfault

/-- A draw with its whole sprite in memory, at an instruction that falls through. -/
theorem exec_drwVxVyN_next {s : State} (x y : Reg) {n : Nibble} (hfits : s.spriteFits n) (hfall : s.canFallThrough) :
    ∃ t, exec (.drwVxVyN x y n) s = .next t ∧
      ∀ px py, t.display.pixel px py = (s.display.pixel px py ^^ s.drawCovers x y n px py) := by
  obtain ⟨d, hit, hpixel, -, hexec, -⟩ := exec_drwVxVyN s x y n
  exact ⟨_, (hexec hfits).trans (resultOnly_next (s := s.setDisplay d) VF _ hfall), hpixel⟩

/-- Settles O48: both draws invert the same pixels. -/
theorem drawingTwiceRestoresThePixels : Obligations.DrawingTwiceRestoresThePixels := by
  intro s t u x y n hfall _ hexec hnofault hdisplay hmem hmode hi hx hy hfall'
  have hfits := spriteFits_of_no_fault hexec hnofault
  have hcovers := drawCovers_congr (u := u) (s := s) x y n hmode hmem hi (by rw [hx]) (by rw [hy])
  obtain ⟨t', ht', hfirst⟩ := exec_drwVxVyN_next x y hfits hfall
  obtain rfl : t = t' := by rw [hexec] at ht'; injection ht'
  obtain ⟨r, hr, hsecond⟩ := exec_drwVxVyN_next x y ((spriteFits_congr n hmode hi).mpr hfits) hfall'
  refine ⟨r, hr, Display.ext_of_pixel fun px py _ _ => ?_⟩
  rw [hsecond, hcovers, hdisplay, hfirst, Bool.xor_assoc, Bool.xor_self, Bool.xor_false]

/-- Settles O49: both draws invert the same pixels, so they meet the same collisions. -/
theorem drawCoordinatesWrap : Obligations.DrawCoordinatesWrap := by
  rintro s t v' x y n hfall rfl hx hy
  have hcovers := drawCovers_congr (u := { s with v := v' }) (s := s) x y n rfl rfl rfl hx hy
  have hfits' := spriteFits_congr (u := { s with v := v' }) (s := s) n rfl rfl
  obtain ⟨d, hit, hpixel, hhit, hdone, hraise⟩ := exec_drwVxVyN s x y n
  obtain ⟨d', hit', hpixel', hhit', hdone', hraise'⟩ := exec_drwVxVyN { s with v := v' } x y n
  rw [hcovers] at hpixel' hhit'
  obtain rfl : d' = d := Display.ext_of_pixel fun px py _ _ => (hpixel' px py).trans (hpixel px py).symm
  obtain rfl : hit' = hit := Bool.eq_iff_iff.mpr (hhit'.trans hhit.symm)
  by_cases hfits : s.spriteFits n
  · refine ⟨_, _, (hdone hfits).trans (resultOnly_next (s := s.setDisplay d') VF _ hfall),
      (hdone' (hfits'.mpr hfits)).trans (resultOnly_next (s := { s with v := v', display := d' }) VF _ hfall), rfl, rfl,
      fun _ => ?_⟩
    exact (setReg_get { s with v := v' } VF VF _).trans (setReg_get s VF VF _).symm
  · exact ⟨_, _, hraise hfits, hraise' fun h => hfits (hfits'.mp h), rfl, rfl, fun h => absurd h (Option.some_ne_none _)⟩

/-! ### Host reads -/

theorem getPixel_inside {s : State} {px py : Nat} (h : px < s.mode.width ∧ py < s.mode.height) :
    s.getPixel px py = some (s.display.pixel px py) := if_pos h

theorem getPixel_outside {s : State} {px py : Nat} (h : ¬ (px < s.mode.width ∧ py < s.mode.height)) :
    s.getPixel px py = none := if_neg h

theorem mem_setPixels (s : State) (px py : Nat) :
    (px, py) ∈ s.setPixels ↔ (px < s.mode.width ∧ py < s.mode.height) ∧ s.display.pixel px py = true := by
  simp only [State.setPixels, List.mem_flatMap, List.mem_map, List.mem_filter, List.mem_range, Prod.mk.injEq]
  constructor
  · rintro ⟨y, hy, x, ⟨hx, hset⟩, rfl, rfl⟩
    exact ⟨⟨hx, hy⟩, hset⟩
  · rintro ⟨⟨hx, hy⟩, hset⟩
    exact ⟨py, hy, px, ⟨hx, hset⟩, rfl, rfl⟩

/-- Settles O50: the region of the mode, and the two reads by whether the pixel lies in it. -/
theorem hostReadsSeeTheActiveRegion : Obligations.HostReadsSeeTheActiveRegion := by
  intro s px py
  refine ⟨fun h => ?_, fun h => ?_, fun hx hy => getPixel_inside ⟨hx, hy⟩, getPixel_outside, ?_⟩
  · rw [State.resolution, h]
    rfl
  · rw [State.resolution, h]
    rfl
  · rw [mem_setPixels]
    by_cases h : px < s.mode.width ∧ py < s.mode.height
    · rw [getPixel_inside h, Option.some.injEq, and_iff_right h]
    · rw [getPixel_outside h]
      simp [h]

end Sys2Proof.Machine

namespace Sys2Proof.Machine

/-! ### The causes of faults (60_exceptions.md R241 to R245) -/

/-- Why the instruction `i`, executed in the state `s`, leaves the state `t` with the fault recorded: one constructor for each way. -/
inductive FaultCause (i : Instr) (s t : State) : FaultKind → Prop
  | lastWord (hpc : s.pc = 0xFFE) (hd : s.stride i = some 2) : FaultCause i s t (.outOfBoundsAddress 0x1000)
  | lastSkip (hpc : s.pc = 0xFFC) (hd : s.stride i = some 4) : FaultCause i s t (.outOfBoundsAddress 0x1000)
  | skipBeyond (hpc : s.pc = 0xFFE) (hd : s.stride i = some 4) : FaultCause i s t (.outOfBoundsAddress 0x1002)
  | jump (nnn : Addr) (hi : i = .jpV0Nnn nnn) (hsum : 0x1000 ≤ nnn.toNat + (s.reg 0).toNat)
      (ht : t = s.setFault (some (.outOfBoundsAddress (nnn.toNat + (s.reg 0).toNat)))) :
      FaultCause i s t (.outOfBoundsAddress (nnn.toNat + (s.reg 0).toNat))
  | index (x : Reg) (hi : i = .addIVx x) (hsum : 0x1000 ≤ s.i.toNat + (s.reg x).toNat)
      (ht : t = s.setFault (some (.outOfBoundsAddress (s.i.toNat + (s.reg x).toNat)))) :
      FaultCause i s t (.outOfBoundsAddress (s.i.toNat + (s.reg x).toNat))
  | ret (j : Fin 16) (hi : i = .ret) (hsp : s.sp.val = j.val + 1) (hslot : (s.stack[j.val]).toNat = 0x1000) :
      FaultCause i s t (.outOfBoundsAddress 0x1000)
  | bcd (x : Reg) (hi : i = .ldBVx x) (hend : 0x1000 ≤ s.i.toNat + 2) : FaultCause i s t (.outOfBoundsAddress 0x1000)
  | block (x : Reg) (hi : i = .ldMemVx x ∨ i = .ldVxMem x) (hend : 0x1000 ≤ s.i.toNat + x.val) :
      FaultCause i s t (.outOfBoundsAddress 0x1000)
  | sprite (x y : Reg) (n : Nibble) (hi : i = .drwVxVyN x y n) (hend : ¬ s.spriteFits n) :
      FaultCause i s t (.outOfBoundsAddress 0x1000)
  | overflow (nnn : Addr) (hi : i = .callNnn nnn) (hsp : s.sp = 16) (ht : t = s.setFault (some .stackOverflow)) :
      FaultCause i s t .stackOverflow
  | underflow (hi : i = .ret) (hsp : s.sp = 0) (ht : t = s.setFault (some .stackUnderflow)) :
      FaultCause i s t .stackUnderflow
  | oddJump (nnn : Addr) (hi : i = .jpNnn nnn) (hodd : nnn.toNat % 2 = 1)
      (ht : t = s.setFault (some (.unmodelled .oddPC))) : FaultCause i s t (.unmodelled .oddPC)
  | oddCall (nnn : Addr) (hi : i = .callNnn nnn) (hodd : nnn.toNat % 2 = 1) (hsp : s.sp ≠ 16)
      (ht : t = (s.setStack t.stack t.sp).setFault (some (.unmodelled .oddPC))) : FaultCause i s t (.unmodelled .oddPC)
  | oddSum (nnn : Addr) (hi : i = .jpV0Nnn nnn) (hsum : nnn.toNat + (s.reg 0).toNat < 0x1000)
      (hodd : (nnn.toNat + (s.reg 0).toNat) % 2 = 1) (ht : t = s.setFault (some (.unmodelled .oddPC))) :
      FaultCause i s t (.unmodelled .oddPC)
  | digit (x : Reg) (hi : i = .ldFVx x) (hbig : 0xF < (s.reg x).toNat)
      (ht : t = s.setFault (some (.unmodelled .fontDigit))) : FaultCause i s t (.unmodelled .fontDigit)
  | key (x : Reg) (hi : i = .skpVx x ∨ i = .sknpVx x) (hbig : 0xF < (s.reg x).toNat)
      (ht : t = s.setFault (some (.unmodelled .keyIndex))) : FaultCause i s t (.unmodelled .keyIndex)

/-- What a raise leaves. -/
theorem raise_fault {k k' : FaultKind} {u t : State} (h : raise k' u = .next t) (ht : t.fault = some k) :
    k = k' ∧ t = u.setFault (some k') := by
  injection h with h
  subst h
  injection ht with ht
  exact ⟨ht.symm, rfl⟩

/-- The two faults of a PC update (R104). -/
theorem updatePC_fault {n : Nat} {k : FaultKind} {u t : State} (hu : u.fault = none) (h : updatePC n u = .next t)
    (ht : t.fault = some k) :
    (0x1000 ≤ n ∧ k = .outOfBoundsAddress n ∧ t = u.setFault (some (.outOfBoundsAddress n))) ∨
    (n < 0x1000 ∧ n % 2 = 1 ∧ k = .unmodelled .oddPC ∧ t = u.setFault (some (.unmodelled .oddPC))) := by
  rcases updatePC_cases n u with ⟨hn, he⟩ | ⟨hn, hodd, he⟩ | ⟨-, -, he⟩
  · exact .inl ⟨hn, raise_fault (he.symm.trans h) ht⟩
  · exact .inr ⟨hn, hodd, raise_fault (he.symm.trans h) ht⟩
  · rw [he] at h
    injection h with h
    rw [← h, State.setPC_fault, hu] at ht
    cases ht

section
variable {i : Instr} {s t u : State} {k : FaultKind}

/-- An instruction that goes on by its stride faults only at the end of memory. -/
theorem faultCause_of_stride {d : Nat} (heven : s.pc.toNat % 2 = 0) (hd : s.stride i = some d)
    (hd' : d = 0 ∨ d = 2 ∨ d = 4) (hu : u.fault = none) (h : updatePC (s.pc.toNat + d) u = .next t)
    (ht : t.fault = some k) : FaultCause i s t k := by
  have hlt := s.pc.isLt
  rcases updatePC_fault hu h ht with ⟨hn, rfl, -⟩ | ⟨-, hodd, -, -⟩
  · obtain ⟨rfl, hpc⟩ | ⟨rfl, hpc⟩ | ⟨rfl, hpc⟩ :
        d = 2 ∧ s.pc.toNat = 0xFFE ∨ d = 4 ∧ s.pc.toNat = 0xFFC ∨ d = 4 ∧ s.pc.toNat = 0xFFE := by omega
    · rw [hpc]
      exact .lastWord (BitVec.eq_of_toNat_eq hpc) hd
    · rw [hpc]
      exact .lastSkip (BitVec.eq_of_toNat_eq hpc) hd
    · rw [hpc]
      exact .skipBeyond (BitVec.eq_of_toNat_eq hpc) hd
  · omega

theorem faultCause_of_advance (h : advance u = .next t) (ht : t.fault = some k) (heven : s.pc.toNat % 2 = 0)
    (hd : s.stride i = some 2) (hpc : u.pc = s.pc) (hu : u.fault = none) : FaultCause i s t k :=
  faultCause_of_stride heven hd (.inr (.inl rfl)) hu (by rwa [advance, hpc] at h) ht

theorem faultCause_of_skip {taken : Bool} (heven : s.pc.toNat % 2 = 0)
    (hd : s.stride i = some (if taken = true then 4 else 2)) (hs : s.fault = none) (h : skipIf taken s = .next t)
    (ht : t.fault = some k) : FaultCause i s t k :=
  faultCause_of_stride heven hd (by cases taken <;> simp) hs h ht

/-- An instruction that ends in stores at `I` faults there or when it falls through. -/
theorem faultCause_of_stores (bs : List Byte) (heven : s.pc.toNat % 2 = 0) (hd : s.stride i = some 2)
    (hs : s.fault = none) (h : (storeBytes s.i.toNat bs s).thenAdvance = .next t) (ht : t.fault = some k)
    (hcause : 0x1000 < s.i.toNat + bs.length → FaultCause i s t (.outOfBoundsAddress 0x1000)) : FaultCause i s t k := by
  rw [storeBytes_eq bs _ s (by omega)] at h
  split at h
  · exact faultCause_of_advance h ht heven hd rfl hs
  · next hend =>
    obtain ⟨rfl, -⟩ := raise_fault h ht
    exact hcause (by omega)

end

/-- Each fault of an instruction has one of the causes. -/
theorem exec_faultCause {i : Instr} {s t : State} {k : FaultKind} (hinv : s.Inv) (hs : s.fault = none)
    (h : exec i s = .next t) (ht : t.fault = some k) : FaultCause i s t k := by
  obtain ⟨heven, hstack, -, hfont⟩ := hinv
  obtain ⟨hpc, hfault⟩ := effect_pc_fault i s
  have hlt := s.i.isLt
  cases i with
  | cls | low | high | ldVxKk | addVxKk | ldVxVy | orVxVy | andVxVy | xorVxVy | addVxVy | subVxVy | shrVxVy
  | subnVxVy | shlVxVy | rndVxKk | ldVxDt | ldDtVx | ldStVx =>
    exact faultCause_of_advance h ht heven rfl hpc (hfault.trans hs)
  | seVxKk | seVxVy => exact faultCause_of_skip heven (by simp [State.stride]) hs h ht
  | sneVxKk | sneVxVy => exact faultCause_of_skip heven (by simp [State.stride]) hs h ht
  | ldINnn nnn =>
    rw [exec, execLdINnn, writeI_inside s nnn.isLt] at h
    exact faultCause_of_advance h ht heven rfl rfl hs
  | addIVx x =>
    rw [exec, execAddIVx] at h
    rcases writeI_cases (s.i.toNat + (s.reg x).toNat) s with ⟨hsum, he⟩ | ⟨-, he⟩ <;> rw [he] at h
    · obtain ⟨rfl, ht'⟩ := raise_fault h ht
      exact .index x rfl hsum ht'
    · exact faultCause_of_advance h ht heven rfl rfl hs
  | ldFVx x =>
    by_cases hbig : 0xF < (s.reg x).toNat
    · rw [exec, execLdFVx, if_pos hbig] at h
      obtain ⟨rfl, ht'⟩ := raise_fault h ht
      exact .digit x rfl hbig ht'
    · rw [exec_ldFVx_digit (Nat.le_of_not_lt hbig), writeI_inside s (by omega)] at h
      exact faultCause_of_advance h ht heven rfl rfl hs
  | ldBVx x =>
    exact faultCause_of_stores (bcdDigits (s.reg x)) heven rfl hs h ht fun hend =>
      .bcd x rfl (Nat.le_of_lt_succ hend)
  | ldMemVx x =>
    refine faultCause_of_stores ((regsUpTo x).map s.reg) heven rfl hs h ht fun hend => .block x (.inl rfl) ?_
    rw [length_regsUpTo_map] at hend
    omega
  | ldVxMem x =>
    rw [exec, execLdVxMem, loadRegs_eq _ _ s (by omega), regsUpTo_length, State.loadedFrom_frame] at h
    split at h
    · exact faultCause_of_advance h ht heven rfl rfl hs
    · next hend =>
      obtain ⟨rfl, -⟩ := raise_fault h ht
      exact .block x (.inr rfl) (by omega)
  | drwVxVyN x y n =>
    obtain ⟨d, hit, -, -, hdone, hraise⟩ := exec_drwVxVyN s x y n
    by_cases hfits : s.spriteFits n
    · rw [hdone hfits] at h
      exact faultCause_of_advance h ht heven rfl rfl hs
    · rw [hraise hfits] at h
      obtain ⟨rfl, -⟩ := raise_fault h ht
      exact .sprite x y n rfl hfits
  | jpNnn nnn =>
    have hnnn := nnn.isLt
    rcases updatePC_fault hs h ht with ⟨hbeyond, -, -⟩ | ⟨-, hodd, rfl, ht'⟩
    · omega
    · exact .oddJump nnn rfl hodd ht'
  | jpV0Nnn nnn =>
    rcases updatePC_fault hs h ht with ⟨hsum, rfl, ht'⟩ | ⟨hsum, hodd, rfl, ht'⟩
    · exact .jump nnn rfl hsum ht'
    · exact .oddSum nnn rfl hsum hodd ht'
  | callNnn nnn =>
    have hnnn := nnn.isLt
    by_cases hfull : s.sp = 16
    · rw [exec_callNnn_full nnn hfull] at h
      obtain ⟨rfl, ht'⟩ := raise_fault h ht
      exact .overflow nnn rfl hfull ht'
    · obtain ⟨j, hj⟩ := exists_slot_of_not_full hfull
      rw [exec_callNnn_at nnn hj] at h
      rcases updatePC_fault (by exact hs) h ht with ⟨hbeyond, -, -⟩ | ⟨-, hodd, rfl, rfl⟩
      · omega
      · exact .oddCall nnn rfl hodd hfull rfl
  | ret =>
    by_cases hempty : s.sp = 0
    · rw [exec_ret_empty hempty] at h
      obtain ⟨rfl, ht'⟩ := raise_fault h ht
      exact .underflow rfl hempty ht'
    · obtain ⟨j, hj⟩ := exists_slot_of_not_empty hempty
      obtain ⟨hle, hslot⟩ := hstack j
      rw [exec_ret_used hj] at h
      rcases updatePC_fault (by exact hs) h ht with ⟨hbeyond, rfl, -⟩ | ⟨-, hodd, -, -⟩
      · have hend : (s.stack[j.val]).toNat = 0x1000 := by omega
        rw [hend]
        exact .ret j rfl hj hend
      · omega
  | skpVx x =>
    rcases keyOperand_cases x s with ⟨hbig, he⟩ | ⟨key, hkey, he⟩
    · simp only [exec, execSkpVx, he] at h
      obtain ⟨rfl, ht'⟩ := raise_fault h ht
      exact .key x (.inl rfl) hbig ht'
    · simp only [exec, execSkpVx, he] at h
      exact faultCause_of_skip heven (by simp only [State.stride, namedKey_pressed hkey]) hs h ht
  | sknpVx x =>
    rcases keyOperand_cases x s with ⟨hbig, he⟩ | ⟨key, hkey, he⟩
    · simp only [exec, execSknpVx, he] at h
      obtain ⟨rfl, ht'⟩ := raise_fault h ht
      exact .key x (.inr rfl) hbig ht'
    · simp only [exec, execSknpVx, he] at h
      exact faultCause_of_skip heven (by rw [State.stride]; simp only [namedKey_pressed hkey]; cases s.key key <;> rfl)
        hs h ht
  | ldVxK x =>
    cases hsearch : lowestPressed s with
    | some key =>
      have hpressed : ∃ k : Key, s.key k = true := ⟨key, List.find?_some (p := fun k => s.key k) hsearch⟩
      simp only [exec, execLdVxK, hsearch] at h
      exact faultCause_of_advance h ht heven (by rw [State.stride, if_pos hpressed]) rfl hs
    | none =>
      have hnone : ¬ ∃ k : Key, s.key k = true := fun ⟨k, hk⟩ =>
        List.find?_eq_none.mp hsearch k (List.mem_finRange k) hk
      simp only [exec, execLdVxK, hsearch] at h
      exact faultCause_of_stride heven (by rw [State.stride, if_neg hnone]) (.inl rfl) hs h ht

/-- Settles O52: for each kind of fault, the causes of that kind are the cases that the statement lists. -/
theorem eachFaultHasItsCause : Obligations.EachFaultHasItsCause := by
  intro i s t k hinv hs h ht
  have hcause := exec_faultCause hinv hs h ht
  refine ⟨?_, ?_, ?_, ?_, ?_, ?_, ?_⟩
  · rintro a rfl
    cases hcause with
    | lastWord hpc hd => exact .inl ⟨hpc, rfl, hd⟩
    | lastSkip hpc hd => exact .inr (.inl ⟨hpc, rfl, hd⟩)
    | skipBeyond hpc hd => exact .inr (.inr (.inl ⟨hpc, rfl, hd⟩))
    | jump nnn hi hsum ht' => exact .inr (.inr (.inr (.inl ⟨hsum, ⟨nnn, hi, rfl⟩, ht'⟩)))
    | index x hi hsum ht' => exact .inr (.inr (.inr (.inr (.inl ⟨hsum, ⟨x, hi, rfl⟩, ht'⟩))))
    | ret j hi hsp hslot => exact .inr (.inr (.inr (.inr (.inr (.inl ⟨rfl, hi, j, hsp, hslot⟩)))))
    | bcd x hi hend => exact .inr (.inr (.inr (.inr (.inr (.inr (.inl ⟨rfl, x, hi, hend⟩))))))
    | block x hi hend => exact .inr (.inr (.inr (.inr (.inr (.inr (.inr (.inl ⟨rfl, x, hi, hend⟩)))))))
    | sprite x y n hi hend =>
      have hbeyond : 0x1000 < s.i.toNat + spriteRows s.mode n * rowBytes (isWide s.mode n) :=
        Nat.lt_of_not_le fun hle => hend ((spriteFits_iff s n).mpr hle)
      exact .inr (.inr (.inr (.inr (.inr (.inr (.inr (.inr
        ⟨rfl, x, y, n, isWide s.mode n, hi, isWide_eq s.mode n, hbeyond⟩)))))))
  · rintro rfl
    cases hcause with
    | overflow nnn hi hsp ht' => exact ⟨⟨nnn, hi⟩, hsp, ht'⟩
  · rintro rfl
    cases hcause with
    | underflow hi hsp ht' => exact ⟨hi, hsp, ht'⟩
  · rintro rfl
    cases hcause with
    | oddJump nnn hi hodd ht' => exact .inl ⟨nnn, hi, hodd, ht'⟩
    | oddCall nnn hi hodd hsp ht' => exact .inr (.inl ⟨nnn, hi, hodd, hsp, ht'⟩)
    | oddSum nnn hi hsum hodd ht' => exact .inr (.inr ⟨nnn, hi, hsum, hodd, ht'⟩)
  · rintro rfl
    cases hcause with
    | digit x hi hbig ht' => exact ⟨x, hi, hbig, ht'⟩
  · rintro rfl
    cases hcause with
    | key x hi hbig ht' => exact ⟨x, hi, hbig, ht'⟩
  · rintro w rfl
    cases hcause

end Sys2Proof.Machine

namespace Sys2Proof.Machine

/-! ### Runs and weak fairness (60_exceptions.md R253, R257) -/

/-- A run from its second state on is a run. -/
theorem IsRun.tail {states : Nat → State} {events : Nat → Event} (h : IsRun states events) :
    IsRun (fun n => states (n + 1)) (fun n => events (n + 1)) := fun n => h (n + 1)

/-- The machine with a run's first events as its schedule takes the run. -/
theorem run_of_isRun (es : List Event) (n : Nat) : ∀ {states : Nat → State} {events : Nat → Event}, IsRun states events →
    Host.Core.run Sys2Proof.core n ((states 0).setSchedule ((List.range n).map events ++ es)) =
      .next ((states n).setSchedule es) := by
  induction n with
  | zero => exact fun _ => rfl
  | succ n ih =>
    intro states events hrun
    obtain ⟨-, hfire⟩ := hrun 0
    rw [List.range_succ_eq_map, List.map_cons, List.map_map, List.cons_append, run_succ n (step_of_fire _ hfire)]
    exact ih hrun.tail

/-- A number that never grows from `n` on, and shrinks again and again while it is not zero, comes to zero for good. -/
theorem comes_to_zero {f : Nat → Nat} {n : Nat} (hdown : ∀ m, n ≤ m → f (m + 1) ≤ f m)
    (hshrinks : ∀ m, n ≤ m → (∀ j, m ≤ j → f j ≠ 0) → ∃ j, m ≤ j ∧ f (j + 1) < f j) :
    ∃ m, n ≤ m ∧ ∀ j, m ≤ j → f j = 0 := by
  have hle : ∀ m, n ≤ m → ∀ j, m ≤ j → f j ≤ f m := fun m hm j hj => by
    induction j, hj using Nat.le_induction with
    | base => exact le_refl _
    | succ j hj ih => exact (hdown j (hm.trans hj)).trans ih
  have hzero : ∃ m, n ≤ m ∧ f m = 0 := by
    by_contra hnever
    push Not at hnever
    have hbound : ∀ v m, n ≤ m → f m ≠ v := by
      intro v
      induction v using Nat.strong_induction_on with
      | _ v ih =>
        rintro m hm rfl
        obtain ⟨j, hj, hlt⟩ := hshrinks m hm fun j hj => hnever j (hm.trans hj)
        exact ih (f (j + 1)) (hlt.trans_le (hle m hm j hj)) (j + 1) (by omega) rfl
    exact hbound (f n) n (le_refl n) rfl
  obtain ⟨m, hm, h0⟩ := hzero
  exact ⟨m, hm, fun j hj => Nat.le_zero.mp (h0 ▸ hle m hm j hj)⟩

/-! ### The timers along a run -/

theorem Timer.enabled_tick (c : Timer) {s : State} : c.tick.enabled s = true ↔ (c.get s).toNat ≠ 0 := by
  have hzero : ∀ b : Byte, decide (b ≠ 0) = true ↔ b.toNat ≠ 0 := fun b => by
    rw [decide_eq_true_eq, ne_eq, ne_eq, ← BitVec.toNat_inj]
    rfl
  cases c with
  | delay => exact hzero s.dt
  | sound => exact hzero s.st

/-- A tick of a running timer takes it down. -/
theorem Timer.fire_tick_lt (c : Timer) {s t : State} (h : fire c.tick s = .next t) (hrunning : (c.get s).toNat ≠ 0) :
    (c.get t).toNat < (c.get s).toNat := by
  have := (c.get s).isLt
  rw [c.fire_tick] at h
  injection h with h
  rw [← h, Timer.get_set, BitVec.toNat_ofNat]
  omega

/-- A tick takes its own timer down or leaves it at zero, and leaves the other one. -/
theorem Timer.fire_tick_le (c d : Timer) {s t : State} (h : fire d.tick s = .next t) :
    (c.get t).toNat ≤ (c.get s).toNat := by
  rw [d.fire_tick] at h
  injection h with h
  rw [← h]
  cases c <;> cases d <;> simp only [Timer.get, Timer.set, State.setDT_dt, State.setDT_st, State.setST_dt,
    State.setST_st, BitVec.toNat_ofNat] <;> omega

/-- An event that is no CPU step of the instruction that writes the timer does not raise it. -/
theorem Timer.fire_le (c : Timer) {e : Event} {s t : State} (h : fire e s = .next t)
    (hwrite : e = .cpu → ∀ x, fetch s ≠ .ok (encode (c.load x))) : (c.get t).toNat ≤ (c.get s).toNat := by
  cases e with
  | cpu =>
    by_contra hgrows
    obtain ⟨x, hfetch, -⟩ := cpuStep_timer c h fun he => hgrows (by rw [he])
    exact hwrite rfl x hfetch
  | tickDT => exact c.fire_tick_le .delay h
  | tickST => exact c.fire_tick_le .sound h
  | setKey | clearKey =>
    injection h with h
    rw [← h]
    cases c <;> exact le_refl _
  | loadProgram =>
    injection h with h
    rw [← h]
    cases c <;> exact Nat.zero_le _
  | teardown => cases h

section
variable {states : Nat → State} {events : Nat → Event} {n : Nat} (c : Timer) (hrun : IsRun states events)
include hrun

/-- The timer of a run that is fair to its cadence comes to zero for good once no instruction writes it. -/
theorem timer_comes_to_zero (hfair : FairTo c.tick states events)
    (hwrite : ∀ m x, n ≤ m → events m = .cpu → fetch (states m) ≠ .ok (encode (c.load x))) :
    ∃ m, n ≤ m ∧ ∀ j, m ≤ j → c.get (states j) = 0 := by
  obtain ⟨m, hm, hzero⟩ := comes_to_zero (f := fun j => (c.get (states j)).toNat) (n := n)
    (fun m hm => c.fire_le (hrun m).2 fun he x => hwrite m x hm he)
    (fun m _ hrunning => by
      obtain ⟨j, hj, he⟩ := hfair m fun j hj => c.enabled_tick.mpr (hrunning j hj)
      exact ⟨j, hj, c.fire_tick_lt (he ▸ (hrun j).2) (hrunning j hj)⟩)
  exact ⟨m, hm, fun j hj => BitVec.eq_of_toNat_eq (hzero j hj)⟩

/-- While the CPU alone goes on and no instruction writes the timer, it stands still. -/
theorem timer_still_of_cpu_alone (hcpu : ∀ m, n ≤ m → events m = .cpu)
    (hwrite : ∀ m x, n ≤ m → fetch (states m) ≠ .ok (encode (c.load x))) :
    ∀ m, n ≤ m → c.get (states m) = c.get (states n) := fun m hm => by
  induction m, hm using Nat.le_induction with
  | base => rfl
  | succ m hm ih =>
    have hfire := (hrun m).2
    rw [hcpu m hm] at hfire
    by_contra hne
    obtain ⟨x, hfetch, -⟩ := cpuStep_timer c hfire fun he => hne (he.trans ih)
    exact hwrite m x hm hfetch

/-- So beside the CPU alone no timer runs, if the run is fair to its cadence: it would stand still and come to zero. -/
theorem timer_stopped_of_cpu_alone (hfair : FairTo c.tick states events) (hcpu : ∀ m, n ≤ m → events m = .cpu)
    (hwrite : ∀ m x, n ≤ m → fetch (states m) ≠ .ok (encode (c.load x))) : c.get (states n) = 0 := by
  obtain ⟨m, hm, hzero⟩ := timer_comes_to_zero c hrun hfair fun m x hm _ => hwrite m x hm
  rw [← timer_still_of_cpu_alone c hrun hcpu hwrite m hm, hzero m (le_refl m)]

end

/-- Settles O60: a timer that nothing writes never grows and shrinks with each tick, and ticks go on while it runs. -/
theorem fairRunsStopTheTimers : Obligations.FairRunsStopTheTimers := by
  intro states events hrun
  refine ⟨fun n es => run_of_isRun es n hrun, ?_, ?_⟩
  · rintro ⟨-, hfairDT, hfairST⟩ n
    refine ⟨timer_comes_to_zero .delay hrun hfairDT, fun hwrite => ?_⟩
    obtain ⟨m, hm, hzero⟩ := timer_comes_to_zero .sound hrun hfairST hwrite
    exact ⟨m, hm, fun j hj => ⟨hzero j hj, decide_eq_false (not_not.mpr (hzero j hj))⟩⟩
  · rintro n hcpu hrunning hwrite ⟨-, hfairDT, hfairST⟩
    have hdt := timer_stopped_of_cpu_alone .delay hrun hfairDT hcpu fun m x hm => (hwrite m x hm).1
    have hst := timer_stopped_of_cpu_alone .sound hrun hfairST hcpu fun m x hm => (hwrite m x hm).2
    exact hrunning.elim (fun h => h hdt) fun h => h hst

end Sys2Proof.Machine

end
